-- ==== Sys2Proof/Word.lean ====
section
/-! DEFINITION. The word types of P8439-CORE: 32-bit words (register port data, ChaCha20 words; spec rules R9, R10, R21) and bytes (the memory port's access width, R69). -/

namespace Sys2Proof

/-- A 32-bit word: a register of the port (R21) and a word of the ChaCha20 state (R9). -/
abbrev Word := BitVec 32

/-- A byte of the data address space (R60). -/
abbrev Byte := BitVec 8

/-- A byte string, byte 0 first, at the lowest memory address (R13). -/
abbrev Bytes := List Byte

end Sys2Proof
end

