-- ==== Sys2Proof/Config.lean ====
section
/-! DEFINITION. What an implementation or a platform fixes (the spec's OPEN parameters, 93 U7) and the model's free values (93 U2, U3, U6). -/

namespace Sys2Proof

/-- A byte range `[base, base + len)` of the data address space (R63). -/
structure Region where
  base : Nat
  len  : Nat
deriving DecidableEq, Repr

/-- The platform around one hardware block: the four OPEN parameters (93 U7) as plain data, so that a statement about every
state is a statement about every value of them, and the platform's map of side-effect memory (R70, 93 U5). -/
structure Platform where
  /-- `ADDR_W`, the width of memory-port addresses (R11); legal values are 1 to 64. -/
  addrW : Nat
  /-- `DMA_COHERENT` (R80): whether the host's caches are coherent with the engine's port. -/
  dmaCoherent : Bool
  /-- `REG_BASE` (R73): where the register block sits in the host's address map; no rule depends on it. -/
  regBase : Nat
  /-- `IRQ_ROUTE` (R216): the host's interrupt input that `irq` is wired to; no rule depends on it. -/
  irqRoute : Nat
  /-- Ranges of the data address space that are not idempotent memory (device registers, FIFOs; R70). -/
  sideEffects : List Region
deriving DecidableEq, Repr

namespace Config

/-- Free bytes: the contents of a written region after a bus error (R72, 93 U3) or after a reset during a command (R226,
93 U6). Applied to `State.draws`, which every draw advances. Assumption log 4. -/
opaque freeByte : Nat → Byte

/-- Free choices: which of the composer states reached so far a read of STATUS returns while a command runs (R46, 93 U2).
Applied to `State.draws`. Assumption log 5. -/
opaque freeChoice : Nat → Nat

/-- What a byte of memory that nothing has written reads as. DESIGN CHOICE, not safe: assumption log 1. -/
def unlistedByte : Byte := 0

/-- The platform of the state after reset: `ADDR_W = 32` and `DMA_COHERENT` true, as the spec's own examples take them (R11,
section 3 of 95_test_vectors.md); `REG_BASE` and `IRQ_ROUTE` 0, no side-effect memory. DESIGN CHOICE: assumption log 2. -/
def platform : Platform :=
  { addrW := 32, dmaCoherent := true, regBase := 0, irqRoute := 0, sideEffects := [] }

end Config

end Sys2Proof
end

