-- ==== Sys2Proof/Syntax.lean ====
section
/-! DEFINITION. The syntax: registers by name (R23), the six command words and the two host transactions of the opcode table (R86, R95), and what an encoded instruction is. -/

namespace Sys2Proof

/-- The five 64-bit address and length registers, each a LO/HI pair of words (R41). -/
inductive Pair where
  | src | dst | ad | len | adlen
deriving DecidableEq, Repr

/-- The two halves of such a pair (R41). -/
inductive Half where
  | lo | hi
deriving DecidableEq, Repr

/-- The registers of the register map (R23). `reserved n` is a reserved index (R42). -/
inductive Reg where
  | id
  | ctrl
  | status
  | cmd
  | keyset
  | key (i : Fin 8)
  | nonce (i : Fin 3)
  | ctr
  | half (p : Pair) (h : Half)
  | reserved (n : Nat)
deriving DecidableEq, Repr

/-- One constructor per row of spec/opcode_table.json: the six command words an accepted command runs (format CMD32, R85,
R86), then the two kinds of host transaction (format HOST40, R95). -/
inductive Instr where
  | chachaBlock
  | chachaApply
  | poly1305Tag
  | aeadEncrypt
  | aeadDecrypt
  | zeroize
  | hostWr (r : Reg) (d : Word)
  | hostRd (r : Reg)
deriving DecidableEq, Repr

/-- An encoded instruction: a 32-bit command word (R85) or a 40-bit host transaction word (R95). -/
inductive Encoded where
  | cmd32 (w : BitVec 32)
  | host40 (t : BitVec 40)
deriving DecidableEq, Repr

/-- Why a word decodes to no instruction. The first two are the ILLEGAL(1) and ILLEGAL(2) of R90: such a command word is still
accepted, and completes with ILLEGAL_CMD. The last two make a malformed listing word (R96), which never reaches the hardware. -/
inductive DecodeError where
  | reservedOpcode
  | reservedBits
  | noTransaction
  | readWithData
deriving DecidableEq, Repr

end Sys2Proof
end

