-- ==== Sys2Proof/WellFormed.lean ====
section
/-! DEFINITION. Well-formed instructions: a register written by its reserved index must have a reserved index of the register map (R23, R42). -/

namespace Sys2Proof

/-- The reserved indices 0x05 to 0x07 and 0x1E to 0x3F (R42). -/
def reservedIndex (n : Nat) : Bool :=
  (decide (0x05 ≤ n) && decide (n ≤ 0x07)) || (decide (0x1E ≤ n) && decide (n ≤ 0x3F))

/-- A register operand names one of the 64 indices of R23 in one way only. -/
def Reg.wellFormed : Reg → Bool
  | .reserved n => reservedIndex n
  | .id | .ctrl | .status | .cmd | .keyset | .key _ | .nonce _ | .ctr | .half _ _ => true

/-- Command words carry no operand (R92); a host transaction carries a register (R95) and, for a write, any data (R96). -/
def Instr.wellFormed : Instr → Bool
  | .hostWr r _ => r.wellFormed
  | .hostRd r => r.wellFormed
  | .chachaBlock | .chachaApply | .poly1305Tag | .aeadEncrypt | .aeadDecrypt | .zeroize => true

end Sys2Proof
end

