-- ==== Sys2Proof/Decode.lean ====
section
/-! DEFINITION. Decoding, total on every word: command words (R90), host transaction words (R95, R96), register indices (R23); then the encoder, from the same tables. -/

namespace Sys2Proof

/-- The register at an index (R23). Every index not listed is reserved (R42). -/
def regOfIndex (n : Nat) : Reg :=
  match n with
  | 0x00 => .id
  | 0x01 => .ctrl
  | 0x02 => .status
  | 0x03 => .cmd
  | 0x04 => .keyset
  | 0x08 => .key 0
  | 0x09 => .key 1
  | 0x0A => .key 2
  | 0x0B => .key 3
  | 0x0C => .key 4
  | 0x0D => .key 5
  | 0x0E => .key 6
  | 0x0F => .key 7
  | 0x10 => .nonce 0
  | 0x11 => .nonce 1
  | 0x12 => .nonce 2
  | 0x13 => .ctr
  | 0x14 => .half .src .lo
  | 0x15 => .half .src .hi
  | 0x16 => .half .dst .lo
  | 0x17 => .half .dst .hi
  | 0x18 => .half .ad .lo
  | 0x19 => .half .ad .hi
  | 0x1A => .half .len .lo
  | 0x1B => .half .len .hi
  | 0x1C => .half .adlen .lo
  | 0x1D => .half .adlen .hi
  | n => .reserved n

/-- `decode(w)` of R90. The opcode is checked before the reserved bits, so the first decides when both fail (R88). -/
def decodeCommand (w : BitVec 32) : Except DecodeError Instr :=
  let op := (w.extractLsb' 0 4).toNat
  if op = 0 ∨ 7 ≤ op then .error .reservedOpcode
  else if w.extractLsb' 4 28 ≠ 0 then .error .reservedBits
  else
    match op with
    | 1 => .ok .chachaBlock
    | 2 => .ok .chachaApply
    | 3 => .ok .poly1305Tag
    | 4 => .ok .aeadEncrypt
    | 5 => .ok .aeadDecrypt
    | 6 => .ok .zeroize
    | _ => .error .reservedOpcode

/-- The host transaction a HOST40 word spells (R95): TYPE `10` is a write, TYPE `01` with DATA 0 a read; every other word is
malformed (R96). -/
def decodeHost (t : BitVec 40) : Except DecodeError Instr :=
  let type := t.extractLsb' 38 2
  let reg := regOfIndex (t.extractLsb' 32 6).toNat
  let data := t.extractLsb' 0 32
  if type = 0b10#2 then .ok (.hostWr reg data)
  else if type = 0b01#2 then
    if data = 0 then .ok (.hostRd reg) else .error .readWithData
  else .error .noTransaction

/-- Decoding an encoded instruction of either format. -/
def decode : Encoded → Except DecodeError Instr
  | .cmd32 w => decodeCommand w
  | .host40 t => decodeHost t

/-- Decoding a word whose bits are numbered as spec/opcode_table.json numbers them: 32 bits are a command word (CMD32, R85),
40 bits a host transaction word (HOST40, R95). Neither format is stored as bytes anywhere in this hardware (R22, R79), so
the word is the instruction's bits themselves. Assumption log 9. -/
def decodeTableWord (nbits w : Nat) : Option Instr :=
  if 2 ^ nbits ≤ w then none
  else if nbits = 32 then (decodeCommand (BitVec.ofNat 32 w)).toOption
  else if nbits = 40 then (decodeHost (BitVec.ofNat 40 w)).toOption
  else none

/-- The index of a register (R23). -/
def Reg.index : Reg → Nat
  | .id => 0x00
  | .ctrl => 0x01
  | .status => 0x02
  | .cmd => 0x03
  | .keyset => 0x04
  | .key i => 0x08 + i.val
  | .nonce i => 0x10 + i.val
  | .ctr => 0x13
  | .half p h =>
    (match p with
      | .src => 0x14
      | .dst => 0x16
      | .ad => 0x18
      | .len => 0x1A
      | .adlen => 0x1C)
    + (match h with
      | .lo => 0
      | .hi => 1)
  | .reserved n => n

/-- A HOST40 word from its fields, TYPE in bits 39:38, IDX in 37:32, DATA in 31:0 (R95). -/
def hostWord (type : BitVec 2) (idx : Nat) (data : Word) : BitVec 40 :=
  type ++ BitVec.ofNat 6 idx ++ data

/-- The word of an instruction: the opcode map of R86 and the transaction word of R95. -/
def encode : Instr → Encoded
  | .chachaBlock => .cmd32 0x00000001#32
  | .chachaApply => .cmd32 0x00000002#32
  | .poly1305Tag => .cmd32 0x00000003#32
  | .aeadEncrypt => .cmd32 0x00000004#32
  | .aeadDecrypt => .cmd32 0x00000005#32
  | .zeroize => .cmd32 0x00000006#32
  | .hostWr r d => .host40 (hostWord 0b10#2 r.index d)
  | .hostRd r => .host40 (hostWord 0b01#2 r.index 0)

end Sys2Proof
end

