-- ==== Sys2Proof/Machine/State.lean ====
section
/-! DEFINITION. The whole state of the machine (spec R20 to R57, and the platform's and host's side that the spec gives moves for), the reasons a step can stop, and the state after reset (R57). -/

namespace Sys2Proof.Machine

/-- Data memory: the bytes that differ from `Config.unlistedByte`, in rising order of address (`Memory.wf`). -/
abbrev Memory := List Host.Cell

/-- The composer states of R33 and R50. The code 7 is never produced (93 U1) and has no constructor. -/
inductive Phase where
  | init | keyDerived | payloadProcessed | macComputed | verified | rejected | tagged
deriving DecidableEq, Repr

/-- The causes a command completes with: success, then the rows of the table of R201 in its order. -/
inductive Cause where
  | success
  | reservedOpcode
  | reservedBits
  | keyIncomplete
  | nonceIncomplete
  | shortInput
  | addrRange
  | overlap
  | counterOverflow
  | authFail
  | busRead
  | busWrite
deriving DecidableEq, Repr

/-- A 64-bit register held as two independently written words (R10, R41). -/
structure Pair64 where
  lo : Word
  hi : Word
deriving DecidableEq, Repr

/-- The direction of a memory-port access: `mem_we` of R94. -/
inductive Dir where
  | read | write
deriving DecidableEq, Repr

/-- One byte access of the engine's memory port: `mem_we` and `mem_addr` of R94. -/
structure MemAccess where
  dir  : Dir
  addr : Nat
deriving DecidableEq, Repr

/-- What the platform answers to one engine access (R94: `mem_ack`, `mem_err`): it completes, it completes with a bus error
(R72), or the platform never answers (R107, R249). -/
inductive BusResp where
  | ok | error | never
deriving DecidableEq, Repr

/-- A host access to memory, as a host race names it (R233). -/
inductive HostAccess where
  | load | store
deriving DecidableEq, Repr

/-- One move of an agent (R6, R244). The state's list of moves says which agent moves next and what the host does. -/
inductive Move where
  /-- The host presents a register transaction, written as its HOST40 word (R21, R95). -/
  | xact (t : BitVec 40)
  /-- The engine takes its step, if it has one (R107). -/
  | engine
  /-- The input `rst` is asserted and released (R225). -/
  | reset
  /-- A host store of one byte that is performed at once (R244). -/
  | store (addr : Nat) (b : Byte)
  /-- A host store of one byte that the host's architecture may perform later (R234). -/
  | storePosted (addr : Nat) (b : Byte)
  /-- The oldest posted store is performed; a host's ordering instruction is a run of these (R75, R234). -/
  | drain
  /-- A host load of one byte (R244). -/
  | load (addr : Nat)
  /-- The host's WAIT loop (R98): it reads STATUS until it reads BUSY = 0. It reads `polls` times more before the engine's next
  turn. Assumption log 23. -/
  | wait (polls : Nat)
deriving DecidableEq, Repr

/-- The host-visible registers that hold a command's set-up (R23). -/
structure Regs where
  /-- `CTRL.IE` (R25). -/
  ie : Bool
  /-- `KEYSET.KMASK` (R36). -/
  kmask : BitVec 8
  /-- `KEYSET.NMASK` (R36). -/
  nmask : BitVec 3
  /-- KEY0..KEY7 (R37). -/
  key : Vector Word 8
  /-- NONCE0..NONCE2 (R39). -/
  nonce : Vector Word 3
  /-- CTR (R40). -/
  ctr : Word
  /-- SRC_LO, SRC_HI (R41). -/
  src : Pair64
  /-- DST_LO, DST_HI (R41). -/
  dst : Pair64
  /-- AD_LO, AD_HI (R41). -/
  ad : Pair64
  /-- LEN_LO, LEN_HI (R41). -/
  len : Pair64
  /-- ADLEN_LO, ADLEN_HI (R41). -/
  adlen : Pair64
deriving DecidableEq, Repr

/-- The fields of STATUS that hold state (R26); IRQ is computed (R30). -/
structure Status where
  /-- `STATUS.BUSY` (R27). -/
  busy : Bool
  /-- `STATUS.DONE` (R28). -/
  done : Bool
  /-- `STATUS.WDROP` (R29). -/
  wdrop : Bool
  /-- `STATUS.ERR` (R31). -/
  err : BitVec 4
  /-- `STATUS.SUB` (R32). -/
  sub : BitVec 4
  /-- The composer state, read as `STATUS.PHASE` (R33, R50). -/
  phase : Phase
deriving DecidableEq, Repr

/-- The call-scoped internal state, zeroed at every completion (R47 to R53, R117). -/
structure Engine where
  /-- `X[0..15]`, the working words of the ChaCha20 engine (R47). -/
  x : Vector Word 16
  /-- `S0[0..15]`, the original (pre-round) words (R47, R138). -/
  s0 : Vector Word 16
  /-- `RC`, the rounds done on the current block (R47). -/
  rc : Nat
  /-- `BC`, the counter of the block being generated (R48). -/
  bc : Word
  /-- `H`, the Poly1305 accumulator, an exact integer (R51). -/
  h : Nat
  /-- `PR`, the clamped multiplicative key half (R51). -/
  pr : BitVec 128
  /-- `PS`, the additive key half (R51). -/
  ps : BitVec 128
  /-- `OTK[0..32)`, the one-time key (R52). -/
  otk : Vector Byte 32
  /-- `ETAG[0..16)`, the expected tag (R52). -/
  etag : Vector Byte 16
  /-- `DIFF`, the accumulator of the constant-time comparison (R52). -/
  diff : Byte
deriving DecidableEq, Repr

/-- The host's side: what it is about to do and what it last saw (R6, R244). The model's own fields. -/
structure HostSide where
  /-- The moves to come, first move first; they also say when the engine moves. -/
  moves : List Move
  /-- Host stores issued and not yet performed, oldest first (R234). -/
  posted : List Host.Cell
  /-- The byte the last host load returned. -/
  hostByte : Byte
deriving DecidableEq, Repr

/-- The trace of R240 since the last acceptance. The model's own fields: no instruction reads them. -/
structure Trace where
  /-- The engine's accesses, newest first. -/
  portLog : List MemAccess
  /-- The number of engine steps: rounds, absorptions, comparisons, accesses. -/
  steps : Nat
deriving DecidableEq, Repr

/-- The state of the machine. -/
structure State where
  /-- The platform's parameters (93 U7); no move changes them. -/
  platform : Platform
  /-- The set-up registers (R23). -/
  regs : Regs
  /-- The fields of STATUS (R26). -/
  status : Status
  /-- The call-scoped internal state (R53). -/
  engine : Engine
  /-- `CUR_OP`, the command word accepted last (R49). -/
  curOp : Word
  /-- `reg_rdata`, the value the last register read returned (R21, R94). -/
  rdata : Word
  /-- The engine access that is outstanding because the platform never answers it (`mem_req` of R94, R107, R249). -/
  memReq : Option MemAccess
  /-- Data memory (R60). -/
  mem : Memory
  /-- The platform's answers to the engine's next accesses, first access first; when the list is empty every access is
  answered without error (R72, R94). The model's own field. -/
  bus : List BusResp
  /-- The host's side (R6, R244). -/
  host : HostSide
  /-- The trace of the command running or last run (R240). -/
  trace : Trace
  /-- How many free values have been drawn. The model's own field. -/
  draws : Nat
deriving DecidableEq, Repr

/-- The reasons the machine stops. -/
inductive Fault where
  /-- HOST_RACE (R84, R233): raised by a host load or store while BUSY that touches a region of the running command as the rule
  forbids, and by an acceptance with a posted store into a region of the command (R234). Safe: the spec names this fault. -/
  | hostRace (access : HostAccess) (addr : Nat)
  /-- Raised by a host load or store at an address outside `[0, 2^ADDR_W)` (R60): no such byte exists. Safe. -/
  | noSuchAddress (addr : Nat)
deriving DecidableEq, Repr

/-- The refusals by name (R248). -/
inductive Refusal where
  /-- An instruction that has no meaning yet. Safe. -/
  | notModelled (mnemonic : String)
  /-- A malformed listing word (R96, 93 U9): raised by a move that presents it. Safe. -/
  | malformedTransaction (t : BitVec 40)
  /-- A command whose accesses would reach side-effect memory (R70, 93 U5): raised by the write of CMD that would accept it, and
  by the five memory commands themselves. Safe. -/
  | sideEffectMemory
  /-- A host load or store of a byte of side-effect memory, whose behaviour the spec does not give: raised by the host's load and
  store moves. Safe. Assumption log 24. -/
  | deviceAccess (access : HostAccess) (addr : Nat)
  /-- `ADDR_W` outside 1 to 64 (R248, 93 U11): raised by every step. Safe. -/
  | addressWidth (w : Nat)
  /-- `DMA_COHERENT` false without the host's cache maintenance modelled (R245, 93 U12): raised by every step. Safe. -/
  | incoherentLaunch
deriving DecidableEq, Repr

/-- The set-up registers after reset (R57). -/
def Regs.zero : Regs :=
  { ie := false, kmask := 0, nmask := 0, key := Vector.replicate 8 0, nonce := Vector.replicate 3 0, ctr := 0
    src := ⟨0, 0⟩, dst := ⟨0, 0⟩, ad := ⟨0, 0⟩, len := ⟨0, 0⟩, adlen := ⟨0, 0⟩ }

/-- The status fields after reset (R57). -/
def Status.zero : Status :=
  { busy := false, done := false, wdrop := false, err := 0, sub := 0, phase := .init }

/-- The call-scoped internal state, all zero: after reset (R57) and after every completion (R117). -/
def Engine.zero : Engine :=
  { x := Vector.replicate 16 0, s0 := Vector.replicate 16 0, rc := 0, bc := 0, h := 0, pr := 0, ps := 0
    otk := Vector.replicate 32 0, etag := Vector.replicate 16 0, diff := 0 }

/-- The state after reset (R57, R225): every register and internal value 0, PHASE INIT, no byte of memory listed. The fields
R57 does not name (ports, platform, host) start empty or zero: assumption log 2 and 3. -/
def State.reset : State :=
  { platform := Config.platform, regs := Regs.zero, status := Status.zero, engine := Engine.zero, curOp := 0
    rdata := 0, memReq := none, mem := [], bus := [], host := { moves := [], posted := [], hostByte := 0 }
    trace := { portLog := [], steps := 0 }, draws := 0 }

end Sys2Proof.Machine
end

