-- ==== Sys2Proof/Machine/Flags.lean ====
section
/-! DEFINITION. The status word and its fields (R26 to R34), the interrupt line (R216), the presence masks (R36), and the codes of causes and phases (R33, R201). -/

namespace Sys2Proof.Machine

/-- `STATUS.ERR` of a cause (R31, R201). -/
def Cause.errCode : Cause → BitVec 4
  | .success => 0
  | .reservedOpcode | .reservedBits => 1
  | .keyIncomplete | .nonceIncomplete | .shortInput | .addrRange | .overlap => 2
  | .counterOverflow => 3
  | .authFail => 4
  | .busRead | .busWrite => 5

/-- `STATUS.SUB` of a cause (R32, R201). -/
def Cause.subCode : Cause → BitVec 4
  | .success | .authFail => 0
  | .reservedOpcode => 1
  | .reservedBits => 2
  | .keyIncomplete => 1
  | .nonceIncomplete => 2
  | .shortInput => 3
  | .addrRange => 4
  | .overlap => 5
  | .counterOverflow => 1
  | .busRead => 1
  | .busWrite => 2

/-- A bus error (R72): the causes after which the written regions hold any value. -/
def Cause.isBus : Cause → Bool
  | .busRead | .busWrite => true
  | .success | .reservedOpcode | .reservedBits | .keyIncomplete | .nonceIncomplete | .shortInput | .addrRange | .overlap
  | .counterOverflow | .authFail => false

/-- The code of a composer state (R33). -/
def Phase.code : Phase → BitVec 3
  | .init => 0
  | .keyDerived => 1
  | .payloadProcessed => 2
  | .macComputed => 3
  | .verified => 4
  | .rejected => 5
  | .tagged => 6

/-- The composer states reached on the way to a state, first reached first (R181 to R183). -/
def Phase.path : Phase → List Phase
  | .init => [.init]
  | .keyDerived => [.init, .keyDerived]
  | .payloadProcessed => [.init, .keyDerived, .payloadProcessed]
  | .macComputed => [.init, .keyDerived, .payloadProcessed, .macComputed]
  | .verified => [.init, .keyDerived, .payloadProcessed, .macComputed, .verified]
  | .rejected => [.init, .keyDerived, .payloadProcessed, .macComputed, .rejected]
  | .tagged => [.init, .keyDerived, .payloadProcessed, .macComputed, .tagged]

/-- The interrupt line and `STATUS.IRQ` (R30, R216). -/
def irq (s : State) : Bool :=
  s.regs.ie && s.status.done

/-- One bit of a word. -/
def bitAt (b : Bool) (n : Nat) : Word :=
  (BitVec.ofBool b).setWidth 32 <<< n

/-- The value `RegRead(0x02)` returns when it shows the composer state `p` (R26, R34). -/
def statusWord (s : State) (p : Phase) : Word :=
  bitAt s.status.busy 0 ||| bitAt s.status.done 1 ||| bitAt s.status.wdrop 2 ||| bitAt (irq s) 3
    ||| (s.status.err.setWidth 32 <<< 4) ||| (s.status.sub.setWidth 32 <<< 8) ||| (p.code.setWidth 32 <<< 12)

/-- The value of KEYSET (R36). -/
def keysetWord (s : State) : Word :=
  s.regs.kmask.setWidth 32 ||| (s.regs.nmask.setWidth 32 <<< 8)

/-- The value of CTRL (R25). -/
def ctrlWord (s : State) : Word :=
  bitAt s.regs.ie 0

/-- The value of ID (R24). -/
def idWord : Word :=
  0x00018439

/-- KMASK with the bit of one key word set (R37). -/
def keyMark (m : BitVec 8) (i : Fin 8) : BitVec 8 :=
  m ||| (1#8 <<< i.val)

/-- NMASK with the bit of one nonce word set (R39). -/
def nonceMark (m : BitVec 3) (i : Fin 3) : BitVec 3 :=
  m ||| (1#3 <<< i.val)

/-- A host write to STATUS (R34): bit 1 clears DONE, bit 2 clears WDROP, every other bit is ignored. -/
def clearFlags (d : Word) (s : State) : State :=
  { s with status.done := s.status.done && !d.getLsbD 1, status.wdrop := s.status.wdrop && !d.getLsbD 2 }

end Sys2Proof.Machine
end

