-- ==== Sys2Proof/Machine/Operands.lean ====
section
/-! DEFINITION. Byte order (R15, R62), the 64-bit operands (R16, R41), the key and nonce as bytes (R38, R39), the regions of each command (R63 to R65), and what the pre-checks read of a command (R108 to R113). -/

namespace Sys2Proof.Machine

/-! ### Byte strings and integers (R15) -/

/-- `le_bytes_n(v)`: the little-endian bytes of `v`, `n` of them; bits above them are dropped. -/
def leBytes : Nat → Nat → Bytes
  | 0, _ => []
  | n + 1, v => BitVec.ofNat 8 v :: leBytes n (v / 256)

/-- `le_int(b)`: the little-endian integer of a byte string. -/
def leInt : Bytes → Nat
  | [] => 0
  | b :: bs => b.toNat + 256 * leInt bs

/-- `words_le(b)`: a byte string cut into 32-bit words, each read little-endian; `n` words. -/
def wordsLe : Nat → Bytes → List Word
  | 0, _ => []
  | n + 1, b => BitVec.ofNat 32 (leInt (b.take 4)) :: wordsLe n (b.drop 4)

/-- The words of a vector as one byte string, each word little-endian (R38, R140). -/
def wordBytes (ws : List Word) : Bytes :=
  ws.flatMap fun w => leBytes 4 w.toNat

/-- `a ⊕ b` on byte strings, as long as the shorter of the two (R142). -/
def xorBytes (a b : Bytes) : Bytes :=
  List.zipWith (· ^^^ ·) a b

/-- The first `n` bytes of a string as a vector, zero bytes after its end. -/
def bytesVector (n : Nat) (b : Bytes) : Vector Byte n :=
  ⟨((b ++ List.replicate n 0).take n).toArray, by simp⟩

/-- `ceil(a / b)` (R14). -/
def ceilDiv (a b : Nat) : Nat :=
  (a + b - 1) / b

/-- `nb(n)`: the number of keystream blocks for `n` bytes (R113). -/
def blocksFor (n : Nat) : Nat :=
  ceilDiv n 64

/-! ### The 64-bit registers (R16, R41) -/

/-- `reg64[NAME]`. -/
def Pair64.value (p : Pair64) : Nat :=
  2 ^ 32 * p.hi.toNat + p.lo.toNat

/-- One half of a pair. -/
def Pair64.get (p : Pair64) : Half → Word
  | .lo => p.lo
  | .hi => p.hi

/-- A pair with one half written; the other half is kept. -/
def Pair64.set (p : Pair64) : Half → Word → Pair64
  | .lo, d => { p with lo := d }
  | .hi, d => { p with hi := d }

/-- The pair a register name stands for. -/
def State.pair (s : State) : Pair → Pair64
  | .src => s.regs.src
  | .dst => s.regs.dst
  | .ad => s.regs.ad
  | .len => s.regs.len
  | .adlen => s.regs.adlen

/-- The state with one pair replaced. -/
def State.setPair (s : State) (v : Pair64) : Pair → State
  | .src => { s with regs.src := v }
  | .dst => { s with regs.dst := v }
  | .ad => { s with regs.ad := v }
  | .len => { s with regs.len := v }
  | .adlen => { s with regs.adlen := v }

/-! ### Key and nonce bytes (R38, R39) -/

/-- `le_bytes_4(KEY[0]) ‖ ... ‖ le_bytes_4(KEY[7])`. -/
def keyBytes (s : State) : Bytes :=
  wordBytes s.regs.key.toList

/-! ### Regions (R63 to R65) -/

/-- `2^ADDR_W`, one past the last address of the data address space (R11). -/
def spaceSize (s : State) : Nat :=
  2 ^ s.platform.addrW

end Sys2Proof.Machine

namespace Sys2Proof

/-- An address lies in a region. -/
def Region.has (r : Region) (a : Nat) : Bool :=
  decide (r.base ≤ a) && decide (a < r.base + r.len)

/-- Two regions overlap (R65). An empty region overlaps nothing. -/
def Region.overlaps (r q : Region) : Bool :=
  decide (0 < r.len) && decide (0 < q.len) && decide (r.base < q.base + q.len) && decide (q.base < r.base + r.len)

end Sys2Proof

namespace Sys2Proof.Machine

/-- What the pre-checks and the race rule read of one command: whether it uses the nonce, its least LEN, its regions by role,
whether it may run in place, and the block counters it needs. Its fields are read from public registers only (R114). -/
structure Profile where
  /-- `uses_nonce` (R108). -/
  usesNonce : Bool
  /-- The least legal LEN (R110). -/
  minLen : Nat
  /-- The SRC read region, if the command has one (R64). -/
  src : Option Region
  /-- The AD read region, if the command has one (R64). -/
  ad : Option Region
  /-- The DST written region, if the command has one (R64). -/
  dst : Option Region
  /-- Whether DST may equal SRC (R65). -/
  inPlace : Bool
  /-- The block counter of the command's first payload block (R113). -/
  firstBlock : Nat
  /-- The number of payload blocks (R113). -/
  blocks : Nat
deriving DecidableEq, Repr

/-- CHACHA_BLOCK (R64, R113, R143): no read region, 64 bytes at DST, one block at CTR. -/
def chachaBlockProfile (s : State) : Profile :=
  { usesNonce := true, minLen := 0, src := none, ad := none, dst := some ⟨s.regs.dst.value, 64⟩
    inPlace := false, firstBlock := s.regs.ctr.toNat, blocks := 1 }

/-- CHACHA_APPLY (R64, R113, R146): `L` bytes at SRC, `L` bytes at DST, blocks from CTR. -/
def chachaApplyProfile (s : State) : Profile :=
  { usesNonce := true, minLen := 0, src := some ⟨s.regs.src.value, s.regs.len.value⟩, ad := none
    dst := some ⟨s.regs.dst.value, s.regs.len.value⟩, inPlace := true
    firstBlock := s.regs.ctr.toNat, blocks := blocksFor s.regs.len.value }

/-- POLY1305_TAG (R64, R113, R165): `L` bytes at SRC, 16 bytes at DST, no nonce, no keystream. -/
def poly1305TagProfile (s : State) : Profile :=
  { usesNonce := false, minLen := 0, src := some ⟨s.regs.src.value, s.regs.len.value⟩, ad := none
    dst := some ⟨s.regs.dst.value, 16⟩, inPlace := false, firstBlock := 0, blocks := 0 }

/-- AEAD_ENCRYPT (R64, R113, R184): `AL` bytes at AD, `L` bytes at SRC, `L + 16` bytes at DST, payload blocks from 1. -/
def aeadEncryptProfile (s : State) : Profile :=
  { usesNonce := true, minLen := 0, src := some ⟨s.regs.src.value, s.regs.len.value⟩, ad := some ⟨s.regs.ad.value, s.regs.adlen.value⟩
    dst := some ⟨s.regs.dst.value, s.regs.len.value + 16⟩, inPlace := true
    firstBlock := 1, blocks := blocksFor s.regs.len.value }

/-- AEAD_DECRYPT (R64, R110, R113, R193): `AL` bytes at AD, `L >= 16` bytes at SRC, `L - 16` bytes at DST, payload blocks
from 1. For `L < 16` the spec leaves the DST region open; here it is empty (the subtraction is on `Nat`), which the race rule alone
sees, as the command fails its check of LEN: DESIGN CHOICE, assumption log 29. -/
def aeadDecryptProfile (s : State) : Profile :=
  { usesNonce := true, minLen := 16, src := some ⟨s.regs.src.value, s.regs.len.value⟩, ad := some ⟨s.regs.ad.value, s.regs.adlen.value⟩
    dst := some ⟨s.regs.dst.value, s.regs.len.value - 16⟩, inPlace := true
    firstBlock := 1, blocks := blocksFor (s.regs.len.value - 16) }

/-- A profile with no region and no demand: ZEROIZE (R64). -/
def emptyProfile : Profile :=
  { usesNonce := false, minLen := 0, src := none, ad := none, dst := none, inPlace := false, firstBlock := 0, blocks := 0 }

/-- The profile of an instruction; host transactions have no regions. -/
def profileOf (i : Instr) (s : State) : Profile :=
  match i with
  | .chachaBlock => chachaBlockProfile s
  | .chachaApply => chachaApplyProfile s
  | .poly1305Tag => poly1305TagProfile s
  | .aeadEncrypt => aeadEncryptProfile s
  | .aeadDecrypt => aeadDecryptProfile s
  | .zeroize => emptyProfile
  | .hostWr _ _ => emptyProfile
  | .hostRd _ => emptyProfile

/-- The read regions of a command (R64). -/
def Profile.reads (p : Profile) : List Region :=
  p.ad.toList ++ p.src.toList

/-- The written regions of a command (R64). -/
def Profile.writes (p : Profile) : List Region :=
  p.dst.toList

/-- Every region ends inside the address space, in exact arithmetic (R63, R111). -/
def Profile.inRange (p : Profile) (size : Nat) : Bool :=
  (p.reads ++ p.writes).all fun r => decide (r.base + r.len ≤ size)

/-- A forbidden overlap (R65, R112): DST over AD, or DST over SRC unless the command may run in place and the two start at
the same address. -/
def Profile.overlapForbidden (p : Profile) : Bool :=
  p.writes.any fun d =>
    p.ad.toList.any (fun r => d.overlaps r)
    || p.src.toList.any (fun r => d.overlaps r && !(p.inPlace && decide (d.base = r.base)))

/-- `capacity_exceeded(d)` (R113): a block counter of `2^32` or more would be needed. -/
def Profile.capacityExceeded (p : Profile) : Bool :=
  decide (2 ^ 32 < p.firstBlock + p.blocks)

/-- A nonempty region of the command meets side-effect memory (R70). -/
def Profile.touches (p : Profile) (special : List Region) : Bool :=
  (p.reads ++ p.writes).any fun r => special.any fun q => r.overlaps q

end Sys2Proof.Machine
end

