-- ==== Sys2Proof/Machine/Ops.lean ====
section
/-! DEFINITION. Named operations over memory and the lifecycle: byte reads and writes, the memory port (R60, R67, R72), acceptance (R106), completion with its error record (R116, R210), zeroisation (R117), its acknowledgement (R213), pre-checks (R108), reset (R225). -/

namespace Sys2Proof.Machine

/-! ### Memory as data -/

/-- The byte at an address. -/
def Memory.read : Memory → Nat → Byte
  | [], _ => Config.unlistedByte
  | (k, b) :: m, a => if k = a then b else Memory.read m a

/-- Memory with one byte stored, in canonical form. -/
def Memory.write : Memory → Nat → Byte → Memory
  | [], a, b => if b = Config.unlistedByte then [] else [(a, b)]
  | (k, c) :: m, a, b =>
    if a < k then
      if b = Config.unlistedByte then (k, c) :: m else (a, b) :: (k, c) :: m
    else if a = k then
      if b = Config.unlistedByte then m else (k, b) :: m
    else (k, c) :: Memory.write m a b

/-- The canonical form from an address on: addresses strictly rising, no listed byte equal to the unlisted one. -/
def Memory.wfFrom : Nat → Memory → Bool
  | _, [] => true
  | lo, (k, b) :: m => decide (lo ≤ k) && decide (b ≠ Config.unlistedByte) && Memory.wfFrom (k + 1) m

/-- The canonical form of memory. -/
def Memory.wf (m : Memory) : Bool :=
  Memory.wfFrom 0 m

/-- Every listed byte lies below an address. -/
def Memory.below (n : Nat) (m : List Host.Cell) : Bool :=
  m.all fun c => decide (c.1 < n)

/-- `n` bytes of memory from an address on, in ascending order, as a value: what a command's read region holds (R81). -/
def Memory.bytes (m : Memory) : Nat → Nat → Bytes
  | _, 0 => []
  | a, n + 1 => Memory.read m a :: Memory.bytes m (a + 1) n

/-- Memory with a byte string stored from an address on (R81). -/
def Memory.store : Memory → Nat → Bytes → Memory
  | m, _, [] => m
  | m, a, b :: bs => Memory.store (Memory.write m a b) (a + 1) bs

/-! ### Engine operations that the platform can end -/

/-- The result of an engine operation: it is done, it raised an error that ends the command (R18), or an access of it is
never answered (R107). -/
inductive Res (α : Type) where
  | done (a : α) (s : State)
  | raised (c : Cause) (s : State)
  | hung (s : State)

/-- One engine operation after another; an error or an unanswered access ends the sequence. -/
def Res.andThen {α β : Type} (r : Res α) (f : α → State → Res β) : Res β :=
  match r with
  | .done a s => f a s
  | .raised c s => .raised c s
  | .hung s => .hung s

/-- The cause a bus error in a direction raises (R72). -/
def busCause : Dir → Cause
  | .read => .busRead
  | .write => .busWrite

/-- One engine step is counted (R240). -/
def tick (s : State) : State :=
  { s with trace.steps := s.trace.steps + 1 }

/-- One byte access is presented on the memory port: it joins the trace and takes the platform's next answer (R60, R72,
R94). -/
def busAccess (d : Dir) (a : Nat) (s : State) : Res Unit :=
  let t := { tick s with trace.portLog := ⟨d, a⟩ :: s.trace.portLog, bus := s.bus.tail }
  match s.bus.headD .ok with
  | .ok => .done () t
  | .error => .raised (busCause d) t
  | .never => .hung { t with memReq := some ⟨d, a⟩ }

/-- The engine reads one byte. -/
def readByte (a : Nat) (s : State) : Res Byte :=
  (busAccess .read a s).andThen fun _ t => .done (t.mem.read a) t

/-- The engine writes one byte. -/
def writeByte (a : Nat) (b : Byte) (s : State) : Res Unit :=
  (busAccess .write a s).andThen fun _ t => .done () { t with mem := t.mem.write a b }

/-- `MemRead(addr, n)`: `n` one-byte reads in ascending address order (R17, R67). -/
def memRead : Nat → Nat → State → Res Bytes
  | _, 0, s => .done [] s
  | a, n + 1, s => (readByte a s).andThen fun b t => (memRead (a + 1) n t).andThen fun bs u => .done (b :: bs) u

/-- `MemWrite(addr, n, b)`: one-byte writes in ascending address order (R17, R67). -/
def memWrite : Nat → Bytes → State → Res Unit
  | _, [], s => .done () s
  | a, b :: bs, s => (writeByte a b s).andThen fun _ t => memWrite (a + 1) bs t

/-- `n` bytes from an address on take free values (93 U3, U6). -/
def freeFill : Nat → Nat → State → State
  | _, 0, s => s
  | a, n + 1, s =>
    freeFill (a + 1) n { s with mem := s.mem.write a (Config.freeByte s.draws), draws := s.draws + 1 }

/-- Every byte of the given regions takes a free value (R72). -/
def scramble (rs : List Region) (s : State) : State :=
  rs.foldl (fun t r => freeFill r.base r.len t) s

/-! ### Lifecycle -/

/-- `zeroize_on_completion` (R117): the key, KMASK and the internal state except PHASE and CUR_OP. -/
def zeroizeOnCompletion (s : State) : State :=
  { s with regs.key := Vector.replicate 8 0, regs.kmask := 0, engine := Engine.zero }

/-- `complete_command(err, sub)` (R116): the ONE way a command ends, with success or with an error. It records the cause
(R210), zeroises, and ends BUSY; PHASE stays as the command left it. `raise ERR(c, s)` is this taken at once (R18). -/
def completeCommand (c : Cause) (s : State) : State :=
  { zeroizeOnCompletion { s with status.err := c.errCode, status.sub := c.subCode } with
    status.busy := false, status.done := true }

/-- The host's acknowledgement of a completion, `CLRDONE` (R213): the counterpart of a return from an exception. DONE falls;
ERR, SUB and PHASE stay readable (R210). -/
def acknowledge (s : State) : State :=
  clearFlags 0x00000002 s

/-- Acceptance of a command word (R106), one indivisible effect. The trace of R240 starts anew. -/
def accept (w : Word) (s : State) : State :=
  { s with
    curOp := w
    status := { s.status with busy := true, done := false, err := 0, sub := 0, phase := .init }
    trace := { portLog := [], steps := 0 } }

/-- The pre-checks of R108 after decoding, in their order; the first that fails is the error reported (R208). -/
def preCheck (p : Profile) (s : State) : Option Cause :=
  if s.regs.kmask ≠ 0xFF#8 then some .keyIncomplete
  else if p.usesNonce = true ∧ s.regs.nmask ≠ 0x7#3 then some .nonceIncomplete
  else if s.regs.len.value < p.minLen then some .shortInput
  else if p.inRange (spaceSize s) = false then some .addrRange
  else if p.overlapForbidden = true then some .overlap
  else if p.capacityExceeded = true then some .counterOverflow
  else none

/-- How a command ends once its work has run: completion (R116), completion with an error, after a bus error with its
written regions at any value (R72), or no completion because an access is never answered (R107, R249). -/
def settle (p : Profile) : Res Unit → Host.Outcome State Fault Refusal
  | .done _ s => .next (completeCommand .success s)
  | .raised c s => .next (completeCommand c (if c.isBus then scramble p.writes s else s))
  | .hung s => .next s

/-- `execute` of R108 for one of the five memory commands: the pre-checks, then the work, then completion. A command that
would reach side-effect memory is refused by name (R70). -/
def runCommand (p : Profile) (work : State → Res Unit) (s : State) : Host.Outcome State Fault Refusal :=
  match preCheck p s with
  | some c => .next (completeCommand c s)
  | none => if p.touches s.platform.sideEffects then .refused .sideEffectMemory else settle p (work s)

/-- The cause a command word that names no operation completes with (R87, R88, R123). -/
def illegalCause : DecodeError → Cause
  | .reservedBits => .reservedBits
  | .reservedOpcode | .noTransaction | .readWithData => .reservedOpcode

/-! ### The regions of a command word -/

/-- The profile of a command word: none for an illegal word (R64). -/
def wordProfile (w : Word) (s : State) : Profile :=
  match decodeCommand w with
  | .ok i => profileOf i s
  | .error _ => emptyProfile

/-- An address lies in one of the regions. -/
def inRegions (rs : List Region) (a : Nat) : Bool :=
  rs.any fun r => Region.has r a

/-- A command word launches at side-effect memory (R70, R248): the command passes its pre-checks, so it would make its accesses,
and one of its regions meets side-effect memory. Assumption log 12. -/
def reachesDevice (w : Word) (s : State) : Bool :=
  let p := wordProfile w s
  (preCheck p s).isNone && p.touches s.platform.sideEffects

/-- The written regions of a command that has passed its pre-checks; a command that fails one makes no access (R71). -/
def activeWrites (w : Word) (s : State) : List Region :=
  let p := wordProfile w s
  match preCheck p s with
  | none => p.writes
  | some _ => []

/-! ### Reset (R225, R226) -/

/-- Every piece of the hardware's state at the value of R57. Memory, the platform and what the host is about to do are not
the hardware's; they stay. -/
def resetHardware (s : State) : State :=
  { State.reset with platform := s.platform, mem := s.mem, bus := s.bus, host := s.host, draws := s.draws }

/-- The input `rst` (R225). A command in progress is abandoned and its written regions hold any value (R226, 93 U6).
The bytes of an in-place command that are in a read and in a written region hold any value too, DESIGN CHOICE: assumption log 31. -/
def resetMachine (s : State) : State :=
  resetHardware (if s.status.busy then scramble (activeWrites s.curOp s) s else s)

end Sys2Proof.Machine
end

