-- ==== Sys2Proof/Machine/Chacha.lean ====
section
/-! DEFINITION. The ChaCha20 engine (R125 to R142): its pure functions, the same steps over the machine's registers `X`, `S0`, `RC`, `BC`, the row-rotation datapath (R133 to R135), and CHACHA_BLOCK (R143) and CHACHA_APPLY (R146). -/

namespace Sys2Proof.Machine

/-- The sixteen words of a ChaCha20 state, word `4r + c` in row `r`, column `c` (R127). -/
abbrev Block := Vector Word 16

/-! ### The datapath as functions of words -/

/-- `rotl32(v, n)` (R14). -/
def rotl32 (v : Word) (n : Nat) : Word :=
  (v <<< n) ||| (v >>> (32 - n))

/-- The quarter-round of R128. -/
def quarterRound (a b c d : Word) : Word × Word × Word × Word :=
  let a := a + b
  let d := rotl32 (d ^^^ a) 16
  let c := c + d
  let b := rotl32 (b ^^^ c) 12
  let a := a + b
  let d := rotl32 (d ^^^ a) 8
  let c := c + d
  let b := rotl32 (b ^^^ c) 7
  (a, b, c, d)

/-- A quarter-round on four state indices (R129). -/
def quarterRoundAt (x : Block) (ia ib ic id : Fin 16) : Block :=
  let q := quarterRound x[ia] x[ib] x[ic] x[id]
  (((x.set ia q.1).set ib q.2.1).set ic q.2.2.1).set id q.2.2.2

/-- The column round (R130); also one pass of the four lanes of R133 over a working matrix. -/
@[irreducible] def columnWords (x : Block) : Block :=
  let x := quarterRoundAt x 0 4 8 12
  let x := quarterRoundAt x 1 5 9 13
  let x := quarterRoundAt x 2 6 10 14
  quarterRoundAt x 3 7 11 15

/-- The diagonal round (R131). -/
@[irreducible] def diagonalWords (x : Block) : Block :=
  let x := quarterRoundAt x 0 5 10 15
  let x := quarterRoundAt x 1 6 11 12
  let x := quarterRoundAt x 2 7 8 13
  quarterRoundAt x 3 4 9 14

/-- The double round (R132). -/
def doubleWords (x : Block) : Block :=
  diagonalWords (columnWords x)

/-- `n` double rounds (R136). -/
@[irreducible] def permuteWords : Nat → Block → Block
  | 0, x => x
  | n + 1, x => permuteWords n (doubleWords x)

/-- The initial state for a block counter (R125). -/
def initWords (key : Vector Word 8) (nonce : Vector Word 3) (c : Word) : Block :=
  #v[0x61707865, 0x3320646e, 0x79622d32, 0x6b206574,
     key[0], key[1], key[2], key[3], key[4], key[5], key[6], key[7],
     c, nonce[0], nonce[1], nonce[2]]

/-- The feed-forward (R137): word by word addition of the original state. -/
@[irreducible] def addWords (x s0 : Block) : Block :=
  ⟨(List.zipWith (· + ·) x.toList s0.toList).toArray, by simp⟩

/-- `serialize(X)` (R140). -/
def serialize (x : Block) : Bytes :=
  wordBytes x.toList

/-- The block function as a function of key, nonce and counter (R139). -/
def chachaBlock (key : Vector Word 8) (nonce : Vector Word 3) (c : Word) : Bytes :=
  serialize (addWords (permuteWords 10 (initWords key nonce c)) (initWords key nonce c))

/-- `apply(c0, m)` of R142, block by block: `n` blocks from counter `c` on. -/
def applyBlocks (key : Vector Word 8) (nonce : Vector Word 3) : Nat → Word → Bytes → Bytes
  | 0, _, _ => []
  | n + 1, c, m =>
    xorBytes (m.take 64) (chachaBlock key nonce c) ++ applyBlocks key nonce n (c + 1) (m.drop 64)

/-- `apply(key, nonce, initial_counter, data)` (R142). -/
def applyStream (key : Vector Word 8) (nonce : Vector Word 3) (c : Word) (m : Bytes) : Bytes :=
  applyBlocks key nonce (blocksFor m.length) c m

/-- The keystream byte `ks(c0, i)` of R141. -/
def keystreamByte (key : Vector Word 8) (nonce : Vector Word 3) (c0 : Nat) (i : Nat) : Byte :=
  (chachaBlock key nonce (BitVec.ofNat 32 (c0 + i / 64))).getD (i % 64) 0

/-! ### The row-rotation datapath (R133 to R135) -/

/-- The index `rot` reads for position `i`: row `r` is rotated left by `r` (R134). -/
def rotIndex (i : Fin 16) : Fin 16 :=
  ⟨4 * (i.val / 4) + (i.val % 4 + i.val / 4) % 4, by omega⟩

/-- The index `unrot` reads for position `i`: row `r` is rotated right by `r`, the inverse of `rotIndex` (R134). -/
def unrotIndex (i : Fin 16) : Fin 16 :=
  ⟨4 * (i.val / 4) + (i.val % 4 + 4 - i.val / 4) % 4, by omega⟩

/-- The sixteen positions in order. -/
def positions : List (Fin 16) :=
  [0, 1, 2, 3, 4, 5, 6, 7, 8, 9, 10, 11, 12, 13, 14, 15]

/-- `rot(X)` (R134). -/
def rotRows (x : Block) : Block :=
  ⟨(positions.map fun i => x[rotIndex i]).toArray, by simp [positions]⟩

/-- `unrot(Y)` (R134). -/
def unrotRows (y : Block) : Block :=
  ⟨(positions.map fun i => y[unrotIndex i]).toArray, by simp [positions]⟩

/-- `diagonal_round_rotated` (R134): rotate the rows, one pass of the column lanes, rotate back. -/
def diagonalRotated (x : Block) : Block :=
  unrotRows (columnWords (rotRows x))

/-! ### The same steps over the machine's registers -/

/-- `init_state(c)` with `c = BC` (R125, R141): `S0` and `X` from the constants, KEY, BC and NONCE; `RC` 0. -/
def initState (s : State) : State :=
  let w := initWords s.regs.key s.regs.nonce s.engine.bc
  tick { s with engine.s0 := w, engine.x := w, engine.rc := 0 }

/-- A column round on `X`, counted in `RC` (R130). -/
def columnRound (s : State) : State :=
  tick { s with engine.x := columnWords s.engine.x, engine.rc := s.engine.rc + 1 }

/-- A diagonal round on `X`, counted in `RC` (R131). -/
def diagonalRound (s : State) : State :=
  tick { s with engine.x := diagonalWords s.engine.x, engine.rc := s.engine.rc + 1 }

/-- `n` double rounds (R132, R136). -/
def permute : Nat → State → State
  | 0, s => s
  | n + 1, s => permute n (diagonalRound (columnRound s))

/-- The feed-forward into `X` (R137). -/
def feedForward (s : State) : State :=
  tick { s with engine.x := addWords s.engine.x s.engine.s0 }

/-- One block made in `X` for the counter in `BC` (R139, R141). -/
def makeBlock (s : State) : State :=
  feedForward (permute 10 (initState s))

/-- `BC` steps to the next block unless no block is left (R145). -/
def nextCounter (left : Nat) (s : State) : State :=
  if left = 0 then s else { s with engine.bc := s.engine.bc + 1 }

/-- The loop of R146 over the payload, and of R184 and R193 over theirs: for each of `k` blocks make the block, read up to 64
bytes at `src`, write their XOR with it at `dst`, and step `BC` unless the block is the last (R145). It answers the bytes it
wrote. The block is made before the read, as R146 has it for CHACHA_APPLY; for the AEAD commands the spec leaves that order open,
DESIGN CHOICE: assumption log 30. -/
def applyLoop : Nat → Nat → Nat → Nat → State → Res Bytes
  | 0, _, _, _, s => .done [] s
  | k + 1, src, dst, n, s =>
    let s := makeBlock s
    (memRead src (min 64 n) s).andThen fun m t =>
      let out := xorBytes m (serialize t.engine.x)
      (memWrite dst out t).andThen fun _ u =>
        (applyLoop k (src + 64) (dst + 64) (n - 64) (nextCounter k u)).andThen fun rest v => .done (out ++ rest) v

/-! ### CHACHA_BLOCK and CHACHA_APPLY -/

/-- The work of CHACHA_BLOCK (R143). -/
def chachaBlockWork (s : State) : Res Unit :=
  let t := makeBlock { s with engine.bc := s.regs.ctr }
  memWrite t.regs.dst.value (serialize t.engine.x) t

/-- CHACHA_BLOCK (R143). -/
def execChachaBlock (s : State) : Host.Outcome State Fault Refusal :=
  runCommand (chachaBlockProfile s) chachaBlockWork s

/-- The work of CHACHA_APPLY (R146). -/
def chachaApplyWork (s : State) : Res Unit :=
  (applyLoop (blocksFor s.regs.len.value) s.regs.src.value s.regs.dst.value s.regs.len.value { s with engine.bc := s.regs.ctr }).andThen
    fun _ t => .done () t

/-- CHACHA_APPLY (R146). -/
def execChachaApply (s : State) : Host.Outcome State Fault Refusal :=
  runCommand (chachaApplyProfile s) chachaApplyWork s

end Sys2Proof.Machine
end

