-- ==== Sys2Proof/Machine/Poly1305.lean ====
section
/-! DEFINITION. The Poly1305 engine (R155 to R162): its pure functions, the same steps over the machine's registers `H`, `PR`, `PS`, and POLY1305_TAG (R165). -/

namespace Sys2Proof.Machine

/-- `p = 2^130 - 5` (R162). -/
def polyPrime : Nat :=
  2 ^ 130 - 5

/-- The clamping mask of R156 (90 C1: the standard mask, not the document's "top 2 bits"). -/
def clampMask : BitVec 128 :=
  0x0ffffffc0ffffffc0ffffffc0fffffff#128

/-- The clamped multiplicative half of a one-time key (R155, R156). -/
def clampedR (otk : Bytes) : BitVec 128 :=
  BitVec.ofNat 128 (leInt (otk.take 16)) &&& clampMask

/-- The additive half of a one-time key (R155). -/
def additiveS (otk : Bytes) : BitVec 128 :=
  BitVec.ofNat 128 (leInt ((otk.drop 16).take 16))

/-- A byte string cut into `k` pieces of up to 16 bytes. -/
def pieces : Nat → Bytes → List Bytes
  | 0, _ => []
  | k + 1, m => m.take 16 :: pieces k (m.drop 16)

/-- The block partition of a message (R158). -/
def polyBlocks (m : Bytes) : List Bytes :=
  pieces (ceilDiv m.length 16) m

/-- The block value `v(b)` (R159). -/
def blockValue (b : Bytes) : Nat :=
  leInt b + 2 ^ (8 * b.length)

/-- The absorption step on an accumulator (R160). -/
def absorbValue (r : Nat) (h : Nat) (b : Bytes) : Nat :=
  (h + blockValue b) * r % polyPrime

/-- The accumulator after a message, from 0 (R160, R162). -/
def polyHash (r : Nat) (m : Bytes) : Nat :=
  (polyBlocks m).foldl (absorbValue r) 0

/-- Finalisation (R161). -/
def polyFinal (h s : Nat) : Bytes :=
  leBytes 16 ((h % polyPrime + s) % 2 ^ 128)

/-- `poly1305(otk, m)` (R162). -/
def poly1305 (otk m : Bytes) : Bytes :=
  polyFinal (polyHash (clampedR otk).toNat m) (additiveS otk).toNat

/-! ### The same steps over the machine's registers -/

/-- `PR` and `PS` from a one-time key, `H` 0 (R155, R156, R160). -/
def setPolyKey (otk : Bytes) (s : State) : State :=
  tick { s with engine.pr := clampedR otk, engine.ps := additiveS otk, engine.h := 0 }

/-- One block absorbed into `H` (R160). -/
def absorb (s : State) (b : Bytes) : State :=
  tick { s with engine.h := absorbValue s.engine.pr.toNat s.engine.h b }

/-- A message absorbed block by block (R158, R160). -/
def absorbAll (m : Bytes) (s : State) : State :=
  (polyBlocks m).foldl absorb s

/-- The tag of the accumulator (R161). -/
def currentTag (s : State) : Bytes :=
  polyFinal s.engine.h s.engine.ps.toNat

/-! ### POLY1305_TAG -/

/-- The work of POLY1305_TAG (R165). All of SRC is read before PR, PS and H are loaded, so all three are still 0 where a read is never
answered; how far they have come there the spec leaves open, DESIGN CHOICE: assumption log 27. -/
def poly1305TagWork (s : State) : Res Unit :=
  (memRead s.regs.src.value s.regs.len.value s).andThen fun m t =>
    let u := absorbAll m (setPolyKey (keyBytes t) t)
    memWrite u.regs.dst.value (currentTag u) u

/-- POLY1305_TAG (R165). -/
def execPoly1305Tag (s : State) : Host.Outcome State Fault Refusal :=
  runCommand (poly1305TagProfile s) poly1305TagWork s

end Sys2Proof.Machine
end

