-- ==== Sys2Proof/Machine/Aead.lean ====
section
/-! DEFINITION. The AEAD composer (R175 to R194): the MAC input, the state machine over `PHASE`, `OTK`, `ETAG`, `DIFF`, AEAD_ENCRYPT (R184) and AEAD_DECRYPT (R193). -/

namespace Sys2Proof.Machine

/-! ### As functions of byte strings -/

/-- `pad16(b)` (R176). -/
def pad16 (b : Bytes) : Bytes :=
  b ++ List.replicate ((16 - b.length % 16) % 16) 0

/-- The MAC input's payload part: padded associated data, then padded ciphertext (R177). -/
def macPayload (ad ct : Bytes) : Bytes :=
  pad16 ad ++ pad16 ct

/-- The MAC input's two length fields (R177). -/
def macLengths (al cl : Nat) : Bytes :=
  leBytes 8 al ++ leBytes 8 cl

/-- `mac_input(ad, ct)` (R177). -/
def macInput (ad ct : Bytes) : Bytes :=
  macPayload ad ct ++ macLengths ad.length ct.length

/-- The one-time key: the first 32 bytes of block 0 (R179). -/
def oneTimeKey (key : Vector Word 8) (nonce : Vector Word 3) : Bytes :=
  (chachaBlock key nonce 0).take 32

/-- The tag of associated data and ciphertext (R184, R188). -/
def aeadTag (key : Vector Word 8) (nonce : Vector Word 3) (ad ct : Bytes) : Bytes :=
  poly1305 (oneTimeKey key nonce) (macInput ad ct)

/-- `aead_encrypt`: ciphertext, then tag (R184, R185). -/
def aeadSeal (key : Vector Word 8) (nonce : Vector Word 3) (ad pt : Bytes) : Bytes :=
  applyStream key nonce 1 pt ++ aeadTag key nonce ad (applyStream key nonce 1 pt)

/-- The accumulated OR of byte differences over all 16 positions (R190). -/
def tagDiff (e r : Bytes) : Byte :=
  (xorBytes e r).foldl (· ||| ·) 0

/-! ### The composer's steps over the machine's registers -/

/-- The first 32 bytes of the block in `X` into `OTK`, `PR` and `PS` from them, `H` 0, KEY_DERIVED (R179, R181). -/
def loadOneTimeKey (t : State) : State :=
  let k := (serialize t.engine.x).take 32
  { setPolyKey k { t with engine.otk := bytesVector 32 k } with status.phase := .keyDerived }

/-- One-time key derivation: block 0, then its first 32 bytes as the one-time key (R179). -/
def deriveKey (s : State) : State :=
  loadOneTimeKey (makeBlock { s with engine.bc := 0 })

/-- Absorption of the padded data and ciphertext, PAYLOAD_PROCESSED (R181, R184, R193). -/
def absorbPayload (ad ct : Bytes) (s : State) : State :=
  { absorbAll (macPayload ad ct) s with status.phase := .payloadProcessed }

/-- Absorption of the length fields and finalisation, MAC_COMPUTED (R181). -/
def absorbLengths (al cl : Nat) (s : State) : State :=
  { absorbAll (macLengths al cl) s with status.phase := .macComputed }

/-- One iteration of the comparison loop (R190). -/
def compareByte (s : State) (p : Byte × Byte) : State :=
  tick { s with engine.diff := s.engine.diff ||| (p.1 ^^^ p.2) }

/-- The constant-time comparison of `ETAG` with the received tag (R190). -/
def compareTags (rtag : Bytes) (s : State) : State :=
  (s.engine.etag.toList.zip rtag).foldl compareByte { s with engine.diff := 0 }

/-- The work of AEAD_ENCRYPT (R184). H absorbs nothing before the last SRC block is written, one of the orders the rule allows:
assumption log 27. -/
def aeadEncryptWork (s : State) : Res Unit :=
  let al := s.regs.adlen.value
  let l := s.regs.len.value
  (memRead s.regs.ad.value al (deriveKey s)).andThen fun ad t =>
    (applyLoop (blocksFor l) t.regs.src.value t.regs.dst.value l { t with engine.bc := 1 }).andThen fun ct u =>
      let v := absorbLengths al l (absorbPayload ad ct u)
      (memWrite (v.regs.dst.value + l) (currentTag v) v).andThen fun _ w =>
        .done () { w with status.phase := .tagged }

/-- AEAD_ENCRYPT (R184). -/
def execAeadEncrypt (s : State) : Host.Outcome State Fault Refusal :=
  runCommand (aeadEncryptProfile s) aeadEncryptWork s

/-- AEAD_DECRYPT up to the comparison (R193): derive, read the associated data, the ciphertext and the received tag, compute
the expected tag into `ETAG`, compare into `DIFF`. H absorbs nothing before the received tag is read: assumption log 27. -/
def aeadDecryptVerify (s : State) : Res Unit :=
  let al := s.regs.adlen.value
  let cl := s.regs.len.value - 16
  (memRead s.regs.ad.value al (deriveKey s)).andThen fun ad t =>
    (memRead t.regs.src.value cl t).andThen fun ct u =>
      (memRead (u.regs.src.value + cl) 16 u).andThen fun rtag v =>
        let w := absorbLengths al cl (absorbPayload ad ct v)
        .done () (compareTags rtag { w with engine.etag := bytesVector 16 (currentTag w) })

/-- The second pass of AEAD_DECRYPT: each block of the ciphertext is read again and decrypted, from block counter 1 (R193). -/
def aeadDecryptSecondPass (s : State) : Res Unit :=
  let cl := s.regs.len.value - 16
  (applyLoop (blocksFor cl) s.regs.src.value s.regs.dst.value cl { s with engine.bc := 1 }).andThen fun _ t => .done () t

/-- AEAD_DECRYPT after the comparison (R193, R194): on a mismatch REJECTED and AUTH_FAIL, with nothing written; on a match
VERIFIED, and only then the second pass. -/
def aeadDecryptRelease (s : State) : Res Unit :=
  if s.engine.diff = 0 then aeadDecryptSecondPass { s with status.phase := .verified }
  else .raised .authFail { s with status.phase := .rejected }

/-- The work of AEAD_DECRYPT (R193). -/
def aeadDecryptWork (s : State) : Res Unit :=
  (aeadDecryptVerify s).andThen fun _ t => aeadDecryptRelease t

/-- AEAD_DECRYPT (R193). -/
def execAeadDecrypt (s : State) : Host.Outcome State Fault Refusal :=
  runCommand (aeadDecryptProfile s) aeadDecryptWork s

end Sys2Proof.Machine
end

