-- ==== Sys2Proof/Machine/Zeroize.lean ====
section
/-! DEFINITION. ZEROIZE (R122) and the completion of an illegal command word (R123). -/

namespace Sys2Proof.Machine

/-- ZEROIZE (R122): the nonce and NMASK are cleared, then the command completes, which clears the key and the internal state
(R117). No pre-check applies (R108). -/
def execZeroize (s : State) : Host.Outcome State Fault Refusal :=
  .next (completeCommand .success { s with regs.nonce := Vector.replicate 3 0, regs.nmask := 0 })

/-- An illegal command word (R123): no memory access, `raise ERR(1, sub)`. -/
def completeIllegal (e : DecodeError) (s : State) : State :=
  completeCommand (illegalCause e) s

end Sys2Proof.Machine
end

