-- ==== Sys2Proof/Machine/HostPort.lean ====
section
/-! DEFINITION. The register port (R21, R23 to R46): HOST_WR and HOST_RD. -/

namespace Sys2Proof.Machine

/-! ### What a read of PHASE may show while a command runs (R46) -/

/-- The running command taken to its end (R107): what the engine's step would answer. A host transaction is never latched as
a command word. -/
def engineRun (s : State) : Host.Outcome State Fault Refusal :=
  match decodeCommand s.curOp with
  | .error e => .next (completeIllegal e s)
  | .ok .chachaBlock => execChachaBlock s
  | .ok .chachaApply => execChachaApply s
  | .ok .poly1305Tag => execPoly1305Tag s
  | .ok .aeadEncrypt => execAeadEncrypt s
  | .ok .aeadDecrypt => execAeadDecrypt s
  | .ok .zeroize => execZeroize s
  | .ok (.hostWr _ _) => .next s
  | .ok (.hostRd _) => .next s

/-- The composer states the running command may have reached by now (R46, R181): if an access is outstanding, those up to the
one it waits in; otherwise, since how far the command has come is not fixed (93 U17), those up to the one it ends in. -/
def reachedPhases (s : State) : List Phase :=
  if s.memReq.isSome then s.status.phase.path
  else
    match engineRun s with
    | .next t => t.status.phase.path
    | .fault _ => s.status.phase.path
    | .refused _ => s.status.phase.path

/-- A draw among the composer states reached so far (R46, 93 U2). -/
def drawPhase (s : State) : Phase :=
  (reachedPhases s).getD (Config.freeChoice s.draws % (reachedPhases s).length) .init

/-! ### Register reads and writes -/

/-- `RegRead` of a register that is no field of STATUS (R24, R25, R35 to R42). Write-only registers and reserved indices
read 0. -/
def readPlain (r : Reg) (s : State) : Word :=
  match r with
  | .id => idWord
  | .ctrl => ctrlWord s
  | .status => statusWord s s.status.phase
  | .cmd => 0
  | .keyset => keysetWord s
  | .key _ => 0
  | .nonce i => s.regs.nonce[i]
  | .ctr => s.regs.ctr
  | .half p h => (s.pair p).get h
  | .reserved _ => 0

/-- `RegRead(idx)` (R21, R23). While BUSY a read of STATUS draws its PHASE (R46); every other read changes nothing. -/
def readReg (r : Reg) (s : State) : Word × State :=
  if r = .status ∧ s.status.busy = true then (statusWord s (drawPhase s), { s with draws := s.draws + 1 })
  else (readPlain r s, s)

/-- A register write that the port drops while BUSY (R45): the register keeps its value and WDROP is set. -/
def unlessBusy (s : State) (t : State) : State :=
  if s.status.busy then { s with status.wdrop := true } else t

/-- `RegWrite(idx, d)` for an idle or a busy engine (R24 to R45), with the acceptance it may cause (R106). -/
def writeReg (r : Reg) (d : Word) (s : State) : State :=
  match r with
  | .id => s
  | .ctrl => { s with regs.ie := d.getLsbD 0 }
  | .status => clearFlags d s
  | .cmd => unlessBusy s (accept d s)
  | .keyset => s
  | .key i => unlessBusy s { s with regs.key := s.regs.key.set i d, regs.kmask := keyMark s.regs.kmask i }
  | .nonce i => unlessBusy s { s with regs.nonce := s.regs.nonce.set i d, regs.nmask := nonceMark s.regs.nmask i }
  | .ctr => unlessBusy s { s with regs.ctr := d }
  | .half p h => unlessBusy s (s.setPair ((s.pair p).set h d) p)
  | .reserved _ => s

/-- A posted store of the host into a region of a command about to be accepted (R234): the first such address. -/
def postedRace (w : Word) (s : State) : Option Nat :=
  let p := wordProfile w s
  (s.host.posted.map Prod.fst).find? (inRegions (p.reads ++ p.writes))

/-- HOST_WR (R21, R95). A write of CMD while idle is an acceptance (R35). A store of the host not yet performed then is a host
race (R234), and a launch at side-effect memory is refused (R70, R248). -/
def execHostWr (r : Reg) (d : Word) (s : State) : Host.Outcome State Fault Refusal :=
  if r = .cmd ∧ s.status.busy = false then
    match postedRace d s with
    | some a => .fault (.hostRace .store a)
    | none => if reachesDevice d s then .refused .sideEffectMemory else .next (writeReg r d s)
  else .next (writeReg r d s)

/-- HOST_RD (R21, R95): the value read stands on `reg_rdata` (R94). -/
def execHostRd (r : Reg) (s : State) : Host.Outcome State Fault Refusal :=
  let v := readReg r s
  .next { v.2 with rdata := v.1 }

end Sys2Proof.Machine
end

