-- ==== Sys2Proof/Machine/Dispatch.lean ====
section
/-! DEFINITION. One arm per instruction of the opcode table. -/

namespace Sys2Proof.Machine

def exec (i : Instr) (s : State) : Host.Outcome State Fault Refusal :=
  match i with
  | .chachaBlock => Sys2Proof.Machine.execChachaBlock s
  | .chachaApply => Sys2Proof.Machine.execChachaApply s
  | .poly1305Tag => Sys2Proof.Machine.execPoly1305Tag s
  | .aeadEncrypt => Sys2Proof.Machine.execAeadEncrypt s
  | .aeadDecrypt => Sys2Proof.Machine.execAeadDecrypt s
  | .zeroize => Sys2Proof.Machine.execZeroize s
  | .hostWr r d => Sys2Proof.Machine.execHostWr r d s
  | .hostRd r => Sys2Proof.Machine.execHostRd r s

end Sys2Proof.Machine
end

