-- ==== Sys2Proof/Machine/Moves.lean ====
section
/-! DEFINITION. The moves of the agents (R6, R244): the engine's step, register transactions, host loads and stores, reset. -/

namespace Sys2Proof.Machine

/-- The engine has a step to take: a command runs and no access of it is outstanding (R107, R249). -/
def engineEnabled (s : State) : Bool :=
  s.status.busy && s.memReq.isNone

/-- The engine's step (R105, R107): the command word in CUR_OP is decoded and the command runs to its completion as one
transition; an illegal word completes at once (R123). -/
def engineMove (s : State) : Host.Outcome State Fault Refusal :=
  match decodeCommand s.curOp with
  | .ok i => exec i s
  | .error e => .next (completeIllegal e s)

/-- The engine's turn: its step if it has one, else nothing happens (R224, R249). -/
def engineTurn (s : State) : Host.Outcome State Fault Refusal :=
  if engineEnabled s then engineMove s else .next s

/-- The host presents a transaction word; a malformed one is refused (R96, R248). -/
def hostTransaction (t : BitVec 40) (s : State) : Host.Outcome State Fault Refusal :=
  match decodeHost t with
  | .ok i => exec i s
  | .error _ => .refused (.malformedTransaction t)

/-- The profile of the running command; none while idle (R84). -/
def runningProfile (s : State) : Profile :=
  if s.status.busy then wordProfile s.curOp s else emptyProfile

/-- A host store to this address is a race (R84): it lies in a read or written region of the running command. -/
def storeRaces (a : Nat) (s : State) : Bool :=
  inRegions ((runningProfile s).reads ++ (runningProfile s).writes) a

/-- A host load of this address is a race (R84): it lies in a written region of the running command. -/
def loadRaces (a : Nat) (s : State) : Bool :=
  inRegions (runningProfile s).writes a

/-- An address is a byte of side-effect memory (R70). -/
def isDevice (a : Nat) (s : State) : Bool :=
  inRegions s.platform.sideEffects a

/-- A host access may stand here: the byte exists, no race is made, and it is no byte of side-effect memory. What a host access
does at one the spec leaves open (R70 speaks of command regions only); the model refuses it: assumption log 24. -/
def checkAccess (k : HostAccess) (a : Nat) (races : Bool) (s : State) (t : State) : Host.Outcome State Fault Refusal :=
  if spaceSize s ≤ a then .fault (.noSuchAddress a)
  else if races then .fault (.hostRace k a)
  else if isDevice a s then .refused (.deviceAccess k a)
  else .next t

/-- A host store performed at once (R244). -/
def hostStore (a : Nat) (b : Byte) (s : State) : Host.Outcome State Fault Refusal :=
  checkAccess .store a (storeRaces a s) s { s with mem := s.mem.write a b }

/-- A host store issued and not yet performed (R234). -/
def hostStorePosted (a : Nat) (b : Byte) (s : State) : Host.Outcome State Fault Refusal :=
  checkAccess .store a (storeRaces a s) s { s with host.posted := s.host.posted ++ [(a, b)] }

/-- The oldest posted store is performed (R234); with none posted nothing happens. -/
def hostDrain (s : State) : Host.Outcome State Fault Refusal :=
  match s.host.posted with
  | [] => .next s
  | (a, b) :: rest => .next { s with host.posted := rest, mem := s.mem.write a b }

/-- The byte a host load returns: the host's own latest posted store to the address, else memory. -/
def hostView (a : Nat) (s : State) : Byte :=
  match s.host.posted.reverse.find? (fun c => decide (c.1 = a)) with
  | some c => c.2
  | none => s.mem.read a

/-- A host load (R244). -/
def hostLoad (a : Nat) (s : State) : Host.Outcome State Fault Refusal :=
  checkAccess .load a (loadRaces a s) s { s with host.hostByte := hostView a s }

/-- A next state with something done to it; a stop stays a stop. -/
def onNext (o : Host.Outcome State Fault Refusal) (f : State → State) : Host.Outcome State Fault Refusal :=
  match o with
  | .next t => .next (f t)
  | .fault e => .fault e
  | .refused r => .refused r

/-- A host that waits goes on waiting, with `n` polls before the engine's next turn. -/
def keepWaiting (n : Nat) (t : State) : State :=
  { t with host.moves := .wait n :: t.host.moves }

/-- One turn of a WAIT loop (R98): a read of STATUS, after which the host is done if bit 0 reads 0 and waits on if it reads 1.
When its polls before the engine's turn are used up the engine has that turn, and one more poll follows: so the loop ends
exactly when a read shows BUSY = 0, and on an engine that is stuck it never ends (R249). Assumption log 23. -/
def hostWait (n : Nat) (s : State) : Host.Outcome State Fault Refusal :=
  match n with
  | 0 => onNext (engineTurn s) (keepWaiting 1)
  | n + 1 => onNext (exec (.hostRd .status) s) fun t => if t.rdata.getLsbD 0 then keepWaiting n t else t

/-- One move. -/
def doMove (m : Move) (s : State) : Host.Outcome State Fault Refusal :=
  match m with
  | .xact t => hostTransaction t s
  | .engine => engineTurn s
  | .reset => .next (resetMachine s)
  | .store a b => hostStore a b s
  | .storePosted a b => hostStorePosted a b s
  | .drain => hostDrain s
  | .load a => hostLoad a s
  | .wait n => hostWait n s

/-- The next move of the schedule. With none left the engine takes its turn, so that an accepted command completes (the weak
fairness of R242). -/
def nextMove (s : State) : Host.Outcome State Fault Refusal :=
  match s.host.moves with
  | [] => engineTurn s
  | m :: rest => doMove m { s with host.moves := rest }

/-- What makes a model of this platform one the spec speaks of (R245, R248), else the refusal. -/
def platformRefusal (p : Platform) : Option Refusal :=
  if p.addrW < 1 ∨ 64 < p.addrW then some (.addressWidth p.addrW)
  else if p.dmaCoherent = false then some .incoherentLaunch
  else none

/-- A command word placed where the engine takes its command: accepted (R106), nothing outstanding, the engine moving next. -/
def placeCommand (w : Word) (s : State) : State :=
  { accept w s with memReq := none, host.moves := .engine :: s.host.moves }

/-- A transaction word placed as the host's next move. -/
def placeTransaction (t : BitVec 40) (s : State) : State :=
  { s with host.moves := .xact t :: s.host.moves }

end Sys2Proof.Machine
end

