-- ==== Sys2Proof/Machine/Step.lean ====
section
/-! DEFINITION. One step of the machine, and the placing of an instruction where the next step takes it. -/

namespace Sys2Proof.Machine

/-- One step: the next move, unless the platform is one the model refuses (R248). -/
def step (s : State) : Host.Outcome State Fault Refusal :=
  match platformRefusal s.platform with
  | some r => .refused r
  | none => nextMove s

/-- The state whose very next step runs the instruction of a table word. A command word is taken by the engine from CUR_OP
once accepted (R105, R106); a transaction word is the host's next move (R21). Assumption log 9 and 10. -/
def State.withFetchWord (s : State) (nbits w : Nat) : State :=
  if nbits = 32 then placeCommand (BitVec.ofNat 32 w) s
  else if nbits = 40 then placeTransaction (BitVec.ofNat 40 w) s
  else s

end Sys2Proof.Machine
end

