-- ==== Sys2Proof/Machine/Listing.lean ====
section
/-! DEFINITION. Host scripts (R97 to R99): register transactions, the pseudo-instructions with their expansions, and the directives that set memory and parameters before a run or state what the rules give after it. -/

namespace Sys2Proof.Machine

/-- The six command mnemonics (R86). -/
inductive Mnemonic where
  | chachaBlock | chachaApply | poly1305Tag | aeadEncrypt | aeadDecrypt | zeroize
deriving DecidableEq, Repr

/-- The word of a mnemonic (R86). -/
def Mnemonic.word : Mnemonic → Word
  | .chachaBlock => 0x00000001
  | .chachaApply => 0x00000002
  | .poly1305Tag => 0x00000003
  | .aeadEncrypt => 0x00000004
  | .aeadDecrypt => 0x00000005
  | .zeroize => 0x00000006

/-- A statement of a host script (R97, R98). The `n` of `wait n` and `run m n` is how many polls come before the engine's turn:
the number is the host's. R97 gives the spelling `R<n>` to a reserved index only and is silent on any other `n`: `wr` and `rd` take
a register that is not well formed (`Reg.wellFormed`) too, DESIGN CHOICE, assumption log 26. -/
inductive Stmt where
  | wr (r : Reg) (d : Word)
  | rd (r : Reg)
  | cmd (m : Mnemonic)
  | setKey (k : Vector Byte 32)
  | setNonce (n : Vector Byte 12)
  | set64 (p : Pair) (v : BitVec 64)
  | wait (n : Nat)
  | run (m : Mnemonic) (n : Nat)
  | clrDone
  | clrAll
deriving DecidableEq, Repr

/-- Word `i` of a byte string, `le32(b[4i..4i+4))` (R38, R39). -/
def wordOf (b : Bytes) (i : Nat) : Word :=
  BitVec.ofNat 32 (leInt ((b.drop (4 * i)).take 4))

/-- `WR CMD, <word>` (R98). -/
def submit (m : Mnemonic) : Instr :=
  .hostWr .cmd m.word

/-- `SETKEY` as register writes (R98). -/
def keyWrites (k : Vector Byte 32) : List Instr :=
  (List.finRange 8).map fun i => .hostWr (.key i) (wordOf k.toList i.val)

/-- `SETNONCE` as register writes (R98). -/
def nonceWrites (n : Vector Byte 12) : List Instr :=
  (List.finRange 3).map fun i => .hostWr (.nonce i) (wordOf n.toList i.val)

/-- `SET64` as register writes (R98). -/
def pairWrites (p : Pair) (v : BitVec 64) : List Instr :=
  [.hostWr (.half p .lo) (v.extractLsb' 0 32), .hostWr (.half p .hi) (v.extractLsb' 32 32)]

/-- The HOST40 word of a transaction; a command word is none (R95). -/
def transactionMove : Instr → Option Move
  | i =>
    match encode i with
    | .host40 t => some (.xact t)
    | .cmd32 _ => none

/-- Register transactions as moves. -/
def transactions (l : List Instr) : List Move :=
  l.filterMap transactionMove

/-- The expansion of a statement (R98): register transactions, and for WAIT the host's loop, which is no fixed list of them.
DESIGN CHOICE (assumption log 26): a statement whose `R<n>` is no reserved index, on which R97 is silent, moves as the transaction of
index `n mod 64`, all that IDX has room for, so `R3` and `R0x43` are CMD. -/
def Stmt.moves : Stmt → List Move
  | .wr r d => transactions [.hostWr r d]
  | .rd r => transactions [.hostRd r]
  | .cmd m => transactions [submit m]
  | .setKey k => transactions (keyWrites k)
  | .setNonce n => transactions (nonceWrites n)
  | .set64 p v => transactions (pairWrites p v)
  | .wait n => [.wait n]
  | .run m n => transactions [submit m] ++ [.wait n]
  | .clrDone => transactions [.hostWr .status 0x00000002]
  | .clrAll => transactions [.hostWr .status 0x00000006]

/-- A directive (R99). -/
inductive Directive where
  | mem (addr : Nat) (b : Bytes)
  | paramAddrW (w : Nat)
  | expectReg (r : Reg) (v : Word)
  | expectMem (addr : Nat) (b : Bytes)
deriving DecidableEq, Repr

/-- What a directive sets before the program runs (R99). A `.mem` byte at an address that does not exist (`2^ADDR_W` or more) the
spec says nothing of: it is set as written, and the state is then no launch state (`launchable`): assumption log 25. -/
def Directive.setUp (d : Directive) (s : State) : State :=
  match d with
  | .mem a b => { s with mem := s.mem.store a b }
  | .paramAddrW w => { s with platform := { s.platform with addrW := w } }
  | .expectReg _ _ => s
  | .expectMem _ _ => s

/-- What a directive states of an end state (R99). -/
def Directive.holds (d : Directive) (s : State) : Bool :=
  match d with
  | .mem _ _ => true
  | .paramAddrW _ => true
  | .expectReg r v => decide ((readReg r s).1 = v)
  | .expectMem a b => decide (s.mem.bytes a b.length = b)

/-- The launch state of a script (R245): its directives applied, then its statements as the moves to come. -/
def launch (ds : List Directive) (sts : List Stmt) (s : State) : State :=
  { ds.foldl (fun t d => d.setUp t) s with host.moves := sts.flatMap Stmt.moves }

end Sys2Proof.Machine
end

