-- ==== Sys2Proof/Safety.lean ====
section
/-! DEFINITION. What claims are stated in terms of: launch states, final states and observations (R245 to R247), runs without a fault, and the invariant of the machine. -/

namespace Sys2Proof.Machine

/-- A launch state (R245): a platform the spec speaks of, contents only for bytes that exist (R60; assumption log 25), nothing
running and nothing in flight. -/
def launchable (s : State) : Bool :=
  (platformRefusal s.platform).isNone && Memory.below (spaceSize s) s.mem && !s.status.busy && s.memReq.isNone
    && s.host.posted.isEmpty

/-- The end of a run (R246): the host has made its last move and no command is in flight. Whether a run has ended while a
host store is still posted the spec leaves open; here it has, and the memory observed lacks that store, DESIGN CHOICE: assumption
log 28. -/
def final (s : State) : Bool :=
  s.host.moves.isEmpty && !s.status.busy

/-- What is observed at the end of a run (R246): the 64 registers as RegRead would return them, the internal state of R47 to
R52, and memory. -/
structure Observation where
  registers : List Word
  curOp : Word
  phase : Phase
  engine : Engine
  mem : Memory
deriving DecidableEq, Repr

/-- The observation of a state (R246). -/
def observe (s : State) : Observation :=
  { registers := (List.range 64).map fun n => (readReg (regOfIndex n) s).1
    curOp := s.curOp, phase := s.status.phase, engine := s.engine, mem := s.mem }

/-- A run of `n` steps that meets no fault and no refusal. -/
def runsTo (n : Nat) (s t : State) : Prop :=
  Sys2Proof.core.run n s = .next t

/-- The invariant of the machine: what holds of the state between any two moves. -/
structure Inv (s : State) : Prop where
  /-- Memory is in its canonical form. -/
  memWf : s.mem.wf = true
  /-- Every listed byte exists (R60). -/
  memBelow : Memory.below (spaceSize s) s.mem = true
  /-- Every posted store is to a byte that exists. -/
  postedBelow : Memory.below (spaceSize s) s.host.posted = true
  /-- ERR and SUB are a pair of R201; no other pair is ever produced. -/
  record : ∃ c : Cause, s.status.err = c.errCode ∧ s.status.sub = c.subCode
  /-- The accumulator is a canonical residue (R51, R160). -/
  residue : s.engine.h < polyPrime
  /-- PR has no bit that the clamp clears (R51, R156). -/
  clamped : s.engine.pr &&& clampMask = s.engine.pr
  /-- RC counts at most the 20 rounds of a block (R47). -/
  rounds : s.engine.rc ≤ 20
  /-- A key word not marked in KMASK is zero (R36, R37, R117). -/
  keyUnset : ∀ i : Fin 8, s.regs.kmask.getLsbD i.val = false → s.regs.key[i] = 0
  /-- A nonce word not marked in NMASK is zero (R36, R39, R122). -/
  nonceUnset : ∀ i : Fin 3, s.regs.nmask.getLsbD i.val = false → s.regs.nonce[i] = 0
  /-- A command that runs does not point a region at side-effect memory (R70, R248). -/
  ordinary : s.status.busy = true → reachesDevice s.curOp s = false
  /-- While idle nothing of a command is left (R53, R117) and no access is outstanding. -/
  idle : s.status.busy = false → s.engine = Engine.zero ∧ s.memReq = none
  /-- While a command runs DONE, ERR and SUB are 0 (R106). -/
  running : s.status.busy = true → s.status.done = false ∧ s.status.err = 0 ∧ s.status.sub = 0
  /-- A command whose engine step is still to come is in INIT, with nothing computed (R106, R181). -/
  accepted : s.status.busy = true → s.memReq = none → s.status.phase = .init ∧ s.engine = Engine.zero
  /-- The record says AUTH_FAIL exactly in REJECTED (R192, R205). -/
  rejected : s.status.err = 4 ↔ s.status.phase = .rejected
  /-- A command that ended in an illegal word, CONFIG or CAPACITY ended in INIT (R181). -/
  unstarted : (s.status.err = 1 ∨ s.status.err = 2 ∨ s.status.err = 3) → s.status.phase = .init
  /-- TAGGED is a successful end (R181). -/
  tagged : s.status.phase = .tagged → s.status.err = 0

/-! ### What statements about commands use -/

/-- The platform answers every access without error (R72, R94). -/
def busOk (s : State) : Bool :=
  s.bus.all fun r => decide (r = .ok)

/-- A command passes its pre-checks (R108), its regions are idempotent memory (R70), and no bus error occurs: the premises of
R81. -/
def ready (p : Profile) (s : State) : Prop :=
  preCheck p s = none ∧ p.touches s.platform.sideEffects = false ∧ busOk s = true

/-- Reads of `n` bytes from an address on, in ascending order (R67). -/
def readsOf (a n : Nat) : List MemAccess :=
  (List.range n).map fun i => ⟨.read, a + i⟩

/-- Writes of `n` bytes from an address on, in ascending order (R67). -/
def writesOf (a n : Nat) : List MemAccess :=
  (List.range n).map fun i => ⟨.write, a + i⟩

/-- For each 64-byte block of `n` bytes: the reads of the source block, then the writes of the destination block (R67). -/
def blockAccesses (src dst n : Nat) : List MemAccess :=
  (List.range (blocksFor n)).flatMap fun j =>
    readsOf (src + 64 * j) (min 64 (n - 64 * j)) ++ writesOf (dst + 64 * j) (min 64 (n - 64 * j))

/-- The state after a list of answered accesses and `k` further engine steps, as far as the port and the trace show. -/
def afterAccesses (tr : List MemAccess) (k : Nat) (s : State) : State :=
  { s with
    bus := s.bus.drop tr.length
    trace := { portLog := tr.reverse ++ s.trace.portLog, steps := s.trace.steps + (tr.length + k) } }

/-- The associated data, ciphertext and received tag of a decryption, read from memory (R187). -/
def adBytes (s : State) : Bytes := s.mem.bytes s.regs.ad.value s.regs.adlen.value

/-- The SRC bytes of a command whose input is LEN bytes long (R64). -/
def srcBytes (s : State) : Bytes := s.mem.bytes s.regs.src.value s.regs.len.value

/-- The received ciphertext: the SRC bytes but the last 16 (R187). -/
def ctBytes (s : State) : Bytes := s.mem.bytes s.regs.src.value (s.regs.len.value - 16)

/-- The received tag: the last 16 SRC bytes (R187). -/
def rtagBytes (s : State) : Bytes := s.mem.bytes (s.regs.src.value + (s.regs.len.value - 16)) 16

/-- The one-bit verification outcome of a decryption (R190, R196). -/
def verifies (s : State) : Prop :=
  aeadTag s.regs.key s.regs.nonce (adBytes s) (ctBytes s) = rtagBytes s

/-- Two states agree on the public values of R240: every configuration register, the presence masks, the platform and its
answers, and the trace so far. -/
def publicEq (s t : State) : Prop :=
  s.platform = t.platform ∧ s.regs.kmask = t.regs.kmask ∧ s.regs.nmask = t.regs.nmask ∧ s.regs.ctr = t.regs.ctr ∧
    s.regs.src = t.regs.src ∧ s.regs.dst = t.regs.dst ∧ s.regs.ad = t.regs.ad ∧ s.regs.len = t.regs.len ∧
    s.regs.adlen = t.regs.adlen ∧ s.bus = t.bus ∧ s.trace = t.trace

/-- The instructions that are command words. -/
def isCommand : Instr → Bool
  | .chachaBlock | .chachaApply | .poly1305Tag | .aeadEncrypt | .aeadDecrypt | .zeroize => true
  | .hostWr _ _ | .hostRd _ => false

/-- The five commands that need a key (R109). -/
def isKeyed : Instr → Bool
  | .chachaBlock | .chachaApply | .poly1305Tag | .aeadEncrypt | .aeadDecrypt => true
  | .zeroize | .hostWr _ _ | .hostRd _ => false

/-- Two byte ranges overlap (R65). -/
def meet (a n b m : Nat) : Prop :=
  0 < n ∧ 0 < m ∧ a < b + m ∧ b < a + n

/-- Every region of a keyed command ends inside the address space, spelled out from R64. -/
def regionsInRange (i : Instr) (s : State) : Prop :=
  match i with
  | .chachaBlock => s.regs.dst.value + 64 ≤ spaceSize s
  | .chachaApply => s.regs.src.value + s.regs.len.value ≤ spaceSize s ∧ s.regs.dst.value + s.regs.len.value ≤ spaceSize s
  | .poly1305Tag => s.regs.src.value + s.regs.len.value ≤ spaceSize s ∧ s.regs.dst.value + 16 ≤ spaceSize s
  | .aeadEncrypt =>
    s.regs.ad.value + s.regs.adlen.value ≤ spaceSize s ∧ s.regs.src.value + s.regs.len.value ≤ spaceSize s ∧
      s.regs.dst.value + (s.regs.len.value + 16) ≤ spaceSize s
  | .aeadDecrypt =>
    s.regs.ad.value + s.regs.adlen.value ≤ spaceSize s ∧ s.regs.src.value + s.regs.len.value ≤ spaceSize s ∧
      s.regs.dst.value + (s.regs.len.value - 16) ≤ spaceSize s
  | .zeroize | .hostWr _ _ | .hostRd _ => True

/-- A forbidden overlap of a keyed command, spelled out from R64 and R65. -/
def regionsClash (i : Instr) (s : State) : Prop :=
  match i with
  | .chachaApply =>
    meet s.regs.dst.value s.regs.len.value s.regs.src.value s.regs.len.value ∧ s.regs.dst.value ≠ s.regs.src.value
  | .poly1305Tag => meet s.regs.dst.value 16 s.regs.src.value s.regs.len.value
  | .aeadEncrypt =>
    meet s.regs.dst.value (s.regs.len.value + 16) s.regs.ad.value s.regs.adlen.value ∨
      (meet s.regs.dst.value (s.regs.len.value + 16) s.regs.src.value s.regs.len.value ∧ s.regs.dst.value ≠ s.regs.src.value)
  | .aeadDecrypt =>
    meet s.regs.dst.value (s.regs.len.value - 16) s.regs.ad.value s.regs.adlen.value ∨
      (meet s.regs.dst.value (s.regs.len.value - 16) s.regs.src.value s.regs.len.value ∧ s.regs.dst.value ≠ s.regs.src.value)
  | .chachaBlock | .zeroize | .hostWr _ _ | .hostRd _ => False

/-- A keyed command would need a block counter of `2^32` or more, spelled out from R113. -/
def overCapacity (i : Instr) (s : State) : Prop :=
  match i with
  | .chachaApply => 2 ^ 32 < s.regs.ctr.toNat + (s.regs.len.value + 63) / 64
  | .aeadEncrypt => 2 ^ 32 < 1 + (s.regs.len.value + 63) / 64
  | .aeadDecrypt => 2 ^ 32 < 1 + (s.regs.len.value - 16 + 63) / 64
  | .chachaBlock | .poly1305Tag | .zeroize | .hostWr _ _ | .hostRd _ => False

/-- The commands that read the nonce (R108). -/
def usesNonce : Instr → Bool
  | .chachaBlock | .chachaApply | .aeadEncrypt | .aeadDecrypt => true
  | .poly1305Tag | .zeroize | .hostWr _ _ | .hostRd _ => false

/-- The bytes a keyed command leaves in its written region when it succeeds: `F(M)` of R81. -/
def commandOutput (i : Instr) (s : State) : Bytes :=
  match i with
  | .chachaBlock => chachaBlock s.regs.key s.regs.nonce s.regs.ctr
  | .chachaApply => applyStream s.regs.key s.regs.nonce s.regs.ctr (srcBytes s)
  | .poly1305Tag => poly1305 (keyBytes s) (srcBytes s)
  | .aeadEncrypt => aeadSeal s.regs.key s.regs.nonce (adBytes s) (srcBytes s)
  | .aeadDecrypt => applyStream s.regs.key s.regs.nonce 1 (ctBytes s)
  | .zeroize | .hostWr _ _ | .hostRd _ => []

end Sys2Proof.Machine
end

