-- ==== Sys2Proof/Certificates/Slice0/Obligations.lean ====
section
/-! DEFINITION. The statements for the provers, in the order of the spec: encoding, steps, register port, lifecycle, commands, whole-machine rules, reset, the computation. -/

open Sys2Proof Sys2Proof.Machine

/-! ### Encoding (30_encoding.md) -/

/-- Decoding the word of a well-formed instruction gives it back, every operand at every value. -/
def Obligations.EncodedInstructionDecodes : Prop :=
  ∀ i : Instr, i.wellFormed = true → decode (encode i) = .ok i

/-- A word that decodes is the word of the well-formed instruction it decodes to: no two words mean one instruction. -/
def Obligations.DecodedWordEncodes : Prop :=
  ∀ (e : Encoded) (i : Instr), decode e = .ok i → i.wellFormed = true ∧ encode i = e

/-- R90: the opcode is checked first, then the reserved bits, and the six words that are left name the six commands. -/
def Obligations.CommandWordDecoding : Prop :=
  (∀ w : BitVec 32,
    (decodeCommand w = .error .reservedOpcode ↔ w.toNat % 16 = 0 ∨ 7 ≤ w.toNat % 16) ∧
      (decodeCommand w = .error .reservedBits ↔ (1 ≤ w.toNat % 16 ∧ w.toNat % 16 ≤ 6) ∧ w.toNat / 16 ≠ 0) ∧
      ((∃ i, decodeCommand w = .ok i) ↔ 1 ≤ w.toNat ∧ w.toNat ≤ 6)) ∧
    decodeCommand 1 = .ok .chachaBlock ∧ decodeCommand 2 = .ok .chachaApply ∧ decodeCommand 3 = .ok .poly1305Tag ∧
    decodeCommand 4 = .ok .aeadEncrypt ∧ decodeCommand 5 = .ok .aeadDecrypt ∧ decodeCommand 6 = .ok .zeroize

/-- A word of each family, written from the tables of R86 and R95, decodes to what it stands for, and so do a read and a write of
each named index of the register map (R23). -/
def Obligations.SpelledWordsDecode : Prop :=
  decodeTableWord 32 0x00000003 = some .poly1305Tag ∧ decodeTableWord 32 0x00000006 = some .zeroize ∧
    decodeTableWord 40 0x8803020100 = some (.hostWr (.key 0) 0x03020100) ∧
    decodeTableWord 40 0x8300000004 = some (.hostWr .cmd 0x00000004) ∧
    decodeTableWord 40 0x9d00000000 = some (.hostWr (.half .adlen .hi) 0) ∧
    decodeTableWord 40 0x4200000000 = some (.hostRd .status) ∧
    decodeTableWord 40 0x7f00000000 = some (.hostRd (.reserved 0x3F)) ∧
    ∀ p ∈ [(0x00, Reg.id), (0x01, .ctrl), (0x02, .status), (0x03, .cmd), (0x04, .keyset), (0x08, .key 0), (0x09, .key 1)]
        ++ [(0x0A, .key 2), (0x0B, .key 3), (0x0C, .key 4), (0x0D, .key 5), (0x0E, .key 6), (0x0F, .key 7)]
        ++ [(0x10, .nonce 0), (0x11, .nonce 1), (0x12, .nonce 2), (0x13, .ctr), (0x14, .half .src .lo), (0x15, .half .src .hi)]
        ++ [(0x16, .half .dst .lo), (0x17, .half .dst .hi), (0x18, .half .ad .lo), (0x19, .half .ad .hi)]
        ++ [(0x1A, .half .len .lo), (0x1B, .half .len .hi), (0x1C, .half .adlen .lo), (0x1D, .half .adlen .hi)],
      decodeTableWord 40 (0x4000000000 + p.1 * 0x100000000) = some (.hostRd p.2) ∧
        decodeTableWord 40 (0x8000000000 + p.1 * 0x100000000 + 0x89abcdef) = some (.hostWr p.2 0x89abcdef)

/-- R96: which listing words are transactions, of which register and with which data; the others are refused. -/
def Obligations.ListingWordValidity : Prop :=
  ∀ t : BitVec 40,
    (t.extractLsb' 38 2 = 0b10#2 →
      decodeHost t = .ok (.hostWr (regOfIndex (t.extractLsb' 32 6).toNat) (t.extractLsb' 0 32))) ∧
    (t.extractLsb' 38 2 = 0b01#2 → t.extractLsb' 0 32 = 0#32 →
      decodeHost t = .ok (.hostRd (regOfIndex (t.extractLsb' 32 6).toNat))) ∧
    (t.extractLsb' 38 2 = 0b00#2 ∨ t.extractLsb' 38 2 = 0b11#2 ∨
        (t.extractLsb' 38 2 = 0b01#2 ∧ t.extractLsb' 0 32 ≠ 0#32) →
      ∀ s : State, hostTransaction t s = .refused (.malformedTransaction t))

/-! ### Steps (R21, R105, R107) -/

/-- A step is its next move, whatever that is, from the state with the move taken off the list (assumption log 8), and a step
whose next move is the word of a transaction is that transaction's `exec`. -/
def Obligations.StepRunsTransaction : Prop :=
  (∀ (m : Move) (s : State) (rest : List Move),
    platformRefusal s.platform = none → s.host.moves = m :: rest → step s = doMove m { s with host.moves := rest }) ∧
  ∀ (i : Instr) (t : BitVec 40) (s : State) (rest : List Move),
    platformRefusal s.platform = none → decodeHost t = .ok i → s.host.moves = .xact t :: rest →
      step s = exec i { s with host.moves := rest }

/-- A step that is the engine's turn, with a command accepted and no access outstanding, is `exec` of the command in CUR_OP:
the whole command is one step (R107; assumption log 6). With no move left the turn is the engine's (assumption log 8). -/
def Obligations.StepRunsAcceptedCommand : Prop :=
  ∀ (i : Instr) (s : State),
    platformRefusal s.platform = none → s.status.busy = true → s.memReq = none → decodeCommand s.curOp = .ok i →
      (s.host.moves = [] → step s = exec i s) ∧
        ∀ rest : List Move, s.host.moves = .engine :: rest → step s = exec i { s with host.moves := rest }

/-- R248 and the launch premise R245 (e): the refusals. A launch at side-effect memory is refused where the host's write of CMD
would accept it, and by the command itself, in either case after the pre-checks (assumption log 12). -/
def Obligations.RefusalsByName : Prop :=
  (∀ (s : State) (t : BitVec 40) (rest : List Move) (e : DecodeError),
    platformRefusal s.platform = none → s.host.moves = .xact t :: rest → decodeHost t = .error e →
      step s = .refused (.malformedTransaction t)) ∧
  (∀ (i : Instr) (s : State), isKeyed i = true → preCheck (profileOf i s) s = none →
    (profileOf i s).touches s.platform.sideEffects = true → exec i s = .refused .sideEffectMemory) ∧
  (∀ (s : State) (w : Word), s.status.busy = false →
    (∀ c ∈ s.host.posted, inRegions ((wordProfile w s).reads ++ (wordProfile w s).writes) c.1 = false) →
    preCheck (wordProfile w s) s = none → (wordProfile w s).touches s.platform.sideEffects = true →
      exec (.hostWr .cmd w) s = .refused .sideEffectMemory) ∧
  (∀ s : State, s.platform.addrW = 0 ∨ 64 < s.platform.addrW → step s = .refused (.addressWidth s.platform.addrW)) ∧
  (∀ s : State, 1 ≤ s.platform.addrW → s.platform.addrW ≤ 64 → s.platform.dmaCoherent = false →
    step s = .refused .incoherentLaunch)

/-! ### The register port (10_state.md) -/

/-- What a read of each register returns, STATUS apart: at any time, busy or idle (R24, R25, R35 to R37, R39 to R42). Nothing
but `reg_rdata` changes. -/
def Obligations.RegisterReads : Prop :=
  ∀ s : State,
    exec (.hostRd .id) s = .next { s with rdata := 0x00018439 } ∧
    exec (.hostRd .ctrl) s = .next { s with rdata := if s.regs.ie then 1 else 0 } ∧
    exec (.hostRd .cmd) s = .next { s with rdata := 0 } ∧
    (∃ v : Word, exec (.hostRd .keyset) s = .next { s with rdata := v } ∧
      v.extractLsb' 0 8 = s.regs.kmask ∧ v.extractLsb' 8 3 = s.regs.nmask ∧ v.extractLsb' 11 21 = 0) ∧
    (∀ i, exec (.hostRd (.key i)) s = .next { s with rdata := 0 }) ∧
    (∀ i, exec (.hostRd (.nonce i)) s = .next { s with rdata := s.regs.nonce[i] }) ∧
    exec (.hostRd .ctr) s = .next { s with rdata := s.regs.ctr } ∧
    (∀ p, exec (.hostRd (.half p .lo)) s = .next { s with rdata := (s.pair p).lo }) ∧
    (∀ p, exec (.hostRd (.half p .hi)) s = .next { s with rdata := (s.pair p).hi }) ∧
    (∀ n, exec (.hostRd (.reserved n)) s = .next { s with rdata := 0 })

/-- The fields of the word a read of STATUS returns (R26, R30, R34). Idle, PHASE is the composer state. -/
def Obligations.StatusWordLayout : Prop :=
  (∀ (s : State) (p : Phase),
    (statusWord s p).getLsbD 0 = s.status.busy ∧ (statusWord s p).getLsbD 1 = s.status.done ∧
    (statusWord s p).getLsbD 2 = s.status.wdrop ∧ (statusWord s p).getLsbD 3 = (s.regs.ie && s.status.done) ∧
    (statusWord s p).extractLsb' 4 4 = s.status.err ∧ (statusWord s p).extractLsb' 8 4 = s.status.sub ∧
    (statusWord s p).extractLsb' 12 3 = p.code ∧ (statusWord s p).extractLsb' 15 17 = 0) ∧
  ∀ s : State, s.status.busy = false →
    exec (.hostRd .status) s = .next { s with rdata := statusWord s s.status.phase }

/-- R46: a read of STATUS while a command runs shows BUSY = 1, DONE = 0, ERR = 0, SUB = 0, and a composer state on the path to
the one the command waits in or ends in (which one is a free value, whatever `draws` holds: assumption log 5). -/
def Obligations.StatusReadWhileBusy : Prop :=
  ∀ s : State, Inv s → s.status.busy = true →
    ∃ p q : Phase, p ∈ q.path ∧ (s.memReq ≠ none → q = s.status.phase) ∧
      (∀ t, s.memReq = none → engineMove s = .next t → q = t.status.phase) ∧
      exec (.hostRd .status) s = .next { s with rdata := statusWord s p, draws := s.draws + 1 } ∧
      (statusWord s p).getLsbD 0 = true ∧ (statusWord s p).getLsbD 1 = false ∧
      (statusWord s p).extractLsb' 4 4 = 0 ∧ (statusWord s p).extractLsb' 8 4 = 0

/-- Writes of CTRL and STATUS, busy or idle: IE takes bit 0; bit 1 clears DONE and bit 2 clears WDROP; every other bit is
ignored and nothing else changes (R25, R34, R43). `CLRDONE` is the acknowledgement (R213). -/
def Obligations.CtrlAndStatusWrites : Prop :=
  ∀ (s : State) (d : Word),
    exec (.hostWr .ctrl d) s = .next { s with regs.ie := d.getLsbD 0 } ∧
    exec (.hostWr .status d) s =
      .next { s with
        status.done := if d.getLsbD 1 then false else s.status.done
        status.wdrop := if d.getLsbD 2 then false else s.status.wdrop } ∧
    exec (.hostWr .status 0x00000002) s = .next (acknowledge s) ∧ (acknowledge s).status.done = false

/-- R42, R44: a reserved index reads 0 and ignores writes; a write to ID or KEYSET is ignored; nothing changes, WDROP is not
set and no command starts. -/
def Obligations.IgnoredWrites : Prop :=
  ∀ (s : State) (d : Word),
    exec (.hostWr .id d) s = .next s ∧ exec (.hostWr .keyset d) s = .next s ∧
    ∀ n : Nat, (0x05 ≤ n ∧ n ≤ 0x07) ∨ (0x1E ≤ n ∧ n ≤ 0x3F) →
      exec (.hostWr (regOfIndex n) d) s = .next s ∧
      exec (.hostRd (regOfIndex n)) s = .next { s with rdata := 0 }

/-- Set-up writes while idle: the register takes the data, a key or nonce word is marked in its mask, and nothing else changes
(R37, R39, R40, R41). -/
def Obligations.SetUpWrites : Prop :=
  ∀ (s : State) (d : Word), s.status.busy = false →
    (∀ i : Fin 8, ∃ m : BitVec 8,
      exec (.hostWr (.key i) d) s = .next { s with regs.key := s.regs.key.set i d, regs.kmask := m } ∧
        ∀ j : Nat, m.getLsbD j = (decide (j = i.val) || s.regs.kmask.getLsbD j)) ∧
    (∀ i : Fin 3, ∃ m : BitVec 3,
      exec (.hostWr (.nonce i) d) s = .next { s with regs.nonce := s.regs.nonce.set i d, regs.nmask := m } ∧
        ∀ j : Nat, m.getLsbD j = (decide (j = i.val) || s.regs.nmask.getLsbD j)) ∧
    exec (.hostWr .ctr d) s = .next { s with regs.ctr := d } ∧
    exec (.hostWr (.half .src .lo) d) s = .next { s with regs.src.lo := d } ∧
    exec (.hostWr (.half .src .hi) d) s = .next { s with regs.src.hi := d } ∧
    exec (.hostWr (.half .dst .lo) d) s = .next { s with regs.dst.lo := d } ∧
    exec (.hostWr (.half .dst .hi) d) s = .next { s with regs.dst.hi := d } ∧
    exec (.hostWr (.half .ad .lo) d) s = .next { s with regs.ad.lo := d } ∧
    exec (.hostWr (.half .ad .hi) d) s = .next { s with regs.ad.hi := d } ∧
    exec (.hostWr (.half .len .lo) d) s = .next { s with regs.len.lo := d } ∧
    exec (.hostWr (.half .len .hi) d) s = .next { s with regs.len.hi := d } ∧
    exec (.hostWr (.half .adlen .lo) d) s = .next { s with regs.adlen.lo := d } ∧
    exec (.hostWr (.half .adlen .hi) d) s = .next { s with regs.adlen.hi := d }

/-- R45: while BUSY a write to CMD, KEY, NONCE, CTR or an address or length half is dropped and sets WDROP; writes to CTRL and
STATUS take effect as usual; so no write changes a register that a command reads. -/
def Obligations.BusyWrites : Prop :=
  ∀ (s : State) (d : Word), s.status.busy = true →
    (∀ r : Reg, r = .cmd ∨ (∃ i, r = .key i) ∨ (∃ i, r = .nonce i) ∨ r = .ctr ∨ (∃ p h, r = .half p h) →
      exec (.hostWr r d) s = .next { s with status.wdrop := true }) ∧
    exec (.hostWr .ctrl d) s = .next { s with regs.ie := d.getLsbD 0 } ∧
    exec (.hostWr .status d) s =
      .next { s with
        status.done := if d.getLsbD 1 then false else s.status.done
        status.wdrop := if d.getLsbD 2 then false else s.status.wdrop } ∧
    ∀ r : Reg, ∃ t, exec (.hostWr r d) s = .next t ∧ t.regs = { s.regs with ie := t.regs.ie } ∧ t.curOp = s.curOp

/-- R106: acceptance of any word while idle, as one effect; nothing else of the hardware changes (the model's own trace starts
anew: assumption log 16), and `irq` falls. An illegal word is accepted too and then completes with ILLEGAL_CMD. The premises rule
out the host race of R234 (assumption log 15) and a launch at side-effect memory (R70, R248; assumption log 12). -/
def Obligations.CommandAcceptance : Prop :=
  ∀ (s : State) (w : Word), s.status.busy = false →
    (∀ c ∈ s.host.posted, inRegions ((wordProfile w s).reads ++ (wordProfile w s).writes) c.1 = false) →
    ¬(preCheck (wordProfile w s) s = none ∧ (wordProfile w s).touches s.platform.sideEffects = true) →
    ∃ t : State, exec (.hostWr .cmd w) s = .next t ∧
      t = { s with
        curOp := w
        status := { s.status with busy := true, done := false, err := 0, sub := 0, phase := .init }
        trace := { portLog := [], steps := 0 } } ∧
      irq t = false ∧
      ∀ e, decodeCommand w = .error e → ∃ u, engineMove t = .next u ∧ u.status.err = 1

/-- R234: a host store not yet performed at acceptance, into a region of the command, is a host race. The queue of
posted stores is the model's (assumption log 15). -/
def Obligations.PostedStoreRace : Prop :=
  ∀ (s : State) (w : Word) (c : Host.Cell), s.status.busy = false → c ∈ s.host.posted →
    inRegions ((wordProfile w s).reads ++ (wordProfile w s).writes) c.1 = true →
    ∃ b ∈ s.host.posted, exec (.hostWr .cmd w) s = .fault (.hostRace .store b.1) ∧
      inRegions ((wordProfile w s).reads ++ (wordProfile w s).writes) b.1 = true

/-! ### The host and memory (20_memory.md) -/

/-- R84: while a command runs, a host store to one of its regions and a host load from its written region are host races that
name the access. That a store to be posted races when it is issued is the model's choice (assumption log 15). -/
def Obligations.HostRaceWhileBusy : Prop :=
  ∀ (s : State) (a : Nat) (b : Byte), s.status.busy = true → a < spaceSize s →
    (inRegions ((wordProfile s.curOp s).reads ++ (wordProfile s.curOp s).writes) a = true →
      doMove (.store a b) s = .fault (.hostRace .store a) ∧ doMove (.storePosted a b) s = .fault (.hostRace .store a)) ∧
    (inRegions (wordProfile s.curOp s).writes a = true → doMove (.load a) s = .fault (.hostRace .load a))

/-- Host stores and loads that are no race (R60, R244): the byte stored and every other byte as before, at once or when a posted
store is performed; the byte read. While idle none is a race (assumption log 15). A host access of a byte of side-effect memory
is refused, which is the model's choice (assumption log 24). -/
def Obligations.HostStoreAndLoad : Prop :=
  ∀ (s : State) (a : Nat) (b : Byte), s.mem.wf = true → a < spaceSize s →
    ((s.status.busy = true → inRegions ((wordProfile s.curOp s).reads ++ (wordProfile s.curOp s).writes) a = false) →
      inRegions s.platform.sideEffects a = false →
      (∃ m : Memory, doMove (.store a b) s = .next { s with mem := m } ∧
        m.wf = true ∧ ∀ x, m.read x = if x = a then b else s.mem.read x) ∧
      doMove (.storePosted a b) s = .next { s with host.posted := s.host.posted ++ [(a, b)] }) ∧
    (∀ rest, s.host.posted = (a, b) :: rest → ∃ m : Memory,
      doMove .drain s = .next { s with mem := m, host.posted := rest } ∧
        m.wf = true ∧ ∀ x, m.read x = if x = a then b else s.mem.read x) ∧
    ((s.status.busy = true → inRegions (wordProfile s.curOp s).writes a = false) → inRegions s.platform.sideEffects a = false →
      s.host.posted = [] → doMove (.load a) s = .next { s with host.hostByte := s.mem.read a }) ∧
    (s.status.busy = false → inRegions s.platform.sideEffects a = true →
      doMove (.store a b) s = .refused (.deviceAccess .store a) ∧ doMove (.load a) s = .refused (.deviceAccess .load a))

/-! ### Lifecycle (40_command_lifecycle.md, 60_exceptions.md) -/

/-- R108 to R113, R208: which error a keyed command reports when several apply; with every check passed it works. -/
def Obligations.PreCheckOrder : Prop :=
  ∀ (i : Instr) (s : State), isKeyed i = true →
    (s.regs.kmask ≠ 0xFF#8 → exec i s = .next (completeCommand .keyIncomplete s)) ∧
    (s.regs.kmask = 0xFF#8 →
      (usesNonce i = true ∧ s.regs.nmask ≠ 0x7#3 → exec i s = .next (completeCommand .nonceIncomplete s)) ∧
      ((usesNonce i = true → s.regs.nmask = 0x7#3) →
        (i = .aeadDecrypt ∧ s.regs.len.value < 16 → exec i s = .next (completeCommand .shortInput s)) ∧
        ((i = .aeadDecrypt → 16 ≤ s.regs.len.value) →
          (¬regionsInRange i s → exec i s = .next (completeCommand .addrRange s)) ∧
          (regionsInRange i s →
            (regionsClash i s → exec i s = .next (completeCommand .overlap s)) ∧
            (¬regionsClash i s →
              (overCapacity i s → exec i s = .next (completeCommand .counterOverflow s)) ∧
              (¬overCapacity i s → preCheck (profileOf i s) s = none))))))

/-- R116, R201, R216: what a completion records and changes, for every cause; PHASE and everything else is kept. -/
def Obligations.CompletionRecord : Prop :=
  (∀ (c : Cause) (s : State),
    completeCommand c s =
      { s with
        regs.key := Vector.replicate 8 0, regs.kmask := 0
        engine := Engine.zero
        status := { s.status with busy := false, done := true, err := c.errCode, sub := c.subCode } } ∧
    irq (completeCommand c s) = s.regs.ie) ∧
  [Cause.success, .reservedOpcode, .reservedBits, .keyIncomplete, .nonceIncomplete, .shortInput, .addrRange, .overlap,
      .counterOverflow, .authFail, .busRead, .busWrite].map (fun c => (c.errCode, c.subCode)) =
    [(0, 0), (1, 1), (1, 2), (2, 1), (2, 2), (2, 3), (2, 4), (2, 5), (3, 1), (4, 0), (5, 1), (5, 2)]

/-- R117: whenever a step completes a command, KEY, KMASK and the internal state are zero after it, and CTR, the address and
length registers, CTRL and CUR_OP are as before; NONCE and NMASK too, unless the command is ZEROIZE. -/
def Obligations.EveryCompletionZeroises : Prop :=
  ∀ s t : State, Inv s → s.status.busy = true → step s = .next t → t.status.done = true →
    t.status.busy = false ∧ t.regs.key = Vector.replicate 8 0 ∧ t.regs.kmask = 0 ∧ t.engine = Engine.zero ∧
    t.regs.ctr = s.regs.ctr ∧ t.regs.src = s.regs.src ∧ t.regs.dst = s.regs.dst ∧ t.regs.ad = s.regs.ad ∧
    t.regs.len = s.regs.len ∧ t.regs.adlen = s.regs.adlen ∧ t.regs.ie = s.regs.ie ∧ t.curOp = s.curOp ∧
    (decodeCommand s.curOp ≠ .ok .zeroize → t.regs.nonce = s.regs.nonce ∧ t.regs.nmask = s.regs.nmask)

/-- R122: ZEROIZE in every state: key, nonce, masks and internal state cleared, success recorded, everything else kept, KEYSET
reads 0. Run after an acceptance it ends in INIT. -/
def Obligations.ZeroizeCommand : Prop :=
  ∀ s : State, ∃ t, exec .zeroize s = .next t ∧
    t = { s with
      regs.key := Vector.replicate 8 0, regs.kmask := 0, regs.nonce := Vector.replicate 3 0, regs.nmask := 0
      engine := Engine.zero
      status := { s.status with busy := false, done := true, err := 0, sub := 0 } } ∧
    keysetWord t = 0 ∧ (Inv s → s.status.busy = true → s.memReq = none → t.status.phase = .init)

/-- R87, R88, R123: an illegal command word completes with ILLEGAL_CMD, SUB 1 for its opcode and SUB 2 for its reserved bits; no
memory access is made, the nonce is kept and the key is zeroised. Run after an acceptance it ends in INIT. -/
def Obligations.IllegalCommandWord : Prop :=
  ∀ (s : State) (e : DecodeError), decodeCommand s.curOp = .error e →
    ∃ t, engineMove s = .next t ∧
      t = { s with
        regs.key := Vector.replicate 8 0, regs.kmask := 0
        engine := Engine.zero
        status := { s.status with
          busy := false, done := true, err := 1
          sub := if s.curOp.toNat % 16 = 0 ∨ 7 ≤ s.curOp.toNat % 16 then 1 else 2 } } ∧
      (Inv s → s.status.busy = true → s.memReq = none → t.status.phase = .init)

/-- The frame of the five memory commands: whatever their end, they change no configuration register, no flag but the record, and
no byte of memory outside their written region (R40, R41, R72, R81, R117). -/
def Obligations.CommandFrame : Prop :=
  ∀ (i : Instr) (s t : State), isKeyed i = true → s.mem.wf = true → exec i s = .next t →
    t.platform = s.platform ∧ t.curOp = s.curOp ∧ t.rdata = s.rdata ∧ t.host = s.host ∧
    t.regs.ie = s.regs.ie ∧ t.regs.nmask = s.regs.nmask ∧ t.regs.nonce = s.regs.nonce ∧ t.regs.ctr = s.regs.ctr ∧
    t.regs.src = s.regs.src ∧ t.regs.dst = s.regs.dst ∧ t.regs.ad = s.regs.ad ∧ t.regs.len = s.regs.len ∧
    t.regs.adlen = s.regs.adlen ∧ t.status.wdrop = s.status.wdrop ∧
    ((t.regs.key = s.regs.key ∧ t.regs.kmask = s.regs.kmask) ∨ (t.regs.key = Vector.replicate 8 0 ∧ t.regs.kmask = 0)) ∧
    ∀ x : Nat, inRegions (profileOf i s).writes x = false → t.mem.read x = s.mem.read x

/-- R71: the engine accesses only bytes of the running command's regions; a command that ends with ILLEGAL_CMD, CONFIG or CAPACITY
makes no access; one that ends with AUTH_FAIL makes no write. ZEROIZE and illegal words have no region, so they make none. -/
def Obligations.AccessesStayInside : Prop :=
  ∀ s t : State, s.status.busy = true → engineMove s = .next t →
    ∃ acc : List MemAccess, t.trace.portLog = acc ++ s.trace.portLog ∧
      (∀ a ∈ acc, inRegions (match a.dir with
        | .read => (wordProfile s.curOp s).reads
        | .write => (wordProfile s.curOp s).writes) a.addr = true) ∧
      (t.status.busy = false → (t.status.err = 1 ∨ t.status.err = 2 ∨ t.status.err = 3) → acc = []) ∧
      (t.status.busy = false → t.status.err = 4 → ∀ a ∈ acc, a.dir = .read)

/-- R118, R212: an error completion but BUS_ERROR leaves memory as it was; BUS_ERROR leaves every byte outside the written regions.
The configuration registers are as they were, KEY and KMASK zero. -/
def Obligations.PreciseErrors : Prop :=
  ∀ s t : State, s.mem.wf = true → s.status.busy = true → engineMove s = .next t → t.status.busy = false → t.status.err ≠ 0 →
    ((t.status.err = 1 ∨ t.status.err = 2 ∨ t.status.err = 3 ∨ t.status.err = 4) → t.mem = s.mem) ∧
    (∀ x, inRegions (wordProfile s.curOp s).writes x = false → t.mem.read x = s.mem.read x) ∧
    t.regs = { s.regs with key := Vector.replicate 8 0, kmask := 0 }

/-- R206: a keyed command ends with BUS_ERROR exactly when the platform answered one of its accesses with an error; it ends at that
access, with SUB 1 for a read and 2 for a write. The answers stand in a queue of the model (assumption log 7). -/
def Obligations.BusErrorEndsCommand : Prop :=
  ∀ (i : Instr) (s t : State), isKeyed i = true → s.status.busy = true → exec i s = .next t → t.status.busy = false →
    ∃ acc : List MemAccess, t.trace.portLog = acc ++ s.trace.portLog ∧ t.bus = s.bus.drop acc.length ∧
      (t.status.err = 5 ↔ BusResp.error ∈ s.bus.take acc.length) ∧
      (t.status.err = 5 → ∃ a older, acc = a :: older ∧ s.bus[older.length]? = some .error ∧
        (∀ r ∈ s.bus.take older.length, r = .ok) ∧ t.status.sub = (match a.dir with
          | .read => 1
          | .write => 2))

/-- R107, R119: if every access is answered, an accepted command completes, with one cause of the table of R201. The premise on
side-effect memory is the refusal of R70. -/
def Obligations.AnsweredCommandCompletes : Prop :=
  ∀ s : State, s.status.busy = true → BusResp.never ∉ s.bus →
    (wordProfile s.curOp s).touches s.platform.sideEffects = false →
    ∃ (c : Cause) (t : State), engineMove s = .next t ∧ t.status.busy = false ∧ t.status.done = true ∧
      t.status.err = c.errCode ∧ t.status.sub = c.subCode

/-- R107, R249, in both directions and in the form of assumption log 7. A command whose step leaves BUSY set has an access that is
never answered, and from then on the engine's turn changes nothing: no completion. And a command that may run, given a queue of
answers whose first that is not ok is `never`, stays BUSY at the access that answer falls on: its accesses are those it makes
when the queue is empty, so that every access is answered. -/
def Obligations.UnansweredCommandIsStuck : Prop :=
  (∀ (i : Instr) (s t : State), isKeyed i = true → exec i s = .next t → t.status.busy = true →
    BusResp.never ∈ s.bus ∧ t.memReq ≠ none ∧ engineTurn t = .next t ∧
      (platformRefusal t.platform = none → t.host.moves = [] → step t = .next t)) ∧
  ∀ (i : Instr) (s : State), isKeyed i = true → s.status.busy = true → preCheck (profileOf i s) s = none →
    (profileOf i s).touches s.platform.sideEffects = false →
    ∃ (u : State) (acc : List MemAccess), exec i { s with bus := [] } = .next u ∧
      u.trace.portLog = acc ++ s.trace.portLog ∧
      ∀ (k : Nat) (rest : List BusResp) (a : MemAccess), s.bus = List.replicate k .ok ++ .never :: rest →
        acc.reverse[k]? = some a → ∃ t, exec i s = .next t ∧ t.status.busy = true ∧ t.memReq = some a

/-! ### The commands (41_chacha20.md, 42_poly1305.md, 43_aead.md) -/

/-- CHACHA_BLOCK succeeds and writes the block of CTR at DST: 64 writes (R143), 22 engine steps (a count of the model,
assumption log 16). -/
def Obligations.ChachaBlockResult : Prop :=
  ∀ s : State, ready (chachaBlockProfile s) s →
    exec .chachaBlock s = .next (completeCommand .success
      { afterAccesses (writesOf s.regs.dst.value 64) 22 s with
        mem := s.mem.store s.regs.dst.value (chachaBlock s.regs.key s.regs.nonce s.regs.ctr) })

/-- CHACHA_APPLY succeeds and writes SRC XOR keystream at DST, block by block in the order of R67 (R146). The steps
are the model's count (assumption log 16). -/
def Obligations.ChachaApplyResult : Prop :=
  ∀ s : State, s.mem.wf = true → ready (chachaApplyProfile s) s →
    exec .chachaApply s = .next (completeCommand .success
      { afterAccesses (blockAccesses s.regs.src.value s.regs.dst.value s.regs.len.value) (22 * blocksFor s.regs.len.value) s with
        mem := s.mem.store s.regs.dst.value (applyStream s.regs.key s.regs.nonce s.regs.ctr (srcBytes s)) })

/-- POLY1305_TAG succeeds and writes the tag of the SRC bytes under the key as one-time key (R165). The steps are the
model's count (assumption log 16). -/
def Obligations.Poly1305TagResult : Prop :=
  ∀ s : State, ready (poly1305TagProfile s) s →
    exec .poly1305Tag s = .next (completeCommand .success
      { afterAccesses (readsOf s.regs.src.value s.regs.len.value ++ writesOf s.regs.dst.value 16)
          (1 + ceilDiv s.regs.len.value 16) s with
        mem := s.mem.store s.regs.dst.value (poly1305 (keyBytes s) (srcBytes s)) })

/-- AEAD_ENCRYPT succeeds in TAGGED and writes ciphertext, then tag (R184, R185). The steps are the model's count
(assumption log 16). -/
def Obligations.AeadEncryptResult : Prop :=
  ∀ s : State, s.mem.wf = true → ready (aeadEncryptProfile s) s →
    exec .aeadEncrypt s = .next (completeCommand .success
      { afterAccesses
          (readsOf s.regs.ad.value s.regs.adlen.value
            ++ blockAccesses s.regs.src.value s.regs.dst.value s.regs.len.value
            ++ writesOf (s.regs.dst.value + s.regs.len.value) 16)
          (23 + 22 * blocksFor s.regs.len.value + (ceilDiv s.regs.adlen.value 16 + ceilDiv s.regs.len.value 16 + 1)) s with
        mem := s.mem.store s.regs.dst.value (aeadSeal s.regs.key s.regs.nonce (adBytes s) (srcBytes s))
        status.phase := .tagged })

/-- AEAD_DECRYPT of an input whose tag is right succeeds in VERIFIED and writes the plaintext, after a first pass that only reads
(R193, R194). The steps are the model's count (assumption log 16). -/
def Obligations.AeadDecryptAccepts : Prop :=
  ∀ s : State, s.mem.wf = true → ready (aeadDecryptProfile s) s → verifies s →
    exec .aeadDecrypt s = .next (completeCommand .success
      { afterAccesses
          (readsOf s.regs.ad.value s.regs.adlen.value ++ readsOf s.regs.src.value s.regs.len.value
            ++ blockAccesses s.regs.src.value s.regs.dst.value (s.regs.len.value - 16))
          (23 + (ceilDiv s.regs.adlen.value 16 + ceilDiv (s.regs.len.value - 16) 16 + 1) + 16
            + 22 * blocksFor (s.regs.len.value - 16)) s with
        mem := s.mem.store s.regs.dst.value (applyStream s.regs.key s.regs.nonce 1 (ctBytes s))
        status.phase := .verified })

/-- R192: AEAD_DECRYPT of an input whose tag is wrong ends with ERR 4, SUB 0, PHASE REJECTED, and memory unchanged; its accesses
and its steps are those of the first pass, whatever the mismatch (how many steps that is: assumption log 16). -/
def Obligations.AeadDecryptRejects : Prop :=
  ∀ s : State, ready (aeadDecryptProfile s) s → ¬verifies s →
    exec .aeadDecrypt s = .next (completeCommand .authFail
      { afterAccesses (readsOf s.regs.ad.value s.regs.adlen.value ++ readsOf s.regs.src.value s.regs.len.value)
          (23 + (ceilDiv s.regs.adlen.value 16 + ceilDiv (s.regs.len.value - 16) 16 + 1) + 16) s with
        status.phase := .rejected }) ∧
    Cause.authFail.errCode = 4 ∧ Cause.authFail.subCode = 0 ∧ Phase.rejected.code = 5

/-- R81: a command that succeeds leaves memory with its written region replaced by its function of the memory at acceptance, and
every other byte as it was, in place or not. -/
def Obligations.ResultsInMemory : Prop :=
  ∀ (i : Instr) (s : State), isKeyed i = true → s.mem.wf = true → ready (profileOf i s) s → (i = .aeadDecrypt → verifies s) →
    ∃ t, exec i s = .next t ∧ t.status.err = 0 ∧ t.status.done = true ∧
      (profileOf i s).writes = [⟨s.regs.dst.value, (commandOutput i s).length⟩] ∧
      t.mem.bytes s.regs.dst.value (commandOutput i s).length = commandOutput i s ∧
      ∀ x, inRegions (profileOf i s).writes x = false → t.mem.read x = s.mem.read x

/-- R194: AEAD_DECRYPT makes no memory write unless the tag is right, whatever the platform answers. -/
def Obligations.VerifyThenDecrypt : Prop :=
  ∀ (s t : State) (acc : List MemAccess), exec .aeadDecrypt s = .next t → t.trace.portLog = acc ++ s.trace.portLog →
    (∃ a ∈ acc, a.dir = .write) → verifies s

/-- R195: after AEAD_ENCRYPT, AEAD_DECRYPT of its output with the same key, nonce and associated data succeeds and gives back the
plaintext. The decryption may write anywhere its pre-checks allow. The associated data must still be what it was: AD does not
overlap DST (R65). -/
def Obligations.DecryptInvertsEncrypt : Prop :=
  ∀ (s t u : State), s.mem.wf = true → ready (aeadEncryptProfile s) s → exec .aeadEncrypt s = .next t →
    u.mem = t.mem → u.regs.key = s.regs.key → u.regs.nonce = s.regs.nonce → u.regs.ad = s.regs.ad →
    u.regs.adlen = s.regs.adlen → u.regs.src = s.regs.dst → u.regs.len.value = s.regs.len.value + 16 →
    ready (aeadDecryptProfile u) u →
    ∃ v, exec .aeadDecrypt u = .next v ∧ v.status.err = 0 ∧ v.status.phase = .verified ∧
      v.mem.bytes u.regs.dst.value s.regs.len.value = srcBytes s

/-- R142, R146: CHACHA_APPLY twice, in place, with the same key, nonce and CTR restores memory. -/
def Obligations.ApplyTwiceRestores : Prop :=
  ∀ s t u : State, s.mem.wf = true → s.regs.src = s.regs.dst → ready (chachaApplyProfile s) s → exec .chachaApply s = .next t →
    u = { t with regs := s.regs } → ∃ v, exec .chachaApply u = .next v ∧ v.status.err = 0 ∧ v.mem = s.mem

/-- R240: the sequence of memory-port accesses and the number of engine steps of a command depend only on the public values, and for
AEAD_DECRYPT on the one bit of the verification: two runs that agree on those have the same trace, whatever the keys, the nonces
and the data. What counts as a step: assumption log 16. -/
def Obligations.ConstantTimeTrace : Prop :=
  ∀ (i : Instr) (s1 s2 t1 : State), isCommand i = true → publicEq s1 s2 → (i = .aeadDecrypt → (verifies s1 ↔ verifies s2)) →
    exec i s1 = .next t1 → ∃ t2, exec i s2 = .next t2 ∧ t2.trace = t1.trace

/-- R120: with no bus error, a command's record, its composer state and its written region are a function of the set-up registers and
of the contents of its read regions. -/
def Obligations.SameInputsSameResult : Prop :=
  ∀ (i : Instr) (s1 s2 : State), isCommand i = true → s1.mem.wf = true → s2.mem.wf = true → s1.regs = s2.regs →
    s1.platform = s2.platform → s1.status.phase = s2.status.phase →
    busOk s1 = true → busOk s2 = true → (profileOf i s1).touches s1.platform.sideEffects = false →
    (∀ x, inRegions (profileOf i s1).reads x = true → s1.mem.read x = s2.mem.read x) →
    ∃ t1 t2, exec i s1 = .next t1 ∧ exec i s2 = .next t2 ∧ t1.status.err = t2.status.err ∧ t1.status.sub = t2.status.sub ∧
      t1.status.phase = t2.status.phase ∧
      (t1.status.err = 0 → ∀ x, inRegions (profileOf i s1).writes x = true → t1.mem.read x = t2.mem.read x)

/-! ### Whole-machine rules -/

/-- R27: acceptance sets BUSY, completion and reset clear it; BUSY rises only when the host writes CMD while idle, and falls only
at a completion or by reset. Which moves are the engine's turn is the model's form (assumption log 8 and 23). -/
def Obligations.BusyChangesOnly : Prop :=
  (∀ (w : Word) (c : Cause) (s : State),
    (accept w s).status.busy = true ∧ (completeCommand c s).status.busy = false ∧ (resetMachine s).status.busy = false) ∧
  ∀ s t : State, step s = .next t →
    (s.status.busy = false → t.status.busy = true →
      ∃ (x : BitVec 40) (rest : List Move) (w : Word), s.host.moves = .xact x :: rest ∧ decodeHost x = .ok (.hostWr .cmd w) ∧
        t.curOp = w) ∧
    (s.status.busy = true → t.status.busy = false →
      (∃ rest, s.host.moves = .reset :: rest) ∨
        ((s.host.moves = [] ∨ ∃ rest, s.host.moves = .engine :: rest ∨ s.host.moves = .wait 0 :: rest) ∧ t.status.done = true))

/-- R29: a dropped write sets WDROP, a write of STATUS with bit 2 set and reset clear it; WDROP rises only when a register write is
dropped while BUSY, one of those R45 names, and falls only by such a write of STATUS or by reset. -/
def Obligations.WdropChangesOnly : Prop :=
  (∀ (r : Reg) (d : Word) (s : State), s.status.busy = true →
    r = .cmd ∨ (∃ i, r = .key i) ∨ (∃ i, r = .nonce i) ∨ r = .ctr ∨ (∃ p h, r = .half p h) →
    ∃ t, exec (.hostWr r d) s = .next t ∧ t.status.wdrop = true) ∧
  (∀ (d : Word) (s : State),
    (d.getLsbD 2 = true → ∃ t, exec (.hostWr .status d) s = .next t ∧ t.status.wdrop = false) ∧
      (resetMachine s).status.wdrop = false) ∧
  ∀ s t : State, step s = .next t →
    (s.status.wdrop = false → t.status.wdrop = true →
      s.status.busy = true ∧ ∃ (x : BitVec 40) (rest : List Move) (r : Reg) (d : Word),
        s.host.moves = .xact x :: rest ∧ decodeHost x = .ok (.hostWr r d) ∧
          (r = .cmd ∨ (∃ i, r = .key i) ∨ (∃ i, r = .nonce i) ∨ r = .ctr ∨ ∃ p h, r = .half p h)) ∧
    (s.status.wdrop = true → t.status.wdrop = false →
      (∃ rest, s.host.moves = .reset :: rest) ∨
        ∃ (x : BitVec 40) (rest : List Move) (d : Word),
          s.host.moves = .xact x :: rest ∧ decodeHost x = .ok (.hostWr .status d) ∧ d.getLsbD 2 = true)

/-- R37, R220: no register read shows a key word or the internal state: two states that differ only there answer every read alike.
The premise is about a read of STATUS while BUSY only, which may show the composer states reached and so the public outcome of a
verification (R46, R190). -/
def Obligations.SecretsUnreadable : Prop :=
  ∀ (r : Reg) (s t1 : State) (k : Vector Word 8) (e : Engine),
    (r = .status → s.status.busy = true → reachedPhases { s with regs.key := k, engine := e } = reachedPhases s) →
    exec (.hostRd r) s = .next t1 →
    ∃ t2, exec (.hostRd r) { s with regs.key := k, engine := e } = .next t2 ∧ t2.rdata = t1.rdata

/-! ### Reset and the invariant (R57, 70_reset_and_hazards.md) -/

/-- R57: after reset ID reads its constant, every other register reads 0, `irq` is 0 and the internal state is zero. -/
def Obligations.ResetState : Prop :=
  (∀ n : Fin 64, (readReg (regOfIndex n.val) State.reset).1 = if n.val = 0 then 0x00018439 else 0) ∧
    irq State.reset = false ∧ State.reset.regs.key = Vector.replicate 8 0 ∧ State.reset.curOp = 0 ∧
    State.reset.engine = Engine.zero ∧ State.reset.status.phase = .init

/-- R225, R226: the reset move leaves every register and the internal state at its reset value; memory is unchanged but for the
written regions of a command it abandons, which hold any value (bytes that are also in a read region too: assumption log 31).
The model's choice, and no rule of the spec: the read data 0, no access outstanding and the trace empty after it (assumption log 3
and 14), and what the reset keeps (assumption log 14). -/
def Obligations.ResetMove : Prop :=
  ∀ (s : State) (rest : List Move), platformRefusal s.platform = none → s.host.moves = .reset :: rest → s.mem.wf = true →
    ∃ (m : Memory) (n : Nat),
      step s = .next { State.reset with
        platform := s.platform, mem := m, bus := s.bus, host := { s.host with moves := rest }, draws := n } ∧
      (s.status.busy = false → m = s.mem ∧ n = s.draws) ∧
      ∀ x, inRegions (wordProfile s.curOp s).writes x = false → m.read x = s.mem.read x

/-- The invariant holds of the state after reset. -/
def Obligations.InvariantAtReset : Prop :=
  Inv State.reset

/-- Every step keeps the invariant: memory canonical and inside the address space, the record a pair of R201, the accumulator a
canonical residue, PR clamped, unmarked key and nonce words zero, no running command at side-effect memory (assumption log 12), nothing of a command
left while idle, and the composer state in agreement with the record. -/
def Obligations.InvariantKept : Prop :=
  ∀ s t : State, Inv s → step s = .next t → Inv t

/-! ### The computation -/

/-- R135: the row-rotated diagonal round is the diagonal round. -/
def Obligations.RowRotationIsDiagonal : Prop :=
  ∀ x : Block, unrotRows (columnWords (rotRows x)) = diagonalWords x

/-- R130: the four column quarter-rounds may run in any order. -/
def Obligations.ColumnQuarterRoundsCommute : Prop :=
  ∀ (l : List (Fin 16 × Fin 16 × Fin 16 × Fin 16)) (x : Block),
    l.Perm [(0, 4, 8, 12), (1, 5, 9, 13), (2, 6, 10, 14), (3, 7, 11, 15)] →
      l.foldl (fun y q => quarterRoundAt y q.1 q.2.1 q.2.2.1 q.2.2.2) x = columnWords x

/-- R138, R139: the engine's steps over its registers leave in `X` the words whose serialisation is the block of the function, 20
in RC and the original words in S0, and touch nothing else at all but the step count (assumption log 16). -/
def Obligations.StepwiseBlock : Prop :=
  ∀ s : State, ∃ x : Block, serialize x = chachaBlock s.regs.key s.regs.nonce s.engine.bc ∧
    makeBlock s =
      { s with
        engine := { s.engine with x := x, s0 := initWords s.regs.key s.regs.nonce s.engine.bc, rc := 20 }
        trace.steps := s.trace.steps + 22 }

/-- R141, R142: byte `i` of the applied stream is byte `i` of the message XOR keystream byte `i`, as long as no counter wraps. -/
def Obligations.KeystreamBytes : Prop :=
  ∀ (key : Vector Word 8) (nonce : Vector Word 3) (c : Word) (m : Bytes), c.toNat + blocksFor m.length ≤ 2 ^ 32 →
    (applyStream key nonce c m).length = m.length ∧
    ∀ i : Nat, i < m.length →
      (applyStream key nonce c m)[i]? = (m[i]?).map (· ^^^ keystreamByte key nonce c.toNat i)

/-- R156: the clamp byte by byte. -/
def Obligations.ClampBytes : Prop :=
  ∀ (otk : Bytes) (i : Nat), otk.length = 32 → i < 16 →
    (clampedR otk).extractLsb' (8 * i) 8 =
      otk.getD i 0 &&& (if i % 4 = 3 then 0x0f else if i % 4 = 0 ∧ i ≠ 0 then 0xfc else 0xff)

/-- R163: the ranges of an absorption, before its reduction. -/
def Obligations.AbsorptionRanges : Prop :=
  ∀ (otk b : Bytes) (h : Nat), 1 ≤ b.length → b.length ≤ 16 → h < polyPrime →
    2 ^ (8 * b.length) ≤ blockValue b ∧ blockValue b < 2 ^ (8 * b.length + 1) ∧ blockValue b < 2 ^ 129 ∧
    (clampedR otk).toNat < 2 ^ 124 ∧ h + blockValue b < 2 ^ 131 ∧ (h + blockValue b) * (clampedR otk).toNat < 2 ^ 255 ∧
    absorbValue (clampedR otk).toNat h b < polyPrime

/-- R167, R168: the empty message absorbs no block; with it, or under a zero multiplier, the accumulator stays 0 and the tag is the
second half of the one-time key. -/
def Obligations.EmptyAndZeroTags : Prop :=
  ∀ otk : Bytes, otk.length = 32 →
    (polyBlocks [] = [] ∧ polyHash (clampedR otk).toNat [] = 0 ∧ poly1305 otk [] = otk.drop 16) ∧
    (clampedR otk = 0 → ∀ m : Bytes, polyHash (clampedR otk).toNat m = 0 ∧ poly1305 otk m = otk.drop 16)

/-- R177: the MAC input is associated data, zero padding, ciphertext, zero padding and two 8-byte lengths; its length is a multiple
of 16 and at least 16. -/
def Obligations.MacInputLayout : Prop :=
  ∀ ad ct : Bytes,
    ∃ p q : Nat, p < 16 ∧ q < 16 ∧ (ad.length + p) % 16 = 0 ∧ (ct.length + q) % 16 = 0 ∧
      macInput ad ct =
        ad ++ List.replicate p 0 ++ (ct ++ List.replicate q 0) ++ leBytes 8 ad.length ++ leBytes 8 ct.length ∧
      (macInput ad ct).length % 16 = 0 ∧ 16 ≤ (macInput ad ct).length

/-- R190: the comparison loop always takes 16 steps (assumption log 16), and leaves DIFF = 0 exactly when the
tags are equal. -/
def Obligations.ConstantTimeComparison : Prop :=
  ∀ (s : State) (rtag : Bytes), rtag.length = 16 →
    (compareTags rtag s).trace = { s.trace with steps := s.trace.steps + 16 } ∧
    ((compareTags rtag s).engine.diff = 0 ↔ s.engine.etag.toList = rtag)

/-- R144, R166: the published keystream block and the published tag. -/
def Obligations.PublishedVectors : Prop :=
  chachaBlock (Vector.replicate 8 0) (Vector.replicate 3 0) 0 =
    [0x76, 0xb8, 0xe0, 0xad, 0xa0, 0xf1, 0x3d, 0x90, 0x40, 0x5d, 0x6a, 0xe5, 0x53, 0x86, 0xbd, 0x28] ++
    [0xbd, 0xd2, 0x19, 0xb8, 0xa0, 0x8d, 0xed, 0x1a, 0xa8, 0x36, 0xef, 0xcc, 0x8b, 0x77, 0x0d, 0xc7] ++
    [0xda, 0x41, 0x59, 0x7c, 0x51, 0x57, 0x48, 0x8d, 0x77, 0x24, 0xe0, 0x3f, 0xb8, 0xd8, 0x4a, 0x37] ++
    [0x6a, 0x43, 0xb8, 0xf4, 0x15, 0x18, 0xa1, 0x1c, 0xc3, 0x87, 0xb6, 0x69, 0xb2, 0xee, 0x65, 0x86] ∧
  poly1305
      ([0x85, 0xd6, 0xbe, 0x78, 0x57, 0x55, 0x6d, 0x33, 0x7f, 0x44, 0x52, 0xfe, 0x42, 0xd5, 0x06, 0xa8] ++
        [0x01, 0x03, 0x80, 0x8a, 0xfb, 0x0d, 0xb2, 0xfd, 0x4a, 0xbf, 0xf6, 0xaf, 0x41, 0x49, 0xf5, 0x1b])
      ([0x43, 0x72, 0x79, 0x70, 0x74, 0x6f, 0x67, 0x72, 0x61, 0x70, 0x68, 0x69, 0x63, 0x20, 0x46, 0x6f, 0x72] ++
        [0x75, 0x6d, 0x20, 0x52, 0x65, 0x73, 0x65, 0x61, 0x72, 0x63, 0x68, 0x20, 0x47, 0x72, 0x6f, 0x75, 0x70]) =
    [0xa8, 0x06, 0x1d, 0xc1, 0x30, 0x51, 0x36, 0xc6, 0xc2, 0x2b, 0x8b, 0xaf, 0x0c, 0x01, 0x27, 0xa9]

/-! ### The host's WAIT (30_encoding.md) -/

/-- R98, R249: a host that waits reads STATUS until bit 0 reads 0. Each poll is a read of STATUS that shows BUSY; while it shows 1
the host waits on, and once it shows 0 the host goes on to its next move. Between polls the engine has its turn, and on a stuck
engine the host waits for ever. The form of the loop is assumption log 23. -/
def Obligations.WaitPollsUntilIdle : Prop :=
  (∀ (s : State) (n : Nat) (rest : List Move),
    platformRefusal s.platform = none → s.host.moves = .wait (n + 1) :: rest →
      ∃ t, exec (.hostRd .status) { s with host.moves := rest } = .next t ∧ t.rdata.getLsbD 0 = s.status.busy ∧
        t.host.moves = rest ∧
        step s = .next (if s.status.busy = true then { t with host.moves := .wait n :: rest } else t)) ∧
  (∀ (s t : State) (rest : List Move),
    platformRefusal s.platform = none → s.host.moves = .wait 0 :: rest →
      engineTurn { s with host.moves := rest } = .next t → step s = .next { t with host.moves := .wait 1 :: rest }) ∧
  ∀ (s : State) (n : Nat) (rest : List Move),
    platformRefusal s.platform = none → s.host.moves = .wait n :: rest → s.status.busy = true → s.memReq ≠ none →
      ∃ (t : State) (m : Nat), step s = .next t ∧ t.host.moves = .wait m :: rest ∧ t.status = s.status ∧ t.memReq = s.memReq
end

