-- ==== Sys2Proof/Laws/Bytes.lean ====
section
/-! SUPPORT. Byte strings: lengths, the little-endian conversions undo each other, the XOR of a stream undoes itself, and the tag comparison. -/

namespace Sys2Proof.Machine

@[simp] theorem length_leBytes (n v : Nat) : (leBytes n v).length = n := by
  induction n generalizing v with
  | zero => rfl
  | succ n ih => simp [leBytes, ih]

theorem leInt_lt (b : Bytes) : leInt b < 2 ^ (8 * b.length) := by
  induction b with
  | nil => simp [leInt]
  | cons b bs ih =>
    have hb := b.isLt
    simp only [leInt, List.length_cons, Nat.mul_add, Nat.mul_one, Nat.pow_add]
    omega

theorem leInt_leBytes {n v : Nat} (h : v < 2 ^ (8 * n)) : leInt (leBytes n v) = v := by
  induction n generalizing v with
  | zero => simp only [Nat.mul_zero, Nat.pow_zero] at h; simp [leBytes, leInt]; omega
  | succ n ih =>
    have : v / 256 < 2 ^ (8 * n) := by
      rw [Nat.mul_add, Nat.pow_add] at h
      exact Nat.div_lt_of_lt_mul (by omega)
    simp only [leBytes, leInt, ih this, BitVec.toNat_ofNat]
    omega

/-- The bytes of a string's integer are the string. -/
theorem leBytes_leInt (b : Bytes) : leBytes b.length (leInt b) = b := by
  induction b with
  | nil => rfl
  | cons b bs ih =>
    have hb := b.isLt
    have h1 : (b.toNat + 256 * leInt bs) / 256 = leInt bs := by omega
    have h2 : BitVec.ofNat 8 (b.toNat + 256 * leInt bs) = b := by
      apply BitVec.eq_of_toNat_eq; rw [BitVec.toNat_ofNat]; omega
    simp only [List.length_cons, leBytes, leInt, h1, h2, ih]

/-- Byte `i` of a string's integer is byte `i` of the string. -/
theorem extractLsb'_leInt (b : Bytes) {i w : Nat} (hw : 8 * b.length ≤ w) (hi : i < b.length) :
    (BitVec.ofNat w (leInt b)).extractLsb' (8 * i) 8 = b.getD i 0 := by
  induction b generalizing i with
  | nil => simp at hi
  | cons b bs ih =>
    have hlt : leInt (b :: bs) < 2 ^ w := lt_of_lt_of_le (leInt_lt _) (Nat.pow_le_pow_right (by decide) hw)
    simp only [List.length_cons] at hw hi
    have hb := b.isLt
    apply BitVec.eq_of_toNat_eq
    cases i with
    | zero => rw [BitVec.extractLsb'_toNat, BitVec.toNat_ofNat, Nat.mod_eq_of_lt hlt]; simp [leInt]; omega
    | succ i =>
      have := congrArg BitVec.toNat (ih (i := i) (by omega) (by omega))
      have hlt2 : leInt bs < 2 ^ w := lt_of_lt_of_le (leInt_lt _) (Nat.pow_le_pow_right (by decide) (by omega))
      rw [BitVec.extractLsb'_toNat, BitVec.toNat_ofNat, Nat.mod_eq_of_lt hlt2] at this
      rw [BitVec.extractLsb'_toNat, BitVec.toNat_ofNat, Nat.mod_eq_of_lt hlt, List.getD_cons_succ, ← this,
        Nat.shiftRight_eq_div_pow, Nat.shiftRight_eq_div_pow, Nat.mul_succ, Nat.add_comm, Nat.pow_add,
        ← Nat.div_div_eq_div_mul]
      congr 2
      simp only [leInt]; omega

@[simp] theorem length_wordBytes (ws : List Word) : (wordBytes ws).length = 4 * ws.length := by
  induction ws with
  | nil => rfl
  | cons w ws ih => simp only [wordBytes, List.flatMap_cons, List.length_append, length_leBytes, List.length_cons] at ih ⊢; omega

@[simp] theorem length_serialize (x : Block) : (serialize x).length = 64 := by
  simp [serialize]

@[simp] theorem length_chachaBlock (key : Vector Word 8) (nonce : Vector Word 3) (c : Word) :
    (chachaBlock key nonce c).length = 64 := by
  simp [chachaBlock]

@[simp] theorem length_keyBytes (s : State) : (keyBytes s).length = 32 := by
  simp [keyBytes]

@[simp] theorem length_xorBytes (a b : Bytes) : (xorBytes a b).length = min a.length b.length := by
  simp [xorBytes]

@[simp] theorem length_polyFinal (h s : Nat) : (polyFinal h s).length = 16 := by
  simp [polyFinal]

@[simp] theorem length_oneTimeKey (key : Vector Word 8) (nonce : Vector Word 3) : (oneTimeKey key nonce).length = 32 := by
  simp [oneTimeKey]

@[simp] theorem length_aeadTag (key : Vector Word 8) (nonce : Vector Word 3) (ad ct : Bytes) :
    (aeadTag key nonce ad ct).length = 16 := by
  simp [aeadTag, poly1305]

/-- A string that is as long as the vector is the vector's list. -/
theorem toList_bytesVector {n : Nat} {b : Bytes} (h : b.length = n) : (bytesVector n b).toList = b := by
  subst h; simp [bytesVector, Vector.toList]

/-! ### Keystream blocks -/

@[simp] theorem blocksFor_zero : blocksFor 0 = 0 := rfl

theorem blocksFor_pos {n : Nat} (h : 0 < n) : blocksFor n = blocksFor (n - 64) + 1 := by
  simp only [blocksFor, ceilDiv]; omega

theorem length_applyBlocks (key : Vector Word 8) (nonce : Vector Word 3) (c : Word) (m : Bytes) :
    (applyBlocks key nonce (blocksFor m.length) c m).length = m.length := by
  generalize hn : m.length = n
  induction n using Nat.strongRecOn generalizing m c with
  | ind n ih =>
    rcases Nat.eq_zero_or_pos n with h0 | hpos
    · subst h0; simp [applyBlocks]
    · rw [blocksFor_pos hpos, applyBlocks, List.length_append]
      have hd : (m.drop 64).length = n - 64 := by simp [hn]
      have := ih (n - 64) (by omega) (c + 1) (m.drop 64) hd
      rw [this]
      simp only [length_xorBytes, List.length_take, length_chachaBlock, hn]
      omega

@[simp] theorem length_applyStream (key : Vector Word 8) (nonce : Vector Word 3) (c : Word) (m : Bytes) :
    (applyStream key nonce c m).length = m.length :=
  length_applyBlocks key nonce c m

theorem applyStream_nil (key : Vector Word 8) (nonce : Vector Word 3) (c : Word) : applyStream key nonce c [] = [] := rfl

/-- One block of a stream, then the rest from the next counter. -/
theorem applyStream_step (key : Vector Word 8) (nonce : Vector Word 3) (c : Word) {m : Bytes} (h : 0 < m.length) :
    applyStream key nonce c m =
      xorBytes (m.take 64) (chachaBlock key nonce c) ++ applyStream key nonce (c + 1) (m.drop 64) := by
  rw [applyStream, blocksFor_pos h, applyBlocks, applyStream]
  simp

theorem xorBytes_xorBytes {a k : Bytes} (h : a.length ≤ k.length) : xorBytes (xorBytes a k) k = a := by
  induction a generalizing k with
  | nil => simp [xorBytes]
  | cons a as ih =>
    cases k with
    | nil => simp at h
    | cons k ks =>
      simp only [List.length_cons, Nat.add_le_add_iff_right] at h
      have := ih h
      simp only [xorBytes, List.zipWith_cons_cons] at this ⊢
      rw [this, BitVec.xor_assoc, BitVec.xor_self, BitVec.xor_zero]

/-- A stream applied twice restores its input (R142). -/
theorem applyStream_applyStream (key : Vector Word 8) (nonce : Vector Word 3) (c : Word) (m : Bytes) :
    applyStream key nonce c (applyStream key nonce c m) = m := by
  generalize hn : m.length = n
  induction n using Nat.strongRecOn generalizing m c with
  | ind n ih =>
    rcases Nat.eq_zero_or_pos n with h0 | hpos
    · subst h0; rw [List.length_eq_zero_iff.mp hn, applyStream_nil, applyStream_nil]
    · have hm : 0 < m.length := by omega
      have hx : (xorBytes (m.take 64) (chachaBlock key nonce c)).length = min 64 m.length := by simp
      rw [applyStream_step key nonce c (m := applyStream key nonce c m) (by simpa using hm)]
      rw [applyStream_step key nonce c hm]
      rcases Nat.le_total 64 m.length with hl | hl
      · rw [Nat.min_eq_left hl] at hx
        rw [List.take_left' hx, List.drop_left' hx, xorBytes_xorBytes (by simp), ih (n - 64) (by omega) _ _ (by simp [hn]),
          List.take_append_drop]
      · have hd : m.drop 64 = [] := List.drop_of_length_le hl
        have ht : m.take 64 = m := List.take_of_length_le hl
        rw [hd, applyStream_nil, List.append_nil]
        rw [Nat.min_eq_right hl] at hx
        rw [List.take_of_length_le (by omega), List.drop_of_length_le (by omega), applyStream_nil, List.append_nil, ht,
          xorBytes_xorBytes (by simpa using hl)]

/-! ### The comparison (R190) -/

theorem foldl_or_eq_zero {l : Bytes} {d : Byte} : l.foldl (· ||| ·) d = 0 ↔ d = 0 ∧ ∀ x ∈ l, x = 0 := by
  induction l generalizing d with
  | nil => simp
  | cons x l ih =>
    have hor : d ||| x = (0 : Byte) ↔ d = 0 ∧ x = 0 := BitVec.or_eq_zero_iff
    rw [List.foldl_cons, ih, hor]
    simp [and_assoc]

theorem xorBytes_all_zero {a b : Bytes} (h : a.length = b.length) : (∀ x ∈ xorBytes a b, x = 0) ↔ a = b := by
  induction a generalizing b with
  | nil => simp [xorBytes, List.length_eq_zero_iff.mp h.symm]
  | cons a as ih =>
    cases b with
    | nil => simp at h
    | cons b bs =>
      have := ih (b := bs) (by simpa using h)
      have hxor : a ^^^ b = (0 : Byte) ↔ a = b := BitVec.xor_eq_zero_iff
      simp only [xorBytes, List.zipWith_cons_cons, List.mem_cons, forall_eq_or_imp, List.cons.injEq] at this ⊢
      rw [this, hxor]

/-- The accumulated difference is zero exactly when the tags are equal. -/
theorem tagDiff_eq_zero {e r : Bytes} (h : e.length = r.length) : tagDiff e r = 0 ↔ e = r := by
  rw [tagDiff, foldl_or_eq_zero, xorBytes_all_zero h]; simp

end Sys2Proof.Machine
end

