-- ==== Sys2Proof/Laws/State.lean ====
section
/-! SUPPORT. What every named update of the state does to each field: one simp theorem per update, true by rfl. -/

namespace Sys2Proof.Machine

@[simp] theorem tick_fields (s : State) :
    (tick s).platform = s.platform ∧ (tick s).regs = s.regs ∧ (tick s).status = s.status ∧
    (tick s).engine = s.engine ∧ (tick s).curOp = s.curOp ∧ (tick s).rdata = s.rdata ∧ (tick s).memReq = s.memReq ∧
    (tick s).mem = s.mem ∧ (tick s).bus = s.bus ∧ (tick s).host = s.host ∧ (tick s).draws = s.draws ∧
    (tick s).trace.portLog = s.trace.portLog ∧ (tick s).trace.steps = s.trace.steps + 1 :=
  ⟨rfl, rfl, rfl, rfl, rfl, rfl, rfl, rfl, rfl, rfl, rfl, rfl, rfl⟩

@[simp] theorem clearFlags_fields (d : Word) (s : State) :
    (clearFlags d s).platform = s.platform ∧ (clearFlags d s).regs = s.regs ∧ (clearFlags d s).engine = s.engine ∧
    (clearFlags d s).curOp = s.curOp ∧ (clearFlags d s).rdata = s.rdata ∧ (clearFlags d s).memReq = s.memReq ∧
    (clearFlags d s).mem = s.mem ∧ (clearFlags d s).bus = s.bus ∧ (clearFlags d s).host = s.host ∧
    (clearFlags d s).trace = s.trace ∧ (clearFlags d s).draws = s.draws ∧
    (clearFlags d s).status.busy = s.status.busy ∧ (clearFlags d s).status.err = s.status.err ∧
    (clearFlags d s).status.sub = s.status.sub ∧ (clearFlags d s).status.phase = s.status.phase ∧
    (clearFlags d s).status.done = (s.status.done && !d.getLsbD 1) ∧
    (clearFlags d s).status.wdrop = (s.status.wdrop && !d.getLsbD 2) :=
  ⟨rfl, rfl, rfl, rfl, rfl, rfl, rfl, rfl, rfl, rfl, rfl, rfl, rfl, rfl, rfl, rfl, rfl⟩

@[simp] theorem zeroizeOnCompletion_fields (s : State) :
    (zeroizeOnCompletion s).platform = s.platform ∧ (zeroizeOnCompletion s).status = s.status ∧
    (zeroizeOnCompletion s).curOp = s.curOp ∧ (zeroizeOnCompletion s).rdata = s.rdata ∧
    (zeroizeOnCompletion s).memReq = s.memReq ∧ (zeroizeOnCompletion s).mem = s.mem ∧
    (zeroizeOnCompletion s).bus = s.bus ∧ (zeroizeOnCompletion s).host = s.host ∧
    (zeroizeOnCompletion s).trace = s.trace ∧ (zeroizeOnCompletion s).draws = s.draws ∧
    (zeroizeOnCompletion s).engine = Engine.zero ∧ (zeroizeOnCompletion s).regs.key = Vector.replicate 8 0 ∧
    (zeroizeOnCompletion s).regs.kmask = 0 ∧ (zeroizeOnCompletion s).regs.ie = s.regs.ie ∧
    (zeroizeOnCompletion s).regs.nmask = s.regs.nmask ∧ (zeroizeOnCompletion s).regs.nonce = s.regs.nonce ∧
    (zeroizeOnCompletion s).regs.ctr = s.regs.ctr ∧ (zeroizeOnCompletion s).regs.src = s.regs.src ∧
    (zeroizeOnCompletion s).regs.dst = s.regs.dst ∧ (zeroizeOnCompletion s).regs.ad = s.regs.ad ∧
    (zeroizeOnCompletion s).regs.len = s.regs.len ∧ (zeroizeOnCompletion s).regs.adlen = s.regs.adlen :=
  ⟨rfl, rfl, rfl, rfl, rfl, rfl, rfl, rfl, rfl, rfl, rfl, rfl, rfl, rfl, rfl, rfl, rfl, rfl, rfl, rfl, rfl, rfl⟩

@[simp] theorem completeCommand_fields (c : Cause) (s : State) :
    (completeCommand c s).platform = s.platform ∧ (completeCommand c s).curOp = s.curOp ∧
    (completeCommand c s).rdata = s.rdata ∧ (completeCommand c s).memReq = s.memReq ∧
    (completeCommand c s).mem = s.mem ∧ (completeCommand c s).bus = s.bus ∧ (completeCommand c s).host = s.host ∧
    (completeCommand c s).trace = s.trace ∧ (completeCommand c s).draws = s.draws ∧
    (completeCommand c s).engine = Engine.zero ∧ (completeCommand c s).regs.key = Vector.replicate 8 0 ∧
    (completeCommand c s).regs.kmask = 0 ∧ (completeCommand c s).regs.ie = s.regs.ie ∧
    (completeCommand c s).regs.nmask = s.regs.nmask ∧ (completeCommand c s).regs.nonce = s.regs.nonce ∧
    (completeCommand c s).regs.ctr = s.regs.ctr ∧ (completeCommand c s).regs.src = s.regs.src ∧
    (completeCommand c s).regs.dst = s.regs.dst ∧ (completeCommand c s).regs.ad = s.regs.ad ∧
    (completeCommand c s).regs.len = s.regs.len ∧ (completeCommand c s).regs.adlen = s.regs.adlen ∧
    (completeCommand c s).status.busy = false ∧ (completeCommand c s).status.done = true ∧
    (completeCommand c s).status.wdrop = s.status.wdrop ∧ (completeCommand c s).status.err = c.errCode ∧
    (completeCommand c s).status.sub = c.subCode ∧ (completeCommand c s).status.phase = s.status.phase :=
  ⟨rfl, rfl, rfl, rfl, rfl, rfl, rfl, rfl, rfl, rfl, rfl, rfl, rfl, rfl, rfl, rfl, rfl, rfl, rfl, rfl, rfl, rfl, rfl, rfl, rfl, rfl, rfl⟩

@[simp] theorem acknowledge_fields (s : State) :
    (acknowledge s).platform = s.platform ∧ (acknowledge s).regs = s.regs ∧ (acknowledge s).engine = s.engine ∧
    (acknowledge s).curOp = s.curOp ∧ (acknowledge s).rdata = s.rdata ∧ (acknowledge s).memReq = s.memReq ∧
    (acknowledge s).mem = s.mem ∧ (acknowledge s).bus = s.bus ∧ (acknowledge s).host = s.host ∧
    (acknowledge s).trace = s.trace ∧ (acknowledge s).draws = s.draws ∧
    (acknowledge s).status.done = (s.status.done && false) ∧
    (acknowledge s).status.wdrop = (s.status.wdrop && true) ∧ (acknowledge s).status.busy = s.status.busy ∧
    (acknowledge s).status.err = s.status.err ∧ (acknowledge s).status.sub = s.status.sub ∧
    (acknowledge s).status.phase = s.status.phase :=
  ⟨rfl, rfl, rfl, rfl, rfl, rfl, rfl, rfl, rfl, rfl, rfl, rfl, rfl, rfl, rfl, rfl, rfl⟩

@[simp] theorem accept_fields (w : Word) (s : State) :
    (accept w s).platform = s.platform ∧ (accept w s).regs = s.regs ∧ (accept w s).engine = s.engine ∧
    (accept w s).rdata = s.rdata ∧ (accept w s).memReq = s.memReq ∧ (accept w s).mem = s.mem ∧
    (accept w s).bus = s.bus ∧ (accept w s).host = s.host ∧ (accept w s).draws = s.draws ∧ (accept w s).curOp = w ∧
    (accept w s).status.busy = true ∧ (accept w s).status.done = false ∧ (accept w s).status.wdrop = s.status.wdrop ∧
    (accept w s).status.err = 0 ∧ (accept w s).status.sub = 0 ∧ (accept w s).status.phase = .init ∧
    (accept w s).trace = { portLog := [], steps := 0 } :=
  ⟨rfl, rfl, rfl, rfl, rfl, rfl, rfl, rfl, rfl, rfl, rfl, rfl, rfl, rfl, rfl, rfl, rfl⟩

@[simp] theorem resetHardware_fields (s : State) :
    (resetHardware s).platform = s.platform ∧ (resetHardware s).mem = s.mem ∧ (resetHardware s).bus = s.bus ∧
    (resetHardware s).host = s.host ∧ (resetHardware s).draws = s.draws ∧ (resetHardware s).regs = Regs.zero ∧
    (resetHardware s).status = Status.zero ∧ (resetHardware s).engine = Engine.zero ∧ (resetHardware s).curOp = 0 ∧
    (resetHardware s).rdata = 0 ∧ (resetHardware s).memReq = none ∧
    (resetHardware s).trace = { portLog := [], steps := 0 } :=
  ⟨rfl, rfl, rfl, rfl, rfl, rfl, rfl, rfl, rfl, rfl, rfl, rfl⟩

@[simp] theorem initState_fields (s : State) :
    (initState s).platform = s.platform ∧ (initState s).regs = s.regs ∧ (initState s).status = s.status ∧
    (initState s).curOp = s.curOp ∧ (initState s).rdata = s.rdata ∧ (initState s).memReq = s.memReq ∧
    (initState s).mem = s.mem ∧ (initState s).bus = s.bus ∧ (initState s).host = s.host ∧
    (initState s).draws = s.draws ∧ (initState s).engine.x = initWords s.regs.key s.regs.nonce s.engine.bc ∧
    (initState s).engine.s0 = initWords s.regs.key s.regs.nonce s.engine.bc ∧ (initState s).engine.rc = 0 ∧
    (initState s).trace.portLog = s.trace.portLog ∧ (initState s).trace.steps = s.trace.steps + 1 :=
  ⟨rfl, rfl, rfl, rfl, rfl, rfl, rfl, rfl, rfl, rfl, rfl, rfl, rfl, rfl, rfl⟩

@[simp] theorem columnRound_fields (s : State) :
    (columnRound s).platform = s.platform ∧ (columnRound s).regs = s.regs ∧ (columnRound s).status = s.status ∧
    (columnRound s).curOp = s.curOp ∧ (columnRound s).rdata = s.rdata ∧ (columnRound s).memReq = s.memReq ∧
    (columnRound s).mem = s.mem ∧ (columnRound s).bus = s.bus ∧ (columnRound s).host = s.host ∧
    (columnRound s).draws = s.draws ∧ (columnRound s).engine.x = columnWords s.engine.x ∧
    (columnRound s).engine.s0 = s.engine.s0 ∧ (columnRound s).engine.rc = s.engine.rc + 1 ∧
    (columnRound s).trace.portLog = s.trace.portLog ∧ (columnRound s).trace.steps = s.trace.steps + 1 :=
  ⟨rfl, rfl, rfl, rfl, rfl, rfl, rfl, rfl, rfl, rfl, rfl, rfl, rfl, rfl, rfl⟩

@[simp] theorem diagonalRound_fields (s : State) :
    (diagonalRound s).platform = s.platform ∧ (diagonalRound s).regs = s.regs ∧ (diagonalRound s).status = s.status ∧
    (diagonalRound s).curOp = s.curOp ∧ (diagonalRound s).rdata = s.rdata ∧ (diagonalRound s).memReq = s.memReq ∧
    (diagonalRound s).mem = s.mem ∧ (diagonalRound s).bus = s.bus ∧ (diagonalRound s).host = s.host ∧
    (diagonalRound s).draws = s.draws ∧ (diagonalRound s).engine.x = diagonalWords s.engine.x ∧
    (diagonalRound s).engine.s0 = s.engine.s0 ∧ (diagonalRound s).engine.rc = s.engine.rc + 1 ∧
    (diagonalRound s).trace.portLog = s.trace.portLog ∧ (diagonalRound s).trace.steps = s.trace.steps + 1 :=
  ⟨rfl, rfl, rfl, rfl, rfl, rfl, rfl, rfl, rfl, rfl, rfl, rfl, rfl, rfl, rfl⟩

@[simp] theorem feedForward_fields (s : State) :
    (feedForward s).platform = s.platform ∧ (feedForward s).regs = s.regs ∧ (feedForward s).status = s.status ∧
    (feedForward s).curOp = s.curOp ∧ (feedForward s).rdata = s.rdata ∧ (feedForward s).memReq = s.memReq ∧
    (feedForward s).mem = s.mem ∧ (feedForward s).bus = s.bus ∧ (feedForward s).host = s.host ∧
    (feedForward s).draws = s.draws ∧ (feedForward s).engine.x = addWords s.engine.x s.engine.s0 ∧
    (feedForward s).engine.s0 = s.engine.s0 ∧ (feedForward s).engine.rc = s.engine.rc ∧
    (feedForward s).trace.portLog = s.trace.portLog ∧ (feedForward s).trace.steps = s.trace.steps + 1 :=
  ⟨rfl, rfl, rfl, rfl, rfl, rfl, rfl, rfl, rfl, rfl, rfl, rfl, rfl, rfl, rfl⟩

@[simp] theorem setPolyKey_fields (k : Bytes) (s : State) :
    (setPolyKey k s).platform = s.platform ∧ (setPolyKey k s).regs = s.regs ∧ (setPolyKey k s).status = s.status ∧
    (setPolyKey k s).curOp = s.curOp ∧ (setPolyKey k s).rdata = s.rdata ∧ (setPolyKey k s).memReq = s.memReq ∧
    (setPolyKey k s).mem = s.mem ∧ (setPolyKey k s).bus = s.bus ∧ (setPolyKey k s).host = s.host ∧
    (setPolyKey k s).draws = s.draws ∧ (setPolyKey k s).engine.pr = clampedR k ∧
    (setPolyKey k s).engine.ps = additiveS k ∧ (setPolyKey k s).engine.h = 0 ∧
    (setPolyKey k s).trace.portLog = s.trace.portLog ∧ (setPolyKey k s).trace.steps = s.trace.steps + 1 :=
  ⟨rfl, rfl, rfl, rfl, rfl, rfl, rfl, rfl, rfl, rfl, rfl, rfl, rfl, rfl, rfl⟩

@[simp] theorem absorb_fields (s : State) (b : Bytes) :
    (absorb s b).platform = s.platform ∧ (absorb s b).regs = s.regs ∧ (absorb s b).status = s.status ∧
    (absorb s b).curOp = s.curOp ∧ (absorb s b).rdata = s.rdata ∧ (absorb s b).memReq = s.memReq ∧
    (absorb s b).mem = s.mem ∧ (absorb s b).bus = s.bus ∧ (absorb s b).host = s.host ∧ (absorb s b).draws = s.draws ∧
    (absorb s b).engine.pr = s.engine.pr ∧ (absorb s b).engine.ps = s.engine.ps ∧
    (absorb s b).engine.h = absorbValue s.engine.pr.toNat s.engine.h b ∧
    (absorb s b).trace.portLog = s.trace.portLog ∧ (absorb s b).trace.steps = s.trace.steps + 1 :=
  ⟨rfl, rfl, rfl, rfl, rfl, rfl, rfl, rfl, rfl, rfl, rfl, rfl, rfl, rfl, rfl⟩

@[simp] theorem compareByte_fields (s : State) (p : Byte × Byte) :
    (compareByte s p).platform = s.platform ∧ (compareByte s p).regs = s.regs ∧ (compareByte s p).status = s.status ∧
    (compareByte s p).curOp = s.curOp ∧ (compareByte s p).rdata = s.rdata ∧ (compareByte s p).memReq = s.memReq ∧
    (compareByte s p).mem = s.mem ∧ (compareByte s p).bus = s.bus ∧ (compareByte s p).host = s.host ∧
    (compareByte s p).draws = s.draws ∧ (compareByte s p).engine.diff = s.engine.diff ||| (p.1 ^^^ p.2) ∧
    (compareByte s p).engine.etag = s.engine.etag ∧ (compareByte s p).trace.portLog = s.trace.portLog ∧
    (compareByte s p).trace.steps = s.trace.steps + 1 :=
  ⟨rfl, rfl, rfl, rfl, rfl, rfl, rfl, rfl, rfl, rfl, rfl, rfl, rfl, rfl⟩

@[simp] theorem afterAccesses_fields (tr : List MemAccess) (k : Nat) (s : State) :
    (afterAccesses tr k s).platform = s.platform ∧ (afterAccesses tr k s).regs = s.regs ∧
    (afterAccesses tr k s).status = s.status ∧ (afterAccesses tr k s).engine = s.engine ∧
    (afterAccesses tr k s).curOp = s.curOp ∧ (afterAccesses tr k s).rdata = s.rdata ∧
    (afterAccesses tr k s).memReq = s.memReq ∧ (afterAccesses tr k s).mem = s.mem ∧
    (afterAccesses tr k s).host = s.host ∧ (afterAccesses tr k s).draws = s.draws ∧
    (afterAccesses tr k s).bus = s.bus.drop tr.length ∧
    (afterAccesses tr k s).trace.portLog = tr.reverse ++ s.trace.portLog ∧
    (afterAccesses tr k s).trace.steps = s.trace.steps + (tr.length + k) :=
  ⟨rfl, rfl, rfl, rfl, rfl, rfl, rfl, rfl, rfl, rfl, rfl, rfl, rfl⟩

@[simp] theorem placeTransaction_fields (t : BitVec 40) (s : State) :
    (placeTransaction t s).platform = s.platform ∧ (placeTransaction t s).regs = s.regs ∧
    (placeTransaction t s).status = s.status ∧ (placeTransaction t s).engine = s.engine ∧
    (placeTransaction t s).curOp = s.curOp ∧ (placeTransaction t s).rdata = s.rdata ∧
    (placeTransaction t s).memReq = s.memReq ∧ (placeTransaction t s).mem = s.mem ∧
    (placeTransaction t s).bus = s.bus ∧ (placeTransaction t s).trace = s.trace ∧
    (placeTransaction t s).draws = s.draws ∧ (placeTransaction t s).host.moves = .xact t :: s.host.moves ∧
    (placeTransaction t s).host.posted = s.host.posted ∧ (placeTransaction t s).host.hostByte = s.host.hostByte :=
  ⟨rfl, rfl, rfl, rfl, rfl, rfl, rfl, rfl, rfl, rfl, rfl, rfl, rfl, rfl⟩

@[simp] theorem placeCommand_fields (w : Word) (s : State) :
    (placeCommand w s).platform = s.platform ∧ (placeCommand w s).regs = s.regs ∧
    (placeCommand w s).engine = s.engine ∧ (placeCommand w s).rdata = s.rdata ∧ (placeCommand w s).mem = s.mem ∧
    (placeCommand w s).bus = s.bus ∧ (placeCommand w s).draws = s.draws ∧ (placeCommand w s).curOp = w ∧
    (placeCommand w s).status.busy = true ∧ (placeCommand w s).status.done = false ∧
    (placeCommand w s).status.wdrop = s.status.wdrop ∧ (placeCommand w s).status.err = 0 ∧
    (placeCommand w s).status.sub = 0 ∧ (placeCommand w s).status.phase = .init ∧ (placeCommand w s).memReq = none ∧
    (placeCommand w s).trace = { portLog := [], steps := 0 } ∧
    (placeCommand w s).host.moves = .engine :: s.host.moves ∧ (placeCommand w s).host.posted = s.host.posted :=
  ⟨rfl, rfl, rfl, rfl, rfl, rfl, rfl, rfl, rfl, rfl, rfl, rfl, rfl, rfl, rfl, rfl, rfl, rfl⟩

/-- A host that goes on waiting has one move more before it, and nothing else has changed. -/
@[simp] theorem keepWaiting_fields (n : Nat) (s : State) :
    (keepWaiting n s).platform = s.platform ∧ (keepWaiting n s).regs = s.regs ∧ (keepWaiting n s).status = s.status ∧
    (keepWaiting n s).engine = s.engine ∧ (keepWaiting n s).curOp = s.curOp ∧ (keepWaiting n s).rdata = s.rdata ∧
    (keepWaiting n s).memReq = s.memReq ∧ (keepWaiting n s).mem = s.mem ∧ (keepWaiting n s).bus = s.bus ∧
    (keepWaiting n s).trace = s.trace ∧ (keepWaiting n s).draws = s.draws ∧
    (keepWaiting n s).host.moves = .wait n :: s.host.moves ∧ (keepWaiting n s).host.posted = s.host.posted ∧
    (keepWaiting n s).host.hostByte = s.host.hostByte :=
  ⟨rfl, rfl, rfl, rfl, rfl, rfl, rfl, rfl, rfl, rfl, rfl, rfl, rfl, rfl⟩

/-- Writing a half of a register pair changes that pair only. -/
@[simp] theorem setPair_fields (v : Pair64) (p : Pair) (s : State) :
    (s.setPair v p).platform = s.platform ∧ (s.setPair v p).status = s.status ∧ (s.setPair v p).engine = s.engine ∧
      (s.setPair v p).curOp = s.curOp ∧ (s.setPair v p).rdata = s.rdata ∧ (s.setPair v p).memReq = s.memReq ∧
      (s.setPair v p).mem = s.mem ∧ (s.setPair v p).bus = s.bus ∧ (s.setPair v p).host = s.host ∧
      (s.setPair v p).trace = s.trace ∧ (s.setPair v p).draws = s.draws ∧ (s.setPair v p).regs.ie = s.regs.ie ∧
      (s.setPair v p).regs.kmask = s.regs.kmask ∧ (s.setPair v p).regs.nmask = s.regs.nmask ∧
      (s.setPair v p).regs.key = s.regs.key ∧ (s.setPair v p).regs.nonce = s.regs.nonce ∧
      (s.setPair v p).regs.ctr = s.regs.ctr := by
  cases p <;> exact ⟨rfl, rfl, rfl, rfl, rfl, rfl, rfl, rfl, rfl, rfl, rfl, rfl, rfl, rfl, rfl, rfl, rfl⟩

theorem pair_setPair (v : Pair64) (p q : Pair) (s : State) : (s.setPair v p).pair q = if q = p then v else s.pair q := by
  cases p <;> cases q <;> rfl

@[simp] theorem pair64_get_set_same (p : Pair64) (h : Half) (d : Word) : (p.set h d).get h = d := by
  cases h <;> rfl

/-- A completion leaves the internal state zero whatever it was. -/
@[simp] theorem completeCommand_engine (c : Cause) (s : State) (e : Engine) :
    completeCommand c { s with engine := e } = completeCommand c s := rfl

end Sys2Proof.Machine
end

