-- ==== Sys2Proof/Laws/Port.lean ====
section
/-! SUPPORT. The register port and the two encodings: bits of the status and mask words, register indices, fields of a transaction word, command words. -/

namespace Sys2Proof.Machine

/-! ### Words of fields -/

theorem getLsbD_bitAt (b : Bool) (n : Nat) {k : Nat} (hk : k < 32) : (bitAt b n).getLsbD k = (decide (k = n) && b) := by
  simp only [bitAt, BitVec.getLsbD_shiftLeft, BitVec.getLsbD_setWidth, BitVec.getLsbD_ofBool]
  by_cases h : k = n <;> by_cases h2 : k < n <;> simp [h, h2, hk] <;> omega

/-- The bits of the status word (R26). -/
theorem getLsbD_statusWord (s : State) (p : Phase) {k : Nat} (hk : k < 32) :
    (statusWord s p).getLsbD k =
      (decide (k = 0) && s.status.busy || decide (k = 1) && s.status.done || decide (k = 2) && s.status.wdrop
        || decide (k = 3) && irq s || (decide (4 ≤ k) && s.status.err.getLsbD (k - 4))
        || (decide (8 ≤ k) && s.status.sub.getLsbD (k - 8)) || (decide (12 ≤ k) && p.code.getLsbD (k - 12))) := by
  simp only [statusWord, BitVec.getLsbD_or, getLsbD_bitAt _ _ hk, BitVec.getLsbD_shiftLeft, BitVec.getLsbD_setWidth]
  have e1 : k - 4 < 32 := by omega
  have e2 : k - 8 < 32 := by omega
  have e3 : k - 12 < 32 := by omega
  simp only [hk, e1, e2, e3, decide_true, Bool.true_and, Nat.not_lt.symm, decide_not]

/-- The bits of KEYSET (R36). -/
theorem getLsbD_keysetWord (s : State) {k : Nat} (hk : k < 32) :
    (keysetWord s).getLsbD k = (s.regs.kmask.getLsbD k || (decide (8 ≤ k) && s.regs.nmask.getLsbD (k - 8))) := by
  simp only [keysetWord, BitVec.getLsbD_or, BitVec.getLsbD_shiftLeft, BitVec.getLsbD_setWidth]
  have e : k - 8 < 32 := by omega
  simp only [hk, e, decide_true, Bool.true_and, Nat.not_lt.symm, decide_not]

theorem getLsbD_keyMark (m : BitVec 8) (i : Fin 8) (j : Nat) :
    (keyMark m i).getLsbD j = (decide (j = i.val) || m.getLsbD j) := by
  have hi := i.isLt
  simp only [keyMark, BitVec.getLsbD_or, BitVec.getLsbD_shiftLeft]
  by_cases h : j = i.val
  · subst h; simp [hi]
  · by_cases h2 : j < i.val
    · simp [h, h2]
    · have : j - i.val ≠ 0 := by omega
      simp [h, h2, this, BitVec.getLsbD_one]

theorem getLsbD_nonceMark (m : BitVec 3) (i : Fin 3) (j : Nat) :
    (nonceMark m i).getLsbD j = (decide (j = i.val) || m.getLsbD j) := by
  have hi := i.isLt
  simp only [nonceMark, BitVec.getLsbD_or, BitVec.getLsbD_shiftLeft]
  by_cases h : j = i.val
  · subst h; simp [hi]
  · by_cases h2 : j < i.val
    · simp [h, h2]
    · have : j - i.val ≠ 0 := by omega
      simp [h, h2, this, BitVec.getLsbD_one]

end Sys2Proof.Machine

namespace Sys2Proof

/-! ### Register indices (R23) -/

theorem regOfIndex_reserved {n : Nat} (h : reservedIndex n = true) : regOfIndex n = .reserved n := by
  simp only [reservedIndex, Bool.or_eq_true, Bool.and_eq_true, decide_eq_true_eq] at h
  rcases h with h | h
  · obtain ⟨h1, h2⟩ := h; interval_cases n <;> rfl
  · obtain ⟨h1, h2⟩ := h; interval_cases n <;> rfl

/-- An index names a well-formed register whose index it is. -/
theorem index_regOfIndex {n : Nat} (h : n < 64) : (regOfIndex n).wellFormed = true ∧ (regOfIndex n).index = n := by
  interval_cases n <;> exact ⟨rfl, rfl⟩

/-- A well-formed register is the register at its index. -/
theorem regOfIndex_index {r : Reg} (h : r.wellFormed = true) : regOfIndex r.index = r ∧ r.index < 64 := by
  cases r with
  | key i => revert i; decide
  | nonce i => revert i; decide
  | half p w => cases p <;> cases w <;> decide
  | reserved n =>
    refine ⟨regOfIndex_reserved h, ?_⟩
    simp only [Reg.wellFormed, reservedIndex, Bool.or_eq_true, Bool.and_eq_true, decide_eq_true_eq] at h
    show n < 64
    omega
  | id => decide
  | ctrl => decide
  | status => decide
  | cmd => decide
  | keyset => decide
  | ctr => decide

/-! ### Transaction words (R95) -/

theorem hostWord_type (y : BitVec 2) (n : Nat) (d : Word) : (hostWord y n d).extractLsb' 38 2 = y := by
  apply BitVec.eq_of_getLsbD_eq; intro i hi
  simp only [hostWord, BitVec.getLsbD_extractLsb', BitVec.getLsbD_append, hi, decide_true, Bool.true_and]
  have e1 : ¬(38 + i < 32) := by omega
  have e2 : ¬(38 + i - 32 < 6) := by omega
  have e3 : 38 + i - 32 - 6 = i := by omega
  simp only [e1, e2, e3, if_false]

theorem hostWord_index (y : BitVec 2) {n : Nat} (d : Word) (h : n < 64) : ((hostWord y n d).extractLsb' 32 6).toNat = n := by
  have : (hostWord y n d).extractLsb' 32 6 = BitVec.ofNat 6 n := by
    apply BitVec.eq_of_getLsbD_eq; intro i hi
    simp only [hostWord, BitVec.getLsbD_extractLsb', BitVec.getLsbD_append, hi, decide_true, Bool.true_and]
    have e1 : ¬(32 + i < 32) := by omega
    have e3 : 32 + i - 32 = i := by omega
    simp only [e1, e3, hi, if_false, if_true]
  rw [this, BitVec.toNat_ofNat]
  exact Nat.mod_eq_of_lt h

theorem hostWord_data (y : BitVec 2) (n : Nat) (d : Word) : (hostWord y n d).extractLsb' 0 32 = d := by
  apply BitVec.eq_of_getLsbD_eq; intro i hi
  simp only [hostWord, BitVec.getLsbD_extractLsb', BitVec.getLsbD_append, hi, decide_true, Bool.true_and, Nat.zero_add, if_true]

/-- A transaction word is made of its three fields. -/
theorem hostWord_fields (t : BitVec 40) :
    hostWord (t.extractLsb' 38 2) (t.extractLsb' 32 6).toNat (t.extractLsb' 0 32) = t := by
  apply BitVec.eq_of_getLsbD_eq; intro i hi
  simp only [hostWord, BitVec.getLsbD_append, BitVec.getLsbD_extractLsb', BitVec.ofNat_toNat, BitVec.setWidth_eq]
  by_cases h1 : i < 32
  · simp [h1]
  · by_cases h2 : i - 32 < 6
    · have : 32 + (i - 32) = i := by omega
      simp [h1, h2, this]
    · have : 38 + (i - 32 - 6) = i := by omega
      have h3 : i - 32 - 6 < 2 := by omega
      simp [h1, h2, h3, this]

/-! ### Command words (R90) -/

theorem opcode_toNat (w : BitVec 32) : (w.extractLsb' 0 4).toNat = w.toNat % 16 := by
  simp [BitVec.extractLsb'_toNat]

theorem reservedBits_toNat (w : BitVec 32) : w.extractLsb' 4 28 ≠ 0 ↔ w.toNat / 16 ≠ 0 := by
  have hw := w.isLt
  have h : (w.extractLsb' 4 28).toNat = w.toNat / 16 := by
    rw [BitVec.extractLsb'_toNat, Nat.shiftRight_eq_div_pow, Nat.mod_eq_of_lt (by omega)]
  rw [← h, Ne, Ne, ← BitVec.toNat_inj]
  rfl

/-- The decoder on a command word, by its value. -/
theorem decodeCommand_eq (w : BitVec 32) :
    decodeCommand w =
      if w.toNat % 16 = 0 ∨ 7 ≤ w.toNat % 16 then .error .reservedOpcode
      else if w.toNat / 16 ≠ 0 then .error .reservedBits
      else
        match w.toNat % 16 with
        | 1 => .ok .chachaBlock
        | 2 => .ok .chachaApply
        | 3 => .ok .poly1305Tag
        | 4 => .ok .aeadEncrypt
        | 5 => .ok .aeadDecrypt
        | 6 => .ok .zeroize
        | _ => .error .reservedOpcode := by
  unfold decodeCommand
  rw [opcode_toNat]
  exact if_congr Iff.rfl rfl (if_congr (reservedBits_toNat w) rfl rfl)

/-- A command word that decodes is the word of the command, and no host transaction is a command word. -/
theorem decodeCommand_ok {w : BitVec 32} {i : Instr} (h : decodeCommand w = .ok i) :
    encode i = .cmd32 w ∧ i.wellFormed = true ∧ w.toNat / 16 = 0 ∧ 1 ≤ w.toNat % 16 ∧ w.toNat % 16 ≤ 6 := by
  rw [decodeCommand_eq] at h
  split at h
  · cases h
  split at h
  · cases h
  rename_i h1 h2
  have hw : w.toNat = w.toNat % 16 := by omega
  have hk : ∀ k, w.toNat % 16 = k → k < 16 → w = BitVec.ofNat 32 k := by
    intro k e hk
    apply BitVec.eq_of_toNat_eq
    rw [BitVec.toNat_ofNat, hw, e, Nat.mod_eq_of_lt (by omega)]
  split at h <;> first
    | (rename_i e; injection h with h; subst h; refine ⟨?_, rfl, by omega, by omega, by omega⟩; rw [hk _ e (by omega)]; rfl)
    | cases h

end Sys2Proof
end

