-- ==== Sys2Proof/Laws/Memory.lean ====
section
/-! SUPPORT. Memory as data: what a read after a write gives, and that every memory operation keeps the canonical form. -/

namespace Sys2Proof.Machine

variable {m : Memory} {a b k n lo : Nat} {v : Byte}

theorem Memory.wfFrom_mono (h : Memory.wfFrom k m = true) (hl : lo ≤ k) : Memory.wfFrom lo m = true := by
  cases m with
  | nil => rfl
  | cons c m => simp only [Memory.wfFrom, Bool.and_eq_true, decide_eq_true_eq] at h ⊢; exact ⟨⟨by omega, h.1.2⟩, h.2⟩

/-- Below its first address a canonical memory lists nothing. -/
theorem Memory.read_below (h : Memory.wfFrom k m = true) (ha : a < k) : m.read a = Config.unlistedByte := by
  induction m generalizing k with
  | nil => rfl
  | cons c m ih =>
    simp only [Memory.wfFrom, Bool.and_eq_true, decide_eq_true_eq] at h
    rw [Memory.read, if_neg (by omega)]
    exact ih h.2 (by omega)

theorem Memory.read_write_from (h : Memory.wfFrom lo m = true) :
    (m.write a v).read b = if b = a then v else m.read b := by
  induction m generalizing lo with
  | nil =>
    by_cases hv : v = Config.unlistedByte <;> by_cases hb : b = a <;> simp [Memory.write, Memory.read, hv, hb]
    exact fun h => absurd h.symm hb
  | cons c m ih =>
    obtain ⟨k, c⟩ := c
    simp only [Memory.wfFrom, Bool.and_eq_true, decide_eq_true_eq] at h
    have hk : Memory.read m k = Config.unlistedByte := Memory.read_below h.2 (by omega)
    rw [Memory.write]
    split
    · rename_i hak
      have hlow : Memory.read m a = Config.unlistedByte := Memory.read_below h.2 (by omega)
      split
      · rename_i hv
        by_cases hb : b = a
        · subst hb; rw [if_pos rfl, hv, Memory.read, if_neg (by omega), hlow]
        · rw [if_neg hb]
      · by_cases hb : b = a
        · subst hb; simp [Memory.read]
        · rw [if_neg hb, Memory.read, if_neg (fun h => hb h.symm)]
    · split
      · rename_i hak
        subst hak
        split
        · rename_i hv
          by_cases hb : b = a
          · subst hb; rw [if_pos rfl, hv, hk]
          · rw [if_neg hb, Memory.read, if_neg (fun h => hb h.symm)]
        · by_cases hb : b = a
          · subst hb; simp [Memory.read]
          · have hb' : ¬ a = b := fun h => hb h.symm
            simp [Memory.read, hb, hb']
      · by_cases hkb : k = b
        · subst hkb
          have : ¬ k = a := fun e => by omega
          simp [Memory.read, this]
        · rw [Memory.read, if_neg hkb, Memory.read, if_neg hkb, ih h.2]

/-- A read after a write gives the byte written at the same address and what was there at every other. -/
theorem Memory.read_write (h : m.wf = true) : (m.write a v).read b = if b = a then v else m.read b :=
  Memory.read_write_from h

theorem Memory.wfFrom_write (h : Memory.wfFrom lo m = true) (hl : lo ≤ a) : Memory.wfFrom lo (m.write a v) = true := by
  induction m generalizing lo with
  | nil => by_cases hv : v = Config.unlistedByte <;> simp [Memory.write, Memory.wfFrom, hv, hl]
  | cons c m ih =>
    obtain ⟨k, c⟩ := c
    have h' := h
    simp only [Memory.wfFrom, Bool.and_eq_true, decide_eq_true_eq] at h
    rw [Memory.write]
    split
    · split
      · exact h'
      · simp only [Memory.wfFrom, Bool.and_eq_true, decide_eq_true_eq]
        exact ⟨⟨hl, ‹_›⟩, ⟨by omega, h.1.2⟩, h.2⟩
    · split
      · split
        · exact Memory.wfFrom_mono h.2 (by omega)
        · simp only [Memory.wfFrom, Bool.and_eq_true, decide_eq_true_eq]
          exact ⟨⟨h.1.1, ‹_›⟩, h.2⟩
      · simp only [Memory.wfFrom, Bool.and_eq_true, decide_eq_true_eq]
        exact ⟨⟨h.1.1, h.1.2⟩, ih h.2 (by omega)⟩

theorem Memory.wf_write (h : m.wf = true) : (m.write a v).wf = true :=
  Memory.wfFrom_write h (Nat.zero_le _)

theorem Memory.below_write (h : Memory.below n m = true) (ha : a < n) : Memory.below n (m.write a v) = true := by
  induction m with
  | nil => by_cases hv : v = Config.unlistedByte <;> simp [Memory.write, Memory.below, hv, ha]
  | cons c m ih =>
    obtain ⟨k, c⟩ := c
    simp only [Memory.below, List.all_cons, Bool.and_eq_true, decide_eq_true_eq] at h ih ⊢
    rw [Memory.write]
    split
    · split <;> simp [List.all_cons, h.1, ha] <;> simpa using h.2
    · split
      · split <;> simp [List.all_cons, h.1] <;> simpa using h.2
      · simp only [List.all_cons, Bool.and_eq_true, decide_eq_true_eq]; exact ⟨h.1, ih h.2⟩

/-! ### Byte strings in memory -/

@[simp] theorem Memory.length_bytes (m : Memory) (a n : Nat) : (m.bytes a n).length = n := by
  induction n generalizing a with
  | zero => rfl
  | succ n ih => simp [Memory.bytes, ih]

theorem Memory.getElem_bytes (m : Memory) (a n i : Nat) (h : i < (m.bytes a n).length) :
    (m.bytes a n)[i] = m.read (a + i) := by
  induction n generalizing a i with
  | zero => simp at h
  | succ n ih =>
    cases i with
    | zero => rfl
    | succ i =>
      have := ih (a + 1) i (by simpa using h)
      simp only [Memory.bytes, List.getElem_cons_succ, this]
      congr 1; omega

/-- Two memories that agree on a range hold the same bytes there. -/
theorem Memory.bytes_congr {m m' : Memory} (h : ∀ x, a ≤ x → x < a + n → m.read x = m'.read x) :
    m.bytes a n = m'.bytes a n := by
  induction n generalizing a with
  | zero => rfl
  | succ n ih =>
    simp only [Memory.bytes]
    rw [h a (Nat.le_refl a) (by omega), ih fun x h1 h2 => h x (by omega) (by omega)]

theorem Memory.bytes_add (m : Memory) (a n k : Nat) : m.bytes a (n + k) = m.bytes a n ++ m.bytes (a + n) k := by
  induction n generalizing a with
  | zero => simp [Memory.bytes]
  | succ n ih =>
    rw [Nat.add_right_comm]
    simp only [Memory.bytes, List.cons_append, ih]
    congr 3; omega

theorem Memory.bytes_take (m : Memory) (a n k : Nat) : (m.bytes a n).take k = m.bytes a (min k n) := by
  rcases Nat.le_total k n with h | h
  · obtain ⟨d, rfl⟩ := Nat.exists_eq_add_of_le h
    rw [Nat.min_eq_left h, Memory.bytes_add, List.take_left' (by simp)]
  · rw [Nat.min_eq_right h, List.take_of_length_le (by simpa using h)]

theorem Memory.bytes_drop (m : Memory) (a n k : Nat) : (m.bytes a n).drop k = m.bytes (a + k) (n - k) := by
  rcases Nat.le_total k n with h | h
  · obtain ⟨d, rfl⟩ := Nat.exists_eq_add_of_le h
    rw [Memory.bytes_add, List.drop_left' (by simp), Nat.add_sub_cancel_left]
  · rw [Nat.sub_eq_zero_of_le h, List.drop_of_length_le (by simpa using h)]; rfl

/-! ### Storing a byte string -/

theorem Memory.wf_store {bs : Bytes} (h : m.wf = true) : (m.store a bs).wf = true := by
  induction bs generalizing m a with
  | nil => exact h
  | cons b bs ih => exact ih (Memory.wf_write h)

theorem Memory.below_store {bs : Bytes} (h : Memory.below n m = true) (ha : a + bs.length ≤ n) :
    Memory.below n (m.store a bs) = true := by
  induction bs generalizing m a with
  | nil => exact h
  | cons b bs ih =>
    simp only [List.length_cons] at ha
    exact ih (Memory.below_write h (by omega)) (by omega)

/-- A read outside the stored bytes gives what was there. -/
theorem Memory.read_store_outside {bs : Bytes} {x : Nat} (h : m.wf = true) (hx : x < a ∨ a + bs.length ≤ x) :
    (m.store a bs).read x = m.read x := by
  induction bs generalizing m a with
  | nil => rfl
  | cons b bs ih =>
    simp only [List.length_cons] at hx
    rw [Memory.store, ih (Memory.wf_write h) (by omega), Memory.read_write h, if_neg (by omega)]

/-- A read inside the stored bytes gives the byte stored. -/
theorem Memory.read_store_inside {bs : Bytes} {i : Nat} (h : m.wf = true) (hi : i < bs.length) :
    (m.store a bs).read (a + i) = bs[i] := by
  induction bs generalizing m a i with
  | nil => simp at hi
  | cons b bs ih =>
    cases i with
    | zero =>
      rw [Memory.store, Memory.read_store_outside (Memory.wf_write h) (by omega), Memory.read_write h]
      simp
    | succ i =>
      have := ih (m := m.write a b) (a := a + 1) (i := i) (Memory.wf_write h) (by simpa using hi)
      rw [show a + (i + 1) = a + 1 + i by omega]
      simpa [Memory.store] using this

theorem Memory.bytes_store {bs : Bytes} (h : m.wf = true) : (m.store a bs).bytes a bs.length = bs := by
  apply List.ext_getElem (by simp)
  intro i h1 h2
  rw [Memory.getElem_bytes, Memory.read_store_inside h h2]

/-- The bytes of a range that the store does not meet are as before. -/
theorem Memory.bytes_store_outside {bs : Bytes} {x n : Nat} (h : m.wf = true)
    (hd : x + n ≤ a ∨ a + bs.length ≤ x ∨ n = 0) : (m.store a bs).bytes x n = m.bytes x n :=
  Memory.bytes_congr fun y h1 h2 => Memory.read_store_outside h (by omega)

theorem Memory.store_append (m : Memory) (a : Nat) (bs cs : Bytes) :
    m.store a (bs ++ cs) = (m.store a bs).store (a + bs.length) cs := by
  induction bs generalizing m a with
  | nil => rfl
  | cons b bs ih =>
    simp only [List.cons_append, Memory.store, ih, List.length_cons]
    congr 1; omega

/-- A canonical memory is determined by its reads. -/
theorem Memory.ext_from {m m' : Memory} (h : Memory.wfFrom lo m = true) (h' : Memory.wfFrom lo m' = true)
    (hr : ∀ x, m.read x = m'.read x) : m = m' := by
  induction m generalizing lo m' with
  | nil =>
    cases m' with
    | nil => rfl
    | cons c m' =>
      simp only [Memory.wfFrom, Bool.and_eq_true, decide_eq_true_eq] at h'
      exact absurd (by simpa [Memory.read] using (hr c.1).symm) h'.1.2
  | cons c m ih =>
    have hc := h
    simp only [Memory.wfFrom, Bool.and_eq_true, decide_eq_true_eq] at h
    cases m' with
    | nil => exact absurd (by simpa [Memory.read] using hr c.1) h.1.2
    | cons d m' =>
      have hd := h'
      simp only [Memory.wfFrom, Bool.and_eq_true, decide_eq_true_eq] at h'
      obtain ⟨k, v⟩ := c
      obtain ⟨l, w⟩ := d
      have hkl : k = l := by
        rcases Nat.lt_trichotomy k l with hlt | heq | hgt
        · have := hr k
          rw [Memory.read, if_pos rfl, Memory.read, if_neg (by omega), Memory.read_below h'.2 (by omega)] at this
          exact absurd this h.1.2
        · exact heq
        · have := hr l
          rw [Memory.read, if_neg (by omega), Memory.read_below h.2 (by omega), Memory.read, if_pos rfl] at this
          exact absurd this.symm h'.1.2
      subst hkl
      have hv : v = w := by simpa [Memory.read] using hr k
      subst hv
      congr 1
      refine ih h.2 h'.2 fun x => ?_
      by_cases hx : k = x
      · subst hx; rw [Memory.read_below h.2 (by omega), Memory.read_below h'.2 (by omega)]
      · simpa [Memory.read, hx] using hr x

theorem Memory.ext {m m' : Memory} (h : m.wf = true) (h' : m'.wf = true) (hr : ∀ x, m.read x = m'.read x) : m = m' :=
  Memory.ext_from h h' hr

/-! ### Free values in memory (93 U3, U6) -/

/-- Filling a range with free bytes changes memory, inside the range only, and the count of draws; nothing else. -/
theorem freeFill_spec (s : State) (h : s.mem.wf = true) :
    ∃ m' d', freeFill a n s = { s with mem := m', draws := d' } ∧ m'.wf = true ∧
      (∀ x, (x < a ∨ a + n ≤ x) → m'.read x = s.mem.read x) ∧
      (∀ w, Memory.below w s.mem = true → a + n ≤ w → Memory.below w m' = true) := by
  induction n generalizing a s with
  | zero => exact ⟨s.mem, s.draws, rfl, h, fun _ _ => rfl, fun _ h _ => h⟩
  | succ n ih =>
    obtain ⟨m', d', h1, h2, h3, h4⟩ :=
      ih (a := a + 1) { s with mem := s.mem.write a (Config.freeByte s.draws), draws := s.draws + 1 } (Memory.wf_write h)
    refine ⟨m', d', h1, h2, fun x hx => ?_, fun w hw ha => ?_⟩
    · rw [h3 x (by omega)]
      exact (Memory.read_write h).trans (if_neg (by omega))
    · exact h4 w (Memory.below_write hw (by omega)) (by omega)

/-- Whatever memory is, filling regions with free bytes changes memory and the count of draws only. -/
theorem scramble_frame (rs : List Region) (s : State) : ∃ m' d', scramble rs s = { s with mem := m', draws := d' } := by
  have hf : ∀ n a (s : State), ∃ m' d', freeFill a n s = { s with mem := m', draws := d' } := by
    intro n
    induction n with
    | zero => exact fun a s => ⟨s.mem, s.draws, rfl⟩
    | succ n ih =>
      intro a s
      obtain ⟨m', d', e⟩ := ih (a + 1) { s with mem := s.mem.write a (Config.freeByte s.draws), draws := s.draws + 1 }
      exact ⟨m', d', e⟩
  induction rs generalizing s with
  | nil => exact ⟨s.mem, s.draws, rfl⟩
  | cons r rs ih =>
    obtain ⟨m1, d1, e1⟩ := hf r.len r.base s
    obtain ⟨m2, d2, e2⟩ := ih { s with mem := m1, draws := d1 }
    exact ⟨m2, d2, by simpa [scramble, e1] using e2⟩

/-- The same for the written regions of a command. -/
theorem scramble_spec (rs : List Region) (s : State) (h : s.mem.wf = true) :
    ∃ m' d', scramble rs s = { s with mem := m', draws := d' } ∧ m'.wf = true ∧
      (∀ x, inRegions rs x = false → m'.read x = s.mem.read x) ∧
      (∀ w, Memory.below w s.mem = true → (∀ r ∈ rs, r.base + r.len ≤ w) → Memory.below w m' = true) := by
  induction rs generalizing s with
  | nil => exact ⟨s.mem, s.draws, rfl, h, fun _ _ => rfl, fun _ h _ => h⟩
  | cons r rs ih =>
    obtain ⟨m1, d1, e1, w1, r1, b1⟩ := freeFill_spec (a := r.base) (n := r.len) s h
    obtain ⟨m2, d2, e2, w2, r2, b2⟩ := ih { s with mem := m1, draws := d1 } w1
    refine ⟨m2, d2, ?_, w2, fun x hx => ?_, fun w hw hr => ?_⟩
    · simpa [scramble, e1] using e2
    · simp only [inRegions, List.any_cons, Bool.or_eq_false_iff] at hx
      rw [r2 x hx.2]
      refine r1 x ?_
      have := hx.1
      simp only [Region.has, Bool.and_eq_false_iff, decide_eq_false_iff_not] at this
      omega
    · exact b2 w (b1 w hw (hr r (by simp))) fun q hq => hr q (by simp [hq])

end Sys2Proof.Machine
end

