-- ==== Sys2Proof/Laws/Engine.lean ====
section
/-! SUPPORT. What each engine operation does when the platform answers without error: the value it yields, the accesses it makes in order, the memory it leaves. -/

namespace Sys2Proof.Machine

/-! ### The port (R67, R72) -/

theorem busOk_tail {s : State} (h : busOk s = true) : (s.bus.tail.all fun r => decide (r = .ok)) = true := by
  unfold busOk at h
  cases hb : s.bus with
  | nil => rfl
  | cons r rs => rw [hb] at h; simp only [List.all_cons, Bool.and_eq_true] at h; exact h.2

theorem busOk_drop {s : State} (h : busOk s = true) (n : Nat) :
    ((s.bus.drop n).all fun r => decide (r = .ok)) = true := by
  unfold busOk at h
  rw [List.all_eq_true] at *
  exact fun r hr => h r (List.mem_of_mem_drop hr)

@[simp] theorem busOk_afterAccesses {s : State} (h : busOk s = true) (tr : List MemAccess) (k : Nat) :
    busOk (afterAccesses tr k s) = true :=
  busOk_drop h _

theorem afterAccesses_nil (s : State) : afterAccesses [] 0 s = s := by
  simp [afterAccesses]

/-- Accesses after accesses are their concatenation. -/
theorem afterAccesses_append (s : State) (t1 t2 : List MemAccess) (k1 k2 : Nat) :
    afterAccesses t2 k2 (afterAccesses t1 k1 s) = afterAccesses (t1 ++ t2) (k1 + k2) s := by
  have hk : s.trace.steps + (t1.length + k1) + (t2.length + k2) = s.trace.steps + (t1.length + t2.length + (k1 + k2)) := by
    omega
  simp only [afterAccesses, List.drop_drop, List.reverse_append, List.append_assoc, List.length_append, hk]

theorem busAccess_ok {s : State} (h : busOk s = true) (d : Dir) (a : Nat) :
    busAccess d a s = .done () (afterAccesses [⟨d, a⟩] 0 s) := by
  unfold busOk at h
  have hb : s.bus.headD .ok = .ok := by
    cases hs : s.bus with
    | nil => rfl
    | cons r rs => rw [hs] at h; simp only [List.all_cons, Bool.and_eq_true, decide_eq_true_eq] at h; exact h.1
  simp only [busAccess, hb, afterAccesses, tick, List.reverse_singleton, List.singleton_append, List.length_singleton,
    List.drop_one, Nat.add_zero]

theorem readsOf_succ (a n : Nat) : readsOf a (n + 1) = ⟨.read, a⟩ :: readsOf (a + 1) n := by
  simp only [readsOf, List.range_succ_eq_map, List.map_cons, List.map_map, Nat.add_zero]
  congr 2
  funext i
  have e : a + (i + 1) = a + 1 + i := by omega
  simp only [Function.comp, Nat.succ_eq_add_one, e]

theorem writesOf_succ (a n : Nat) : writesOf a (n + 1) = ⟨.write, a⟩ :: writesOf (a + 1) n := by
  simp only [writesOf, List.range_succ_eq_map, List.map_cons, List.map_map, Nat.add_zero]
  congr 2
  funext i
  have e : a + (i + 1) = a + 1 + i := by omega
  simp only [Function.comp, Nat.succ_eq_add_one, e]

@[simp] theorem length_readsOf (a n : Nat) : (readsOf a n).length = n := by simp [readsOf]
@[simp] theorem length_writesOf (a n : Nat) : (writesOf a n).length = n := by simp [writesOf]

/-- `MemRead` yields the bytes of memory and makes its reads in ascending order. -/
theorem memRead_ok {s : State} (h : busOk s = true) (a n : Nat) :
    memRead a n s = .done (s.mem.bytes a n) (afterAccesses (readsOf a n) 0 s) := by
  induction n generalizing a s with
  | zero => rw [show readsOf a 0 = [] from rfl, afterAccesses_nil]; rfl
  | succ n ih =>
    rw [memRead, readByte, busAccess_ok h]
    simp only [Res.andThen]
    rw [ih (busOk_afterAccesses h _ _), afterAccesses_append, readsOf_succ]
    rfl

/-- `MemWrite` stores its bytes and makes its writes in ascending order. -/
theorem memWrite_ok {s : State} (h : busOk s = true) (a : Nat) (bs : Bytes) :
    memWrite a bs s = .done () { afterAccesses (writesOf a bs.length) 0 s with mem := s.mem.store a bs } := by
  induction bs generalizing a s with
  | nil => exact congrArg (Res.done ()) (afterAccesses_nil s).symm
  | cons b bs ih =>
    rw [memWrite, writeByte, busAccess_ok h]
    refine (ih (s := { afterAccesses [⟨.write, a⟩] 0 s with mem := s.mem.write a b }) (busOk_drop h 1) _).trans ?_
    have e : afterAccesses (writesOf (a + 1) bs.length) 0 (afterAccesses [⟨.write, a⟩] 0 s) =
        afterAccesses (writesOf a (b :: bs).length) 0 s := by
      rw [afterAccesses_append, List.length_cons, writesOf_succ]; rfl
    rw [← e]; rfl

/-! ### ChaCha20 (R139) -/

theorem permute_eq (n : Nat) (s : State) :
    permute n s =
      { s with
        engine.x := permuteWords n s.engine.x, engine.rc := s.engine.rc + 2 * n, trace.steps := s.trace.steps + 2 * n } := by
  induction n generalizing s with
  | zero => rw [permute, permuteWords]; rfl
  | succ n ih =>
    have e1 : s.engine.rc + 1 + 1 + 2 * n = s.engine.rc + 2 * (n + 1) := by omega
    have e2 : s.trace.steps + 1 + 1 + 2 * n = s.trace.steps + 2 * (n + 1) := by omega
    rw [permute, ih]
    simp only [diagonalRound, columnRound, tick, permuteWords, doubleWords, e1, e2]

/-- The internal state after one block is made: its words in `X`, the original words in `S0`, 20 in `RC`. -/
def blockEngine (s : State) : Engine :=
  { s.engine with
    x := addWords (permuteWords 10 (initWords s.regs.key s.regs.nonce s.engine.bc))
      (initWords s.regs.key s.regs.nonce s.engine.bc)
    s0 := initWords s.regs.key s.regs.nonce s.engine.bc, rc := 20 }

/-- One block is 22 engine steps on the internal state and nothing else. -/
theorem makeBlock_eq (s : State) :
    makeBlock s = { s with engine := blockEngine s, trace.steps := s.trace.steps + 22 } := by
  rw [makeBlock, permute_eq]; rfl

theorem blockEngine_keeps (s : State) :
    (blockEngine s).bc = s.engine.bc ∧ (blockEngine s).h = s.engine.h ∧ (blockEngine s).pr = s.engine.pr ∧
      (blockEngine s).ps = s.engine.ps ∧ (blockEngine s).otk = s.engine.otk ∧ (blockEngine s).etag = s.engine.etag ∧
      (blockEngine s).diff = s.engine.diff ∧ (blockEngine s).rc = 20 :=
  ⟨rfl, rfl, rfl, rfl, rfl, rfl, rfl, rfl⟩

theorem serialize_blockEngine (s : State) :
    serialize (blockEngine s).x = chachaBlock s.regs.key s.regs.nonce s.engine.bc := rfl

/-! ### The payload loop (R146) -/

theorem blockAccesses_pos {n : Nat} (src dst : Nat) (h : 0 < n) :
    blockAccesses src dst n =
      readsOf src (min 64 n) ++ writesOf dst (min 64 n) ++ blockAccesses (src + 64) (dst + 64) (n - 64) := by
  simp only [blockAccesses, blocksFor_pos h, List.range_succ_eq_map, List.flatMap_cons, Nat.mul_zero, Nat.add_zero,
    Nat.sub_zero, List.flatMap_map]
  congr 1
  apply List.flatMap_congr
  intro j _
  have e1 : src + 64 * (j + 1) = src + 64 + 64 * j := by omega
  have e2 : dst + 64 * (j + 1) = dst + 64 + 64 * j := by omega
  have e3 : n - 64 * (j + 1) = n - 64 - 64 * j := by omega
  simp only [Nat.succ_eq_add_one, e1, e2, e3]

/-- The source and destination of a payload loop: the same start, or apart (what R65 leaves). -/
def apart (src dst n : Nat) : Prop :=
  src = dst ∨ src + n ≤ dst ∨ dst + n ≤ src

/-- Two internal states agree but for the ChaCha20 registers. -/
def Engine.sameButChaCha (e f : Engine) : Prop :=
  e.h = f.h ∧ e.pr = f.pr ∧ e.ps = f.ps ∧ e.otk = f.otk ∧ e.etag = f.etag ∧ e.diff = f.diff

/-- The payload loop: its output, its accesses in order, the memory it leaves. The ChaCha20 registers it leaves are those of its
last block. -/
theorem applyLoop_ok {s : State} (h : busOk s = true) (hw : s.mem.wf = true) (src dst n : Nat) (hd : apart src dst n) :
    ∃ e : Engine,
      e.sameButChaCha s.engine ∧
      applyLoop (blocksFor n) src dst n s =
        .done (applyStream s.regs.key s.regs.nonce s.engine.bc (s.mem.bytes src n))
          { afterAccesses (blockAccesses src dst n) (22 * blocksFor n) s with
            mem := s.mem.store dst (applyStream s.regs.key s.regs.nonce s.engine.bc (s.mem.bytes src n)), engine := e } := by
  induction n using Nat.strongRecOn generalizing src dst s with
  | ind n ih =>
    rcases Nat.eq_zero_or_pos n with h0 | hpos
    · subst h0
      refine ⟨s.engine, ⟨rfl, rfl, rfl, rfl, rfl, rfl⟩, ?_⟩
      have hz : blockAccesses src dst 0 = [] := by simp [blockAccesses]
      rw [blocksFor_zero, hz, Memory.bytes, applyStream_nil, Memory.store, applyLoop, afterAccesses_nil]
    · generalize hout : xorBytes (s.mem.bytes src (min 64 n)) (chachaBlock s.regs.key s.regs.nonce s.engine.bc) = out
      have hlen : out.length = min 64 n := by rw [← hout]; simp
      -- the state after the first block
      let u : State :=
        { afterAccesses (readsOf src (min 64 n) ++ writesOf dst (min 64 n)) 22 s with
          mem := s.mem.store dst out, engine := blockEngine s }
      have hloop : applyLoop (blocksFor n) src dst n s =
          (applyLoop (blocksFor (n - 64)) (src + 64) (dst + 64) (n - 64) (nextCounter (blocksFor (n - 64)) u)).andThen
            fun rest v => .done (out ++ rest) v := by
        have hb : busOk ({ s with engine := blockEngine s, trace.steps := s.trace.steps + 22 } : State) = true := h
        have hk : s.trace.steps + 22 + ((readsOf src (min 64 n)).length + 0) + ((writesOf dst (min 64 n)).length + 0) =
            s.trace.steps + ((readsOf src (min 64 n) ++ writesOf dst (min 64 n)).length + 22) := by
          rw [List.length_append]; omega
        rw [blocksFor_pos hpos, applyLoop, makeBlock_eq]
        simp only []
        rw [memRead_ok hb]
        simp only [Res.andThen]
        rw [memWrite_ok (busOk_afterAccesses hb _ _)]
        have hx : serialize (afterAccesses (readsOf src (min 64 n)) 0
            ({ s with engine := blockEngine s, trace.steps := s.trace.steps + 22 } : State)).engine.x =
              chachaBlock s.regs.key s.regs.nonce s.engine.bc := serialize_blockEngine s
        rw [hx, hout, hlen]
        simp only [u, afterAccesses, List.drop_drop, List.length_append, List.reverse_append, List.append_assoc,
          Nat.add_zero]
        simp only [List.length_append] at hk
        simp only [Nat.add_zero] at hk
        rw [hk]
      have hnext : ∃ b : Word, (blocksFor (n - 64) ≠ 0 → b = s.engine.bc + 1) ∧
          nextCounter (blocksFor (n - 64)) u = { u with engine.bc := b } := by
        by_cases hz : blocksFor (n - 64) = 0
        · exact ⟨u.engine.bc, fun hne => absurd hz hne, by rw [nextCounter, if_pos hz]⟩
        · exact ⟨s.engine.bc + 1, fun _ => rfl, by rw [nextCounter, if_neg hz]; rfl⟩
      obtain ⟨b, hb2, hu⟩ := hnext
      have huok : busOk ({ u with engine.bc := b } : State) = true := busOk_drop h _
      have huwf : ({ u with engine.bc := b } : State).mem.wf = true := Memory.wf_store hw
      have hap : apart (src + 64) (dst + 64) (n - 64) := by unfold apart at *; omega
      obtain ⟨e, he, hrun⟩ := ih (n - 64) (by omega) huok huwf (src + 64) (dst + 64) hap
      refine ⟨e, he, ?_⟩
      rw [hloop, hu, hrun]
      -- the remaining source bytes are as they were
      have hrest : (s.mem.store dst out).bytes (src + 64) (n - 64) = s.mem.bytes (src + 64) (n - 64) := by
        apply Memory.bytes_store_outside hw
        rw [hlen]; unfold apart at hd; omega
      have hstep : applyStream s.regs.key s.regs.nonce s.engine.bc (s.mem.bytes src n) =
          out ++ applyStream s.regs.key s.regs.nonce b (s.mem.bytes (src + 64) (n - 64)) := by
        rw [applyStream_step _ _ _ (by simpa using hpos), Memory.bytes_take, hout, Memory.bytes_drop]
        by_cases hz : blocksFor (n - 64) = 0
        · have hn : n - 64 = 0 := by
            by_contra hne
            rw [blocksFor_pos (by omega)] at hz; omega
          rw [hn, Memory.bytes, applyStream_nil, applyStream_nil]
        · rw [hb2 hz]
      have hdst : (s.mem.store dst out).store (dst + 64)
            (applyStream s.regs.key s.regs.nonce b (s.mem.bytes (src + 64) (n - 64))) =
          (s.mem.store dst out).store (dst + out.length)
            (applyStream s.regs.key s.regs.nonce b (s.mem.bytes (src + 64) (n - 64))) := by
        rcases Nat.le_total n 64 with hle | hle
        · rw [Nat.sub_eq_zero_of_le hle, Memory.bytes, applyStream_nil]; rfl
        · rw [hlen, Nat.min_eq_left hle]
      have hk : 22 * (blocksFor (n - 64) + 1) = 22 + 22 * blocksFor (n - 64) := by omega
      rw [hstep, blockAccesses_pos src dst hpos, Memory.store_append, blocksFor_pos hpos, ← hdst, hk,
        ← afterAccesses_append]
      have hum : ({ u with engine.bc := b } : State).mem = s.mem.store dst out := rfl
      rw [hum, hrest]
      rfl

/-! ### Poly1305 (R160) -/

theorem foldl_absorb (l : List Bytes) (s : State) :
    l.foldl absorb s = { s with engine.h := l.foldl (absorbValue s.engine.pr.toNat) s.engine.h, trace.steps := s.trace.steps + l.length } := by
  induction l generalizing s with
  | nil => rfl
  | cons b l ih =>
    have e : s.trace.steps + 1 + l.length = s.trace.steps + (b :: l).length := by rw [List.length_cons]; omega
    rw [List.foldl_cons, ih]
    simp only [absorb, tick, List.foldl_cons, e]

theorem length_pieces (k : Nat) (m : Bytes) : (pieces k m).length = k := by
  induction k generalizing m with
  | zero => rfl
  | succ k ih => simp [pieces, ih]

theorem length_polyBlocks (m : Bytes) : (polyBlocks m).length = ceilDiv m.length 16 :=
  length_pieces _ _

theorem absorbAll_eq (m : Bytes) (s : State) :
    absorbAll m s =
      { s with
        engine.h := (polyBlocks m).foldl (absorbValue s.engine.pr.toNat) s.engine.h, trace.steps := s.trace.steps + ceilDiv m.length 16 } := by
  rw [absorbAll, foldl_absorb, length_polyBlocks]

theorem absorbValue_lt (r h : Nat) (b : Bytes) : absorbValue r h b < polyPrime :=
  Nat.mod_lt _ (by decide)

theorem foldl_absorbValue_lt (r : Nat) (l : List Bytes) {h : Nat} (hh : h < polyPrime) :
    l.foldl (absorbValue r) h < polyPrime := by
  induction l generalizing h with
  | nil => exact hh
  | cons b l ih => exact ih (absorbValue_lt r h b)

/-- The partition of a string whose first part is whole blocks. -/
theorem polyBlocks_append {a b : Bytes} (h : a.length % 16 = 0) : polyBlocks (a ++ b) = polyBlocks a ++ polyBlocks b := by
  generalize hn : a.length = n at h
  induction n using Nat.strongRecOn generalizing a with
  | ind n ih =>
    rcases Nat.eq_zero_or_pos n with h0 | hpos
    · subst h0; rw [List.length_eq_zero_iff.mp hn]; rfl
    · have h16 : 16 ≤ a.length := by omega
      have c1 : ceilDiv (a ++ b).length 16 = ceilDiv (a.drop 16 ++ b).length 16 + 1 := by
        simp only [ceilDiv, List.length_append, List.length_drop]; omega
      have c2 : ceilDiv a.length 16 = ceilDiv (a.drop 16).length 16 + 1 := by
        simp only [ceilDiv, List.length_drop]; omega
      have := ih (n - 16) (by omega) (a := a.drop 16) (by simp [hn]) (by omega)
      unfold polyBlocks at *
      rw [c1, c2, pieces, pieces, List.take_append_of_le_length h16, List.drop_append_of_le_length h16, this]
      rfl

@[simp] theorem length_pad16 (b : Bytes) : (pad16 b).length % 16 = 0 := by
  simp only [pad16, List.length_append, List.length_replicate]; omega

theorem ceilDiv_length_pad16 (b : Bytes) : ceilDiv (pad16 b).length 16 = ceilDiv b.length 16 := by
  simp only [pad16, List.length_append, List.length_replicate, ceilDiv]; omega

theorem length_macPayload (ad ct : Bytes) : (macPayload ad ct).length % 16 = 0 := by
  have := length_pad16 ad; have := length_pad16 ct
  simp only [macPayload, List.length_append]; omega

theorem ceilDiv_macPayload (ad ct : Bytes) :
    ceilDiv (macPayload ad ct).length 16 = ceilDiv ad.length 16 + ceilDiv ct.length 16 := by
  have h1 := length_pad16 ad
  have h2 := length_pad16 ct
  have e1 := ceilDiv_length_pad16 ad
  have e2 := ceilDiv_length_pad16 ct
  simp only [macPayload, List.length_append, ceilDiv] at *
  omega

end Sys2Proof.Machine
end

