-- ==== Sys2Proof/Laws/Frame.lean ====
section
/-! SUPPORT. Everything a stretch of engine work can do, said once: what it leaves alone, which accesses it makes, what it may change in memory and in the internal state, and how it can end. -/

namespace Sys2Proof.Machine

/-- The regions an access of a command must lie in (R71). -/
def Profile.allowed (p : Profile) (d : Dir) : List Region :=
  match d with
  | .read => p.reads
  | .write => p.writes

/-- From `s` to `t` by engine work of a command with profile `p`, making the accesses `acc` (newest first), every one of them
answered without error, and keeping the predicate `ph` of the composer state. -/
structure Ran (p : Profile) (ph : Phase → Prop) (acc : List MemAccess) (s t : State) : Prop where
  platform : t.platform = s.platform
  regs : t.regs = s.regs
  flags : t.status = { s.status with phase := t.status.phase }
  phase : ph s.status.phase → ph t.status.phase
  curOp : t.curOp = s.curOp
  rdata : t.rdata = s.rdata
  memReq : t.memReq = s.memReq
  host : t.host = s.host
  draws : t.draws = s.draws
  port : t.trace.portLog = acc ++ s.trace.portLog
  bus : t.bus = s.bus.drop acc.length
  answered : ∀ r ∈ s.bus.take acc.length, r = .ok
  inside : ∀ a ∈ acc, inRegions (p.allowed a.dir) a.addr = true
  memWf : s.mem.wf = true → t.mem.wf = true
  memBelow : ∀ n, Memory.below n s.mem = true → (∀ r ∈ p.writes, r.base + r.len ≤ n) → Memory.below n t.mem = true
  memOutside : s.mem.wf = true → ∀ x, inRegions p.writes x = false → t.mem.read x = s.mem.read x
  memKept : (∀ a ∈ acc, a.dir = .read) → t.mem = s.mem
  residue : s.engine.h < polyPrime → t.engine.h < polyPrime
  clamped : s.engine.pr &&& clampMask = s.engine.pr → t.engine.pr &&& clampMask = t.engine.pr
  rounds : s.engine.rc ≤ 20 → t.engine.rc ≤ 20

/-- The state after an access at which the command stops: the access is on the trace and its answer is taken. -/
def afterStop (d : Dir) (a : Nat) (t : State) : State :=
  { tick t with trace.portLog := ⟨d, a⟩ :: t.trace.portLog, bus := t.bus.tail }

/-- An access of the command at which it stops with an answer other than "done". -/
structure Stops (p : Profile) (ph : Phase → Prop) (ans : BusResp) (d : Dir) (s u : State) : Prop where
  stop : ∃ acc t a, Ran p ph acc s t ∧ t.bus.headD .ok = ans ∧ inRegions (p.allowed d) a = true ∧
    u = (if ans = .never then { afterStop d a t with memReq := some ⟨d, a⟩ } else afterStop d a t)

/-- How engine work can end: done; a bus error (R72); an access never answered (R249). -/
def Follows {α : Type} (p : Profile) (ph : Phase → Prop) (s : State) : Res α → Prop
  | .done _ t => ∃ acc, Ran p ph acc s t
  | .raised c u => ∃ d, c = busCause d ∧ Stops p ph .error d s u
  | .hung u => ∃ d, Stops p ph .never d s u

variable {p : Profile} {ph : Phase → Prop} {s t u : State} {acc acc' : List MemAccess} {α β : Type}

/-- The answer at which a command stops is the platform's answer to its next access. -/
theorem Stops.answer {ans : BusResp} {d : Dir} (h : Stops p ph ans d s u) (ha : ans ≠ .ok) :
    ∃ acc t a, Ran p ph acc s t ∧ s.bus[acc.length]? = some ans ∧ inRegions (p.allowed d) a = true ∧
      u = (if ans = .never then { afterStop d a t with memReq := some ⟨d, a⟩ } else afterStop d a t) := by
  obtain ⟨acc, t, a, hr, hans, hin, hu⟩ := h
  refine ⟨acc, t, a, hr, ?_, hin, hu⟩
  rw [hr.bus, List.headD_eq_head?_getD, List.head?_drop] at hans
  cases hx : s.bus[acc.length]? with
  | none => rw [hx] at hans; exact absurd hans.symm ha
  | some x => rw [hx] at hans; simpa using hans

/-! ### Putting stretches together -/

theorem Ran.trans (h : Ran p ph acc s t) (k : Ran p ph acc' t u) : Ran p ph (acc' ++ acc) s u where
  platform := k.platform.trans h.platform
  regs := k.regs.trans h.regs
  flags := by rw [k.flags, h.flags]
  phase := fun x => k.phase (h.phase x)
  curOp := k.curOp.trans h.curOp
  rdata := k.rdata.trans h.rdata
  memReq := k.memReq.trans h.memReq
  host := k.host.trans h.host
  draws := k.draws.trans h.draws
  port := by rw [k.port, h.port, List.append_assoc]
  bus := by rw [k.bus, h.bus, List.drop_drop, List.length_append, Nat.add_comm]
  answered := by
    intro r hr
    rw [List.length_append, Nat.add_comm, List.take_add, List.mem_append] at hr
    rcases hr with hr | hr
    · exact h.answered r hr
    · exact k.answered r (by rwa [h.bus])
  inside := by
    intro a ha
    rcases List.mem_append.mp ha with ha | ha
    · exact k.inside a ha
    · exact h.inside a ha
  memWf := fun x => k.memWf (h.memWf x)
  memBelow := fun n x y => k.memBelow n (h.memBelow n x y) y
  memOutside := fun hw x hx => (k.memOutside (h.memWf hw) x hx).trans (h.memOutside hw x hx)
  memKept := fun hr =>
    (k.memKept fun a ha => hr a (List.mem_append_left _ ha)).trans (h.memKept fun a ha => hr a (List.mem_append_right _ ha))
  residue := fun x => k.residue (h.residue x)
  clamped := fun x => k.clamped (h.clamped x)
  rounds := fun x => k.rounds (h.rounds x)

theorem Ran.refl (p : Profile) (ph : Phase → Prop) (s : State) : Ran p ph [] s s :=
  ⟨rfl, rfl, rfl, id, rfl, rfl, rfl, rfl, rfl, rfl, rfl, by simp, by simp, id, fun _ x _ => x, fun _ _ _ => rfl, fun _ => rfl, id, id, id⟩

theorem Stops.after {ans : BusResp} {d : Dir} (h : Ran p ph acc s t) (k : Stops p ph ans d t u) : Stops p ph ans d s u := by
  obtain ⟨acc', t', a, hr, hx⟩ := k
  exact ⟨_, t', a, h.trans hr, hx⟩

theorem Follows.after {r : Res α} (h : Ran p ph acc s t) (k : Follows p ph t r) : Follows p ph s r := by
  cases r with
  | done b w => obtain ⟨acc', hr⟩ := k; exact ⟨_, h.trans hr⟩
  | raised c w => obtain ⟨d, hc, hs⟩ := k; exact ⟨d, hc, hs.after h⟩
  | hung w => obtain ⟨d, hs⟩ := k; exact ⟨d, hs.after h⟩

/-- A stretch, then another that follows from wherever the first is done. -/
theorem Follows.andThen {r : Res α} {f : α → State → Res β} (h : Follows p ph s r)
    (k : ∀ a t acc, r = .done a t → Ran p ph acc s t → Follows p ph t (f a t)) : Follows p ph s (r.andThen f) := by
  cases r with
  | done a t => obtain ⟨acc, hr⟩ := h; exact (k a t acc rfl hr).after hr
  | raised c t => exact h
  | hung t => exact h

theorem Follows.done {a : α} (h : Ran p ph acc s t) : Follows p ph s (.done a t) :=
  ⟨acc, h⟩

/-! ### Stretches without an access -/

/-- Engine work that changes the internal state and the step count only. -/
theorem Ran.engine (p : Profile) (ph : Phase → Prop) (s : State) (e : Engine) (n : Nat)
    (hh : s.engine.h < polyPrime → e.h < polyPrime) (hp : s.engine.pr &&& clampMask = s.engine.pr → e.pr &&& clampMask = e.pr)
    (hr : s.engine.rc ≤ 20 → e.rc ≤ 20) : Ran p ph [] s { s with engine := e, trace.steps := n } :=
  ⟨rfl, rfl, rfl, id, rfl, rfl, rfl, rfl, rfl, rfl, rfl, by simp, by simp, id, fun _ x _ => x, fun _ _ _ => rfl, fun _ => rfl, hh, hp, hr⟩

/-- A step of the composer state. -/
theorem Ran.toPhase (p : Profile) {ph : Phase → Prop} (s : State) (q : Phase) (h : ph s.status.phase → ph q) :
    Ran p ph [] s { s with status.phase := q } :=
  ⟨rfl, rfl, rfl, h, rfl, rfl, rfl, rfl, rfl, rfl, rfl, by simp, by simp, id, fun _ x _ => x, fun _ _ _ => rfl, fun _ => rfl, id, id, id⟩

/-! ### Accesses -/

theorem busAccess_follows (p : Profile) (ph : Phase → Prop) (d : Dir) (a : Nat) (s : State)
    (h : inRegions (p.allowed d) a = true) : Follows p ph s (busAccess d a s) := by
  unfold busAccess
  cases hb : s.bus.headD .ok with
  | ok =>
    refine ⟨[⟨d, a⟩], ⟨rfl, rfl, rfl, id, rfl, rfl, rfl, rfl, rfl, rfl, ?_, ?_, ?_, id, fun _ x _ => x, fun _ _ _ => rfl, fun _ => rfl, id, id, id⟩⟩
    · cases s.bus <;> rfl
    · intro r hr
      cases hs : s.bus with
      | nil => rw [hs] at hr; simp at hr
      | cons b bs => rw [hs] at hb hr; simp at hb hr; rw [hr, hb]
    · intro x hx; rw [List.mem_singleton.mp hx]; exact h
  | error => exact ⟨d, rfl, [], s, a, Ran.refl p ph s, hb, h, rfl⟩
  | never => exact ⟨d, [], s, a, Ran.refl p ph s, hb, h, rfl⟩

theorem memRead_follows (p : Profile) (ph : Phase → Prop) (a n : Nat) (s : State)
    (h : ∀ i, i < n → inRegions p.reads (a + i) = true) : Follows p ph s (memRead a n s) := by
  induction n generalizing a s with
  | zero => exact .done (Ran.refl p ph s)
  | succ n ih =>
    refine Follows.andThen ?_ fun b t _ _ _ => ?_
    · exact (busAccess_follows p ph .read a s (h 0 (by omega))).andThen fun _ t _ _ _ => .done (Ran.refl p ph t)
    · refine (ih (a + 1) t fun i hi => ?_).andThen fun _ u _ _ _ => .done (Ran.refl p ph u)
      rw [Nat.add_right_comm]; exact h (i + 1) (by omega)

theorem writeByte_follows (p : Profile) (ph : Phase → Prop) (a : Nat) (b : Byte) (s : State)
    (h : inRegions p.writes a = true) : Follows p ph s (writeByte a b s) := by
  have hb := busAccess_follows p ph .write a s h
  unfold writeByte
  unfold busAccess at hb ⊢
  cases hr : s.bus.headD .ok with
  | ok =>
    rw [hr] at hb
    obtain ⟨acc, hx⟩ := hb
    have hacc : acc = [⟨.write, a⟩] := List.append_cancel_right hx.port.symm
    subst hacc
    refine ⟨[⟨.write, a⟩], ⟨rfl, rfl, rfl, id, rfl, rfl, rfl, rfl, rfl, rfl, hx.bus, hx.answered, hx.inside, fun hw => Memory.wf_write hw,
      fun n hn hl => Memory.below_write hn ?_, fun hw x hx' => ?_, fun hd => ?_, id, id, id⟩⟩
    · obtain ⟨r, hr1, hr2⟩ := List.any_eq_true.mp h
      have := hl r hr1
      simp only [Region.has, Bool.and_eq_true, decide_eq_true_eq] at hr2
      omega
    · refine (Memory.read_write hw).trans (if_neg fun e => ?_)
      rw [e, h] at hx'; cases hx'
    · exact absurd (hd _ (List.mem_singleton.mpr rfl)) (by simp)
  | error => rw [hr] at hb; exact hb
  | never => rw [hr] at hb; exact hb

theorem memWrite_follows (p : Profile) (ph : Phase → Prop) (a : Nat) (bs : Bytes) (s : State)
    (h : ∀ i, i < bs.length → inRegions p.writes (a + i) = true) : Follows p ph s (memWrite a bs s) := by
  induction bs generalizing a s with
  | nil => exact .done (Ran.refl p ph s)
  | cons b bs ih =>
    refine (writeByte_follows p ph a b s (h 0 (by simp))).andThen fun _ t _ _ _ => ih (a + 1) t fun i hi => ?_
    rw [Nat.add_right_comm]; exact h (i + 1) (by simpa using hi)

/-! ### What a stretch that is done has read and written -/

theorem busAccess_done {d : Dir} {a : Nat} {x : Unit} (h : busAccess d a s = .done x t) :
    t = afterAccesses [⟨d, a⟩] 0 s := by
  unfold busAccess at h
  cases hb : s.bus.headD .ok with
  | ok =>
    rw [hb] at h; injection h with _ h; rw [← h]
    simp only [afterAccesses, tick, List.reverse_singleton, List.singleton_append, List.length_singleton, List.drop_one,
      Nat.add_zero]
  | error => rw [hb] at h; cases h
  | never => rw [hb] at h; cases h

theorem Res.andThen_done {r : Res α} {f : α → State → Res β} {b : β} (h : r.andThen f = .done b u) :
    ∃ a t, r = .done a t ∧ f a t = .done b u := by
  cases r with
  | done a t => exact ⟨a, t, rfl, h⟩
  | raised c t => cases h
  | hung t => cases h

/-- A `MemRead` that is done has read memory's bytes and made its reads in order. -/
theorem memRead_done {a n : Nat} {bs : Bytes} (h : memRead a n s = .done bs t) :
    bs = s.mem.bytes a n ∧ t = afterAccesses (readsOf a n) 0 s := by
  induction n generalizing a s bs t with
  | zero => injection h with h1 h2; exact ⟨h1.symm, by rw [← h2, show readsOf a 0 = [] from rfl, afterAccesses_nil]⟩
  | succ n ih =>
    obtain ⟨b, t1, h1, h⟩ := Res.andThen_done h
    obtain ⟨_, t0, h0, hb⟩ := Res.andThen_done h1
    injection hb with hb ht
    subst ht
    obtain ⟨cs, t2, h2, h⟩ := Res.andThen_done h
    obtain ⟨e1, e2⟩ := ih h2
    injection h with h3 h4
    rw [busAccess_done h0] at e1 e2 hb
    refine ⟨?_, ?_⟩
    · rw [← h3, ← hb, e1]; rfl
    · rw [← h4, e2, afterAccesses_append, readsOf_succ]; rfl

end Sys2Proof.Machine
end

