-- ==== Sys2Proof/Laws/Work.lean ====
section
/-! SUPPORT. How the work of each command can go (`Follows`), and how a command word's execution can end. -/

namespace Sys2Proof.Machine

variable {p : Profile} {ph : Phase → Prop} {s t u : State} {acc : List MemAccess}

/-! ### Regions of a profile -/

theorem inRegions_mem {rs : List Region} {r : Region} {x : Nat} (h : r ∈ rs) (h1 : r.base ≤ x) (h2 : x < r.base + r.len) :
    inRegions rs x = true :=
  List.any_eq_true.mpr ⟨r, h, by simp [Region.has, h1, h2]⟩

theorem inRegions_range {rs : List Region} {r : Region} {n : Nat} (h : r ∈ rs) (hn : n ≤ r.len) :
    ∀ i, i < n → inRegions rs (r.base + i) = true :=
  fun i hi => inRegions_mem h (by omega) (by omega)

/-! ### Engine steps -/

theorem makeBlock_ran (p : Profile) (ph : Phase → Prop) (s : State) : Ran p ph [] s (makeBlock s) := by
  rw [makeBlock_eq]
  exact Ran.engine p ph s _ _ id id fun _ => Nat.le_refl 20

theorem nextCounter_ran (p : Profile) (ph : Phase → Prop) (n : Nat) (s : State) : Ran p ph [] s (nextCounter n s) := by
  unfold nextCounter
  split
  · exact Ran.refl p ph s
  · exact Ran.engine p ph s { s.engine with bc := s.engine.bc + 1 } s.trace.steps id id id

theorem absorbAll_ran (p : Profile) (ph : Phase → Prop) (m : Bytes) (s : State) : Ran p ph [] s (absorbAll m s) := by
  rw [absorbAll_eq]
  exact Ran.engine p ph s { s.engine with h := _ } _ (foldl_absorbValue_lt _ _) id id

theorem clamp_clamped (x : BitVec 128) : x &&& clampMask &&& clampMask = x &&& clampMask := by
  rw [BitVec.and_assoc, BitVec.and_self]

theorem polyPrime_pos : 0 < polyPrime := by decide

theorem setPolyKey_ran (p : Profile) (ph : Phase → Prop) (k : Bytes) (s : State) : Ran p ph [] s (setPolyKey k s) :=
  Ran.engine p ph s { s.engine with pr := clampedR k, ps := additiveS k, h := 0 } _ (fun _ => polyPrime_pos)
    (fun _ => clamp_clamped _) id

theorem applyLoop_follows (p : Profile) (ph : Phase → Prop) (k src dst n : Nat) (s : State)
    (hs : ∀ i, i < n → inRegions p.reads (src + i) = true) (hd : ∀ i, i < n → inRegions p.writes (dst + i) = true) :
    Follows p ph s (applyLoop k src dst n s) := by
  induction k generalizing src dst n s with
  | zero => exact .done (Ran.refl p ph s)
  | succ k ih =>
    refine Follows.after (makeBlock_ran p ph s) ?_
    refine (memRead_follows p ph src (min 64 n) _ fun i hi => hs i (by omega)).andThen fun m t _ hm _ => ?_
    have hlen : m.length ≤ n := by rw [(memRead_done hm).1]; simp
    refine (memWrite_follows p ph dst _ t fun i hi => hd i ?_).andThen fun _ u _ _ _ => ?_
    · simp only [length_xorBytes, length_serialize] at hi; omega
    · refine ((ih (src + 64) (dst + 64) (n - 64) (nextCounter k u) (fun i hi => ?_) fun i hi => ?_).after
        (nextCounter_ran p ph k u)).andThen fun _ v _ _ _ => .done (Ran.refl p ph v)
      · rw [Nat.add_assoc]; exact hs (64 + i) (by omega)
      · rw [Nat.add_assoc]; exact hd (64 + i) (by omega)

theorem setCounter_ran (p : Profile) (ph : Phase → Prop) (s : State) (c : Word) :
    Ran p ph [] s { s with engine.bc := c } :=
  Ran.engine p ph s { s.engine with bc := c } s.trace.steps id id id

theorem otk_ran (p : Profile) (ph : Phase → Prop) (s : State) (k : Vector Byte 32) :
    Ran p ph [] s { s with engine.otk := k } :=
  Ran.engine p ph s { s.engine with otk := k } s.trace.steps id id id

theorem loadOneTimeKey_ran (p : Profile) {ph : Phase → Prop} (t : State) (h : ph t.status.phase → ph .keyDerived) :
    Ran p ph [] t (loadOneTimeKey t) :=
  (otk_ran p ph t _).trans ((setPolyKey_ran p ph _ _).trans (Ran.toPhase p _ .keyDerived h))

theorem deriveKey_ran (p : Profile) {ph : Phase → Prop} (s : State) (h : ph s.status.phase → ph .keyDerived) :
    Ran p ph [] s (deriveKey s) := by
  have h1 := (setCounter_ran p ph s 0).trans (makeBlock_ran p ph _)
  have h2 : (makeBlock { s with engine.bc := 0 }).status.phase = s.status.phase := by rw [makeBlock_eq]
  exact h1.trans (loadOneTimeKey_ran p _ (by rw [h2]; exact h))

theorem absorbPayload_ran (p : Profile) {ph : Phase → Prop} (ad ct : Bytes) (s : State)
    (h : ph s.status.phase → ph .payloadProcessed) : Ran p ph [] s (absorbPayload ad ct s) :=
  (absorbAll_ran p ph _ s).trans (Ran.toPhase p _ _ fun x => h (by rwa [absorbAll_eq] at x))

theorem absorbLengths_ran (p : Profile) {ph : Phase → Prop} (al cl : Nat) (s : State)
    (h : ph s.status.phase → ph .macComputed) : Ran p ph [] s (absorbLengths al cl s) :=
  (absorbAll_ran p ph _ s).trans (Ran.toPhase p _ _ fun x => h (by rwa [absorbAll_eq] at x))

/-! ### The comparison (R190) -/

theorem foldl_compareByte (l : List (Byte × Byte)) (s : State) :
    l.foldl compareByte s =
      { s with
        engine.diff := (l.map fun q => q.1 ^^^ q.2).foldl (· ||| ·) s.engine.diff, trace.steps := s.trace.steps + l.length } := by
  induction l generalizing s with
  | nil => rfl
  | cons q l ih =>
    have e : s.trace.steps + 1 + l.length = s.trace.steps + (q :: l).length := by rw [List.length_cons]; omega
    rw [List.foldl_cons, ih]
    simp only [compareByte, tick, List.map_cons, List.foldl_cons, e]

/-- The comparison leaves the accumulated difference in DIFF and takes one step a byte. -/
theorem compareTags_eq (rtag : Bytes) (s : State) :
    compareTags rtag s =
      { s with
        engine.diff := tagDiff s.engine.etag.toList rtag
        trace.steps := s.trace.steps + min s.engine.etag.toList.length rtag.length } := by
  rw [compareTags, foldl_compareByte, List.map_zip_eq_zipWith, List.length_zip]
  rfl

theorem compareTags_ran (p : Profile) (ph : Phase → Prop) (rtag : Bytes) (s : State) :
    Ran p ph [] s (compareTags rtag s) := by
  rw [compareTags_eq]
  exact Ran.engine p ph s { s.engine with diff := _ } _ id id id

theorem etag_ran (p : Profile) (ph : Phase → Prop) (s : State) (k : Vector Byte 16) :
    Ran p ph [] s { s with engine.etag := k } :=
  Ran.engine p ph s { s.engine with etag := k } s.trace.steps id id id

/-! ### The five commands -/

theorem chachaBlockWork_follows (ph : Phase → Prop) (s : State) :
    Follows (chachaBlockProfile s) ph s (chachaBlockWork s) := by
  have h := (setCounter_ran (chachaBlockProfile s) ph s s.regs.ctr).trans (makeBlock_ran _ ph _)
  have hreg : (makeBlock { s with engine.bc := s.regs.ctr }).regs = s.regs := h.regs
  refine Follows.after h (memWrite_follows _ ph _ _ _ ?_)
  rw [hreg, length_serialize]
  exact inRegions_range (r := ⟨s.regs.dst.value, 64⟩) (by simp [Profile.writes, chachaBlockProfile]) (Nat.le_refl _)

theorem chachaApplyWork_follows (ph : Phase → Prop) (s : State) :
    Follows (chachaApplyProfile s) ph s (chachaApplyWork s) := by
  refine Follows.after (setCounter_ran _ ph s s.regs.ctr) (Follows.andThen (applyLoop_follows _ ph _ _ _ _ _ ?_ ?_)
    fun _ t _ _ _ => .done (Ran.refl _ ph t))
  · exact inRegions_range (r := ⟨s.regs.src.value, s.regs.len.value⟩) (by simp [Profile.reads, chachaApplyProfile]) (Nat.le_refl _)
  · exact inRegions_range (r := ⟨s.regs.dst.value, s.regs.len.value⟩) (by simp [Profile.writes, chachaApplyProfile]) (Nat.le_refl _)

theorem poly1305TagWork_follows (ph : Phase → Prop) (s : State) :
    Follows (poly1305TagProfile s) ph s (poly1305TagWork s) := by
  refine (memRead_follows _ ph _ _ s ?_).andThen fun m t acc _ ht => ?_
  · exact inRegions_range (r := ⟨s.regs.src.value, s.regs.len.value⟩) (by simp [Profile.reads, poly1305TagProfile]) (Nat.le_refl _)
  · have h := (setPolyKey_ran (poly1305TagProfile s) ph (keyBytes t) t).trans (absorbAll_ran _ ph m _)
    refine Follows.after h (memWrite_follows _ ph _ _ _ ?_)
    rw [h.regs, ht.regs, currentTag, length_polyFinal]
    exact inRegions_range (r := ⟨s.regs.dst.value, 16⟩) (by simp [Profile.writes, poly1305TagProfile]) (Nat.le_refl _)

/-- What AEAD work may do with the composer state before its end: any state but REJECTED and TAGGED. -/
def running (q : Phase) : Prop :=
  q ≠ .rejected ∧ q ≠ .tagged

/-- The work of AEAD_ENCRYPT before its last step to TAGGED. -/
def aeadEncryptBody (s : State) : Res Unit :=
  let al := s.regs.adlen.value
  let l := s.regs.len.value
  (memRead s.regs.ad.value al (deriveKey s)).andThen fun ad t =>
    (applyLoop (blocksFor l) t.regs.src.value t.regs.dst.value l { t with engine.bc := 1 }).andThen fun ct u =>
      let v := absorbLengths al l (absorbPayload ad ct u)
      memWrite (v.regs.dst.value + l) (currentTag v) v

theorem Res.andThen_assoc {α β γ : Type} (r : Res α) (f : α → State → Res β) (g : β → State → Res γ) :
    (r.andThen f).andThen g = r.andThen fun a t => (f a t).andThen g := by
  cases r <;> rfl

theorem aeadEncryptWork_eq (s : State) :
    aeadEncryptWork s = (aeadEncryptBody s).andThen fun _ w => .done () { w with status.phase := .tagged } := by
  simp only [aeadEncryptWork, aeadEncryptBody, Res.andThen_assoc]

theorem aeadEncryptBody_follows (s : State) : Follows (aeadEncryptProfile s) running s (aeadEncryptBody s) := by
  have hk := deriveKey_ran (aeadEncryptProfile s) (ph := running) s fun _ => by simp [running]
  refine Follows.after hk ?_
  refine (memRead_follows _ _ _ _ _ ?_).andThen fun ad t acc _ ht => ?_
  · exact inRegions_range (r := ⟨s.regs.ad.value, s.regs.adlen.value⟩) (by simp [Profile.reads, aeadEncryptProfile]) (Nat.le_refl _)
  · have hreg : t.regs = s.regs := ht.regs.trans hk.regs
    refine Follows.andThen (Follows.after (setCounter_ran _ _ t 1) (applyLoop_follows _ _ _ _ _ _ _ ?_ ?_)) fun ct u acc' _ hu => ?_
    · rw [hreg]
      exact inRegions_range (r := ⟨s.regs.src.value, s.regs.len.value⟩) (by simp [Profile.reads, aeadEncryptProfile]) (Nat.le_refl _)
    · rw [hreg]
      exact inRegions_range (r := ⟨s.regs.dst.value, s.regs.len.value + 16⟩) (by simp [Profile.writes, aeadEncryptProfile]) (by simp)
    · have h := (absorbPayload_ran (aeadEncryptProfile s) (ph := running) ad ct u fun _ => by simp [running]).trans
        (absorbLengths_ran _ s.regs.adlen.value s.regs.len.value _ fun _ => by simp [running])
      refine Follows.after h (memWrite_follows _ _ _ _ _ ?_)
      rw [h.regs, hu.regs, hreg, currentTag, length_polyFinal]
      intro i hi
      exact inRegions_mem (r := ⟨s.regs.dst.value, s.regs.len.value + 16⟩) (by simp [Profile.writes, aeadEncryptProfile])
        (by show s.regs.dst.value ≤ _; omega) (by show _ < s.regs.dst.value + (s.regs.len.value + 16); omega)

/-- The profile of AEAD_DECRYPT while it has not verified: it writes nothing (R194). -/
def verifyProfile (s : State) : Profile :=
  { aeadDecryptProfile s with dst := none }

theorem aeadDecryptVerify_follows (hl : 16 ≤ s.regs.len.value) :
    Follows (verifyProfile s) running s (aeadDecryptVerify s) := by
  have hk := deriveKey_ran (verifyProfile s) (ph := running) s fun _ => by simp [running]
  have hsrc : (⟨s.regs.src.value, s.regs.len.value⟩ : Region) ∈ (verifyProfile s).reads := by
    simp [Profile.reads, verifyProfile, aeadDecryptProfile]
  refine Follows.after hk ?_
  refine (memRead_follows _ _ _ _ _ ?_).andThen fun ad t acc _ ht => ?_
  · exact inRegions_range (r := ⟨s.regs.ad.value, s.regs.adlen.value⟩) (by simp [Profile.reads, verifyProfile, aeadDecryptProfile])
      (Nat.le_refl _)
  · have hreg : t.regs = s.regs := ht.regs.trans hk.regs
    refine (memRead_follows _ _ _ _ _ ?_).andThen fun ct u acc' _ hu => ?_
    · rw [hreg]; exact inRegions_range hsrc (by show _ ≤ s.regs.len.value; omega)
    · refine (memRead_follows _ _ _ _ _ ?_).andThen fun rtag v acc'' _ hv => ?_
      · rw [hu.regs, hreg]
        intro i hi
        exact inRegions_mem hsrc (by show s.regs.src.value ≤ _; omega) (by show _ < s.regs.src.value + s.regs.len.value; omega)
      · have h := (absorbPayload_ran (verifyProfile s) (ph := running) ad ct v fun _ => by simp [running]).trans
          (absorbLengths_ran _ s.regs.adlen.value (s.regs.len.value - 16) _ fun _ => by simp [running])
        exact .done (h.trans ((etag_ran _ _ _ _).trans (compareTags_ran _ _ _ _)))

/-- A stretch that writes nothing is a stretch of any profile with the same reads. -/
theorem Ran.weaken {q : Profile} (h : Ran q ph acc s t) (hw : q.writes = []) (hr : q.reads = p.reads) : Ran p ph acc s t := by
  have hread : ∀ a ∈ acc, a.dir = .read := by
    intro a ha
    cases hd : a.dir with
    | read => rfl
    | write => have := h.inside a ha; rw [hd] at this; simp [Profile.allowed, hw, inRegions] at this
  have hm := h.memKept hread
  exact { h with
    inside := fun a ha => by
      have := h.inside a ha; rw [hread a ha] at this ⊢; rw [Profile.allowed, ← hr]; exact this
    memWf := fun x => by rw [hm]; exact x
    memBelow := fun _ x _ => by rw [hm]; exact x
    memOutside := fun _ _ _ => by rw [hm] }

theorem Stops.weaken {q : Profile} {ans : BusResp} {d : Dir} (h : Stops q ph ans d s u) (hw : q.writes = [])
    (hr : q.reads = p.reads) : Stops p ph ans d s u := by
  obtain ⟨acc, t, a, hran, hans, hin, hu⟩ := h
  refine ⟨acc, t, a, hran.weaken hw hr, hans, ?_, hu⟩
  cases d with
  | read => rw [Profile.allowed, ← hr]; exact hin
  | write => simp [Profile.allowed, hw, inRegions] at hin

theorem verifyProfile_reads (s : State) : (verifyProfile s).reads = (aeadDecryptProfile s).reads := rfl

theorem aeadDecryptSecondPass_follows (ph : Phase → Prop) (hreg : t.regs = s.regs) :
    Follows (aeadDecryptProfile s) ph t (aeadDecryptSecondPass t) := by
  refine Follows.andThen (Follows.after (setCounter_ran _ _ t 1) (applyLoop_follows _ _ _ _ _ _ _ ?_ ?_))
    fun _ v _ _ _ => .done (Ran.refl _ _ v)
  · rw [hreg]
    exact inRegions_range (r := ⟨s.regs.src.value, s.regs.len.value⟩) (by simp [Profile.reads, aeadDecryptProfile]) (by simp)
  · rw [hreg]
    exact inRegions_range (r := ⟨s.regs.dst.value, s.regs.len.value - 16⟩) (by simp [Profile.writes, aeadDecryptProfile])
      (Nat.le_refl _)

/-- The release of AEAD_DECRYPT once the tags match. -/
theorem aeadDecryptRelease_follows (hreg : t.regs = s.regs) (hd : t.engine.diff = 0) :
    Follows (aeadDecryptProfile s) running t (aeadDecryptRelease t) := by
  rw [aeadDecryptRelease, if_pos hd]
  exact (aeadDecryptSecondPass_follows (t := { t with status.phase := .verified }) _ hreg).after (Ran.toPhase _ t .verified fun _ => by simp [running])

/-- A release that is done is done in VERIFIED. -/
theorem aeadDecryptRelease_phase (hreg : t.regs = s.regs) (hd : t.engine.diff = 0) :
    ∀ w, aeadDecryptRelease t = .done () w → w.status.phase = .verified := by
  intro w hw
  rw [aeadDecryptRelease, if_pos hd] at hw
  have h := aeadDecryptSecondPass_follows (s := s) (t := { t with status.phase := .verified }) (· = .verified) hreg
  rw [hw] at h
  obtain ⟨acc, hr⟩ := h
  exact hr.phase rfl

end Sys2Proof.Machine
end

