-- ==== Sys2Proof/Laws/Endings.lean ====
section
/-! SUPPORT. The ways a command's execution can end, said once (`Ending`): what later proofs about commands take cases on. -/

namespace Sys2Proof.Machine

variable {p : Profile} {ph : Phase → Prop} {s t u : State} {acc : List MemAccess} {i : Instr}

/-- What the composer state may be while a command works: AEAD commands move it, no other command does (R33). -/
def phaseRule (i : Instr) (s : State) (q : Phase) : Prop :=
  match i with
  | .aeadEncrypt | .aeadDecrypt => running q
  | .chachaBlock | .chachaApply | .poly1305Tag | .zeroize | .hostWr _ _ | .hostRd _ => q = s.status.phase

/-- The composer state of a successful end (R181). -/
def successPhase (i : Instr) (s : State) : Phase :=
  match i with
  | .aeadEncrypt => .tagged
  | .aeadDecrypt => .verified
  | .chachaBlock | .chachaApply | .poly1305Tag | .zeroize | .hostWr _ _ | .hostRd _ => s.status.phase

/-- How the execution of a keyed command can end. -/
inductive Ending (i : Instr) (s : State) : Host.Outcome State Fault Refusal → Prop where
  /-- A pre-check fails: completion with its cause, nothing done (R108, R114). -/
  | preCheck (c : Cause) (h : Machine.preCheck (profileOf i s) s = some c) : Ending i s (.next (completeCommand c s))
  /-- A region meets side-effect memory: refused by name (R70). -/
  | special (h : Machine.preCheck (profileOf i s) s = none) (hs : (profileOf i s).touches s.platform.sideEffects = true) :
    Ending i s (.refused .sideEffectMemory)
  /-- The work is done: completion with success. -/
  | success (acc : List MemAccess) (t : State) (h : Machine.preCheck (profileOf i s) s = none)
    (ran : Ran (profileOf i s) (phaseRule i s) acc s t) (v : i = .aeadDecrypt → verifies s) :
    Ending i s (.next (completeCommand .success { t with status.phase := successPhase i s }))
  /-- A bus error: completion with its cause, the written regions at any value (R72). A decryption whose tag is wrong has written
  nothing by then (R194). -/
  | busError (d : Dir) (u : State) (h : Machine.preCheck (profileOf i s) s = none)
    (stops : Stops (profileOf i s) (phaseRule i s) .error d s u)
    (v : i = .aeadDecrypt → ¬verifies s → Stops (verifyProfile s) (phaseRule i s) .error d s u) :
    Ending i s (.next (completeCommand (busCause d) (scramble (profileOf i s).writes u)))
  /-- The tags differ: completion with AUTH_FAIL in REJECTED, nothing written (R192). -/
  | authFail (acc : List MemAccess) (t : State) (h : Machine.preCheck (profileOf i s) s = none) (hi : i = .aeadDecrypt)
    (hv : ¬verifies s) (ran : Ran (verifyProfile s) (phaseRule i s) acc s t) :
    Ending i s (.next (completeCommand .authFail { t with status.phase := .rejected }))
  /-- An access is never answered: the command stays as it is (R107, R249). -/
  | stuck (d : Dir) (u : State) (h : Machine.preCheck (profileOf i s) s = none)
    (stops : Stops (profileOf i s) (phaseRule i s) .never d s u)
    (v : i = .aeadDecrypt → ¬verifies s → Stops (verifyProfile s) (phaseRule i s) .never d s u) : Ending i s (.next u)

/-- A stretch that keeps the composer state keeps every predicate of it. -/
theorem Ran.anyPhase (h : Ran p (· = s.status.phase) acc s t) : Ran p ph acc s t :=
  { h with phase := fun x => by rw [h.phase rfl]; exact x }

theorem busCause_isBus (d : Dir) : (busCause d).isBus = true := by cases d <;> rfl

/-- How the work of a command can end, before it is settled. -/
def Ends (i : Instr) (s : State) : Res Unit → Prop
  | .done _ t =>
    ∃ acc t0, Ran (profileOf i s) (phaseRule i s) acc s t0 ∧ (i = .aeadDecrypt → verifies s) ∧
      t = { t0 with status.phase := successPhase i s }
  | .raised c u =>
    (∃ d, c = busCause d ∧ Stops (profileOf i s) (phaseRule i s) .error d s u ∧
        (i = .aeadDecrypt → ¬verifies s → Stops (verifyProfile s) (phaseRule i s) .error d s u)) ∨
      (c = .authFail ∧ i = .aeadDecrypt ∧ ¬verifies s ∧ ∃ acc t0, Ran (verifyProfile s) (phaseRule i s) acc s t0 ∧
        u = { t0 with status.phase := .rejected })
  | .hung u => ∃ d, Stops (profileOf i s) (phaseRule i s) .never d s u ∧
      (i = .aeadDecrypt → ¬verifies s → Stops (verifyProfile s) (phaseRule i s) .never d s u)

theorem runCommand_ending {work : State → Res Unit}
    (h : preCheck (profileOf i s) s = none → Ends i s (work s)) : Ending i s (runCommand (profileOf i s) work s) := by
  unfold runCommand
  cases hc : preCheck (profileOf i s) s with
  | some c => exact .preCheck c hc
  | none =>
    have h := h hc
    simp only []
    split
    · exact .special hc ‹_›
    · cases hw : work s with
      | done a t =>
        rw [hw] at h
        obtain ⟨acc, t0, hr, hv, rfl⟩ := h
        exact .success acc t0 hc hr hv
      | raised c u =>
        rw [hw] at h
        rcases h with ⟨d, rfl, hs, hv⟩ | ⟨rfl, hi, hv, acc, t0, hr, rfl⟩
        · simp only [settle, busCause_isBus, if_true]
          exact .busError d u hc hs hv
        · exact .authFail acc t0 hc hi hv hr
      | hung u =>
        rw [hw] at h
        obtain ⟨d, hs, hv⟩ := h
        exact .stuck d u hc hs hv

/-- Work that keeps the composer state ends as its stretch does. -/
theorem Follows.ends {r : Res Unit} (h : ∀ ph, Follows (profileOf i s) ph s r)
    (hr : phaseRule i s = (· = s.status.phase)) (hp : successPhase i s = s.status.phase) (hi : i ≠ .aeadDecrypt) :
    Ends i s r := by
  have h := h (· = s.status.phase)
  cases r with
  | done a t =>
    obtain ⟨acc, hran⟩ := h
    refine ⟨acc, t, by rw [hr]; exact hran, fun e => absurd e hi, ?_⟩
    rw [hp, ← hran.phase rfl]
  | raised c u => obtain ⟨d, hc, hs⟩ := h; exact .inl ⟨d, hc, by rw [hr]; exact hs, fun e => absurd e hi⟩
  | hung u => obtain ⟨d, hs⟩ := h; exact ⟨d, by rw [hr]; exact hs, fun e => absurd e hi⟩

theorem preCheck_none {p : Profile} (h : preCheck p s = none) :
    s.regs.kmask = 0xFF#8 ∧ (p.usesNonce = true → s.regs.nmask = 0x7#3) ∧ p.minLen ≤ s.regs.len.value ∧
      p.inRange (spaceSize s) = true ∧ p.overlapForbidden = false ∧ p.capacityExceeded = false := by
  unfold preCheck at h
  split at h
  · cases h
  split at h
  · cases h
  split at h
  · cases h
  split at h
  · cases h
  split at h
  · cases h
  split at h
  · cases h
  rename_i h1 h2 h3 h4 h5 h6
  refine ⟨by simpa using h1, fun hn => ?_, by omega, by simpa using h4, by simpa using h5, by simpa using h6⟩
  by_contra hne
  exact h2 ⟨hn, hne⟩

theorem execChachaBlock_ending (s : State) : Ending .chachaBlock s (execChachaBlock s) :=
  runCommand_ending (i := .chachaBlock) fun _ => Follows.ends (i := .chachaBlock) (fun ph => chachaBlockWork_follows ph s) rfl rfl (by simp)

theorem execChachaApply_ending (s : State) : Ending .chachaApply s (execChachaApply s) :=
  runCommand_ending (i := .chachaApply) fun _ => Follows.ends (i := .chachaApply) (fun ph => chachaApplyWork_follows ph s) rfl rfl (by simp)

theorem execPoly1305Tag_ending (s : State) : Ending .poly1305Tag s (execPoly1305Tag s) :=
  runCommand_ending (i := .poly1305Tag) fun _ => Follows.ends (i := .poly1305Tag) (fun ph => poly1305TagWork_follows ph s) rfl rfl (by simp)

theorem execAeadEncrypt_ending (s : State) : Ending .aeadEncrypt s (execAeadEncrypt s) := by
  refine runCommand_ending (i := .aeadEncrypt) fun _ => ?_
  rw [aeadEncryptWork_eq]
  have h := aeadEncryptBody_follows s
  cases hb : aeadEncryptBody s with
  | done a t => rw [hb] at h; obtain ⟨acc, hr⟩ := h; exact ⟨acc, t, hr, by simp, rfl⟩
  | raised c u => rw [hb] at h; obtain ⟨d, hc, hs⟩ := h; exact .inl ⟨d, hc, hs, by simp⟩
  | hung u => rw [hb] at h; obtain ⟨d, hs⟩ := h; exact ⟨d, hs, by simp⟩

end Sys2Proof.Machine
end

