-- ==== Sys2Proof/Laws/Results.lean ====
section
/-! SUPPORT. What the work of each command computes when it is done: its accesses in order, its engine steps, the memory it leaves. Every state a command's work reaches has one form, `worked`. -/

namespace Sys2Proof.Machine

variable {s t u v : State}

/-- The state after engine work: the internal state, the composer state and memory it has come to, the accesses it made, the
engine steps it took beside them. -/
def worked (e : Engine) (q : Phase) (m : Memory) (tr : List MemAccess) (k : Nat) (s : State) : State :=
  { afterAccesses tr k s with engine := e, status.phase := q, mem := m }

@[simp] theorem worked_fields (e : Engine) (q : Phase) (m : Memory) (tr : List MemAccess) (k : Nat) (s : State) :
    (worked e q m tr k s).platform = s.platform ∧ (worked e q m tr k s).regs = s.regs ∧
      (worked e q m tr k s).engine = e ∧ (worked e q m tr k s).mem = m ∧ (worked e q m tr k s).status.phase = q ∧
      (worked e q m tr k s).bus = s.bus.drop tr.length :=
  ⟨rfl, rfl, rfl, rfl, rfl, rfl⟩

/-- Work after work is one stretch of work. -/
@[simp] theorem worked_worked (e f : Engine) (q r : Phase) (m n : Memory) (tr ur : List MemAccess) (k l : Nat) (s : State) :
    worked f r n ur l (worked e q m tr k s) = worked f r n (tr ++ ur) (k + l) s := by
  have h := afterAccesses_append s tr ur k l
  unfold worked
  rw [← h]
  rfl

theorem worked_self (s : State) : worked s.engine s.status.phase s.mem [] 0 s = s := by
  unfold worked; rw [afterAccesses_nil]

theorem busOk_worked (h : busOk s = true) (e : Engine) (q : Phase) (m : Memory) (tr : List MemAccess) (k : Nat) :
    busOk (worked e q m tr k s) = true :=
  busOk_drop h _

/-- Setting the internal state is work without accesses. -/
theorem setEngine_worked (e : Engine) (s : State) : { s with engine := e } = worked e s.status.phase s.mem [] 0 s := by
  unfold worked; rw [afterAccesses_nil]

theorem setPhase_worked (q : Phase) (s : State) : { s with status.phase := q } = worked s.engine q s.mem [] 0 s := by
  unfold worked; rw [afterAccesses_nil]

theorem setCounter_worked (c : Word) (s : State) :
    { s with engine.bc := c } = worked { s.engine with bc := c } s.status.phase s.mem [] 0 s := by
  unfold worked; rw [afterAccesses_nil]

theorem makeBlock_worked (s : State) : makeBlock s = worked (blockEngine s) s.status.phase s.mem [] 22 s := by
  rw [makeBlock_eq]; unfold worked afterAccesses
  simp only [List.length_nil, List.drop_zero, List.reverse_nil, List.nil_append, Nat.zero_add]

theorem memRead_worked {a n : Nat} {bs : Bytes} (h : memRead a n s = .done bs t) :
    bs = s.mem.bytes a n ∧ t = worked s.engine s.status.phase s.mem (readsOf a n) 0 s :=
  memRead_done h

theorem memRead_ok' (h : busOk s = true) (a n : Nat) :
    memRead a n s = .done (s.mem.bytes a n) (worked s.engine s.status.phase s.mem (readsOf a n) 0 s) :=
  memRead_ok h a n

theorem memWrite_ok' (h : busOk s = true) (a : Nat) (bs : Bytes) :
    memWrite a bs s = .done () (worked s.engine s.status.phase (s.mem.store a bs) (writesOf a bs.length) 0 s) :=
  memWrite_ok h a bs

theorem applyLoop_ok' (h : busOk s = true) (hw : s.mem.wf = true) (src dst n : Nat) (hd : apart src dst n) :
    ∃ e : Engine,
      e.sameButChaCha s.engine ∧
      applyLoop (blocksFor n) src dst n s =
        .done (applyStream s.regs.key s.regs.nonce s.engine.bc (s.mem.bytes src n))
          (worked e s.status.phase
            (s.mem.store dst (applyStream s.regs.key s.regs.nonce s.engine.bc (s.mem.bytes src n)))
            (blockAccesses src dst n) (22 * blocksFor n) s) :=
  applyLoop_ok h hw src dst n hd

/-! ### Key derivation and the tag -/

/-- Key derivation: the Poly1305 registers are set from the one-time key, 23 engine steps. -/
theorem deriveKey_worked (s : State) :
    ∃ e : Engine,
      deriveKey s = worked e .keyDerived s.mem [] 23 s ∧
        e.pr = clampedR (oneTimeKey s.regs.key s.regs.nonce) ∧ e.ps = additiveS (oneTimeKey s.regs.key s.regs.nonce) ∧
        e.h = 0 := by
  unfold deriveKey
  rw [makeBlock_eq]
  refine ⟨{ blockEngine { s with engine.bc := 0 } with
    otk := bytesVector 32 (oneTimeKey s.regs.key s.regs.nonce), pr := clampedR (oneTimeKey s.regs.key s.regs.nonce)
    ps := additiveS (oneTimeKey s.regs.key s.regs.nonce), h := 0 }, ?_, rfl, rfl, rfl⟩
  unfold worked
  simp only [afterAccesses, List.length_nil, List.drop_zero, List.reverse_nil, List.nil_append, Nat.zero_add]
  rfl

theorem ceilDiv_macLengths (al cl : Nat) : ceilDiv (macLengths al cl).length 16 = 1 := by
  simp [macLengths, ceilDiv]

theorem absorbAll_worked (m : Bytes) (s : State) :
    absorbAll m s =
      worked { s.engine with h := (polyBlocks m).foldl (absorbValue s.engine.pr.toNat) s.engine.h } s.status.phase s.mem []
        (ceilDiv m.length 16) s := by
  rw [absorbAll_eq]; unfold worked
  simp only [afterAccesses, List.length_nil, List.drop_zero, List.reverse_nil, List.nil_append, Nat.zero_add]

/-- The two absorptions of an AEAD command: the tag of what was absorbed, and the steps taken. -/
theorem absorbed_worked (ad ct : Bytes) (al cl : Nat) (s : State) {k : Bytes} (ha : ad.length = al) (hc : ct.length = cl)
    (hp : s.engine.pr = clampedR k) (hs : s.engine.ps = additiveS k) (hh : s.engine.h = 0) :
    ∃ e : Engine,
      absorbLengths al cl (absorbPayload ad ct s) = worked e .macComputed s.mem [] (ceilDiv al 16 + ceilDiv cl 16 + 1) s ∧
        polyFinal e.h e.ps.toNat = poly1305 k (macInput ad ct) ∧ e.etag = s.engine.etag := by
  subst ha hc
  refine ⟨{ s.engine with
    h := (polyBlocks (macLengths ad.length ct.length)).foldl (absorbValue s.engine.pr.toNat)
      ((polyBlocks (macPayload ad ct)).foldl (absorbValue s.engine.pr.toNat) s.engine.h) }, ?_, ?_, rfl⟩
  · rw [absorbLengths, absorbPayload, absorbAll_worked, setPhase_worked, absorbAll_worked, setPhase_worked]
    simp only [worked_worked, worked_fields, List.append_nil, ceilDiv_macPayload, ceilDiv_macLengths, Nat.add_zero]
  · show polyFinal _ s.engine.ps.toNat = _
    rw [← List.foldl_append, ← polyBlocks_append (length_macPayload ad ct), hp, hs, hh]
    rfl

theorem length_adBytes (s : State) : (adBytes s).length = s.regs.adlen.value := by simp [adBytes]
theorem length_srcBytes (s : State) : (srcBytes s).length = s.regs.len.value := by simp [srcBytes]
theorem length_ctBytes (s : State) : (ctBytes s).length = s.regs.len.value - 16 := by simp [ctBytes]
theorem length_rtagBytes (s : State) : (rtagBytes s).length = 16 := by simp [rtagBytes]

/-- The DIFF a decryption's comparison leaves is 0 exactly when it verifies. -/
theorem tagDiff_verifies (s : State) :
    tagDiff (aeadTag s.regs.key s.regs.nonce (adBytes s) (ctBytes s)) (rtagBytes s) = 0 ↔ verifies s := by
  rw [tagDiff_eq_zero (by simp [length_rtagBytes]), verifies]

theorem compareTags_worked (rtag : Bytes) (s : State) (h : rtag.length = 16) :
    compareTags rtag s =
      worked { s.engine with diff := tagDiff s.engine.etag.toList rtag } s.status.phase s.mem [] 16 s := by
  rw [compareTags_eq, h]; unfold worked
  simp only [afterAccesses, List.length_nil, List.drop_zero, List.reverse_nil, List.nil_append, Nat.zero_add, Vector.length_toList,
    Nat.min_self]

/-! ### AEAD_DECRYPT up to its comparison -/

/-- The accesses of a decryption's first pass: associated data, ciphertext, received tag (R67). -/
def verifyReads (s : State) : List MemAccess :=
  readsOf s.regs.ad.value s.regs.adlen.value ++ readsOf s.regs.src.value (s.regs.len.value - 16)
    ++ readsOf (s.regs.src.value + (s.regs.len.value - 16)) 16

theorem readsOf_append (a n k : Nat) : readsOf a (n + k) = readsOf a n ++ readsOf (a + n) k := by
  simp only [readsOf, List.range_add, List.map_append, List.map_map]
  congr 2
  funext i
  simp [Nat.add_assoc]

/-- The first pass reads the associated data, then all of the source. -/
theorem verifyReads_eq (s : State) (hl : 16 ≤ s.regs.len.value) :
    verifyReads s = readsOf s.regs.ad.value s.regs.adlen.value ++ readsOf s.regs.src.value s.regs.len.value := by
  have := readsOf_append s.regs.src.value (s.regs.len.value - 16) 16
  rw [Nat.sub_add_cancel hl] at this
  rw [this, verifyReads, List.append_assoc]

/-- The engine steps of a decryption's first pass beside its accesses. -/
def verifySteps (s : State) : Nat :=
  23 + (ceilDiv s.regs.adlen.value 16 + ceilDiv (s.regs.len.value - 16) 16 + 1) + 16

/-- The part of a decryption's first pass after its reads. -/
theorem verify_tail (x : State) (ad ct rtag : Bytes) (al cl : Nat) {k : Bytes} (ha : ad.length = al) (hc : ct.length = cl)
    (hr : rtag.length = 16) (hp : x.engine.pr = clampedR k) (hs : x.engine.ps = additiveS k) (hh : x.engine.h = 0) :
    ∃ e : Engine,
      (let w := absorbLengths al cl (absorbPayload ad ct x)
       compareTags rtag { w with engine.etag := bytesVector 16 (currentTag w) }) =
          worked e .macComputed x.mem [] (ceilDiv al 16 + ceilDiv cl 16 + 1 + 16) x ∧
        e.diff = tagDiff (poly1305 k (macInput ad ct)) rtag := by
  obtain ⟨f, hf, htag, _⟩ := absorbed_worked ad ct al cl x ha hc hp hs hh
  simp only [hf]
  have hcur : currentTag (worked f .macComputed x.mem [] (ceilDiv al 16 + ceilDiv cl 16 + 1) x) = poly1305 k (macInput ad ct) := htag
  rw [hcur, compareTags_worked _ _ hr]
  refine ⟨{ f with
    etag := bytesVector 16 (poly1305 k (macInput ad ct))
    diff := tagDiff (bytesVector 16 (poly1305 k (macInput ad ct))).toList rtag }, ?_, ?_⟩
  · have := setEngine_worked { f with etag := bytesVector 16 (poly1305 k (macInput ad ct)) }
      (worked f .macComputed x.mem [] (ceilDiv al 16 + ceilDiv cl 16 + 1) x)
    simp only [worked_fields] at this ⊢
    rw [this]
    simp only [worked_worked, List.append_nil, Nat.add_zero]
  · show tagDiff _ _ = _
    rw [toList_bytesVector (by simp [poly1305])]

theorem aeadDecryptVerify_done (h : aeadDecryptVerify s = .done () t) :
    ∃ e : Engine, t = worked e .macComputed s.mem (verifyReads s) (verifySteps s) s ∧ (e.diff = 0 ↔ verifies s) := by
  obtain ⟨e, hk, hpr, hps, hh⟩ := deriveKey_worked s
  unfold aeadDecryptVerify at h
  rw [hk] at h
  obtain ⟨ad, t1, h1, h⟩ := Res.andThen_done h
  obtain ⟨had, rfl⟩ := memRead_worked h1
  obtain ⟨ct, t2, h2, h⟩ := Res.andThen_done h
  obtain ⟨hct, rfl⟩ := memRead_worked h2
  obtain ⟨rtag, t3, h3, h⟩ := Res.andThen_done h
  obtain ⟨hrt, rfl⟩ := memRead_worked h3
  clear h1 h2 h3 hk
  have had : ad = adBytes s := had
  have hct : ct = ctBytes s := hct
  have hrt : rtag = rtagBytes s := hrt
  subst had hct hrt
  have h := (Res.done.inj h).2
  rw [← h]
  generalize hx : worked _ _ _ (readsOf ((worked _ _ _ _ _ (worked _ _ _ _ _ (worked _ _ _ _ _ s))).regs.src.value + _) 16) _ _ = x
  have hx : x = worked e .keyDerived s.mem (verifyReads s) 23 s := by
    rw [← hx]
    simp only [worked_worked, worked_fields, List.nil_append, Nat.add_zero, verifyReads]
  subst hx
  obtain ⟨f, hf, hd⟩ := verify_tail (worked e .keyDerived s.mem (verifyReads s) 23 s) (adBytes s) (ctBytes s) (rtagBytes s)
    s.regs.adlen.value (s.regs.len.value - 16) (k := oneTimeKey s.regs.key s.regs.nonce) (length_adBytes s) (length_ctBytes s)
    (length_rtagBytes s) hpr hps hh
  refine ⟨f, hf.trans ?_, ?_⟩
  · simp only [worked_worked, worked_fields, List.append_nil, verifySteps, Nat.add_assoc]
  · rw [hd]; exact tagDiff_verifies s

theorem aeadDecryptVerify_ok (h : busOk s = true) :
    ∃ e : Engine,
      aeadDecryptVerify s = .done () (worked e .macComputed s.mem (verifyReads s) (verifySteps s) s) ∧
        (e.diff = 0 ↔ verifies s) := by
  have hdone : ∃ t, aeadDecryptVerify s = .done () t := by
    obtain ⟨e, hk, _⟩ := deriveKey_worked s
    unfold aeadDecryptVerify
    dsimp only
    rw [hk, memRead_ok' (busOk_worked h _ _ _ _ _)]
    simp only [Res.andThen]
    rw [memRead_ok' (busOk_worked (busOk_worked h _ _ _ _ _) _ _ _ _ _)]
    simp only []
    rw [memRead_ok' (busOk_worked (busOk_worked (busOk_worked h _ _ _ _ _) _ _ _ _ _) _ _ _ _ _)]
    exact ⟨_, rfl⟩
  obtain ⟨t, ht⟩ := hdone
  obtain ⟨e, rfl, hd⟩ := aeadDecryptVerify_done ht
  exact ⟨e, ht, hd⟩

/-! ### What no forbidden overlap leaves (R65) -/

theorem apart_of_regions {p : Profile} {a n d m k : Nat} (hs : p.src = some ⟨a, n⟩) (hd : p.dst = some ⟨d, m⟩)
    (ho : p.overlapForbidden = false) (h1 : k ≤ n) (h2 : k ≤ m) (hi : p.inPlace = true) : apart a d k := by
  unfold apart
  by_contra hne
  have : p.overlapForbidden = true := by
    simp only [Profile.overlapForbidden, Profile.writes, hd, hs, Option.toList_some, List.any_cons, List.any_nil, Bool.or_false,
      Region.overlaps, hi, Bool.true_and, Bool.or_eq_true, Bool.and_eq_true, decide_eq_true_eq, Bool.not_eq_true',
      decide_eq_false_iff_not]
    refine .inr ⟨⟨⟨⟨?_, ?_⟩, ?_⟩, ?_⟩, ?_⟩ <;> omega
  rw [ho] at this; cases this

/-! ### The work of the commands when every access is answered -/

theorem chachaBlockWork_ok (h : busOk s = true) :
    ∃ e : Engine,
      chachaBlockWork s =
        .done () (worked e s.status.phase
          (s.mem.store s.regs.dst.value (chachaBlock s.regs.key s.regs.nonce s.regs.ctr)) (writesOf s.regs.dst.value 64) 22 s) := by
  unfold chachaBlockWork
  rw [setCounter_worked, makeBlock_worked]
  simp only [worked_worked, worked_fields, List.append_nil]
  rw [memWrite_ok' (busOk_worked h _ _ _ _ _)]
  refine ⟨blockEngine (worked { s.engine with bc := s.regs.ctr } s.status.phase s.mem [] 0 s), ?_⟩
  simp only [worked_worked, worked_fields, List.nil_append, length_serialize, Nat.zero_add, Nat.add_zero]
  rfl

theorem chachaApplyWork_ok (h : busOk s = true) (hw : s.mem.wf = true)
    (hd : apart s.regs.src.value s.regs.dst.value s.regs.len.value) :
    ∃ e : Engine,
      chachaApplyWork s =
        .done () (worked e s.status.phase
          (s.mem.store s.regs.dst.value (applyStream s.regs.key s.regs.nonce s.regs.ctr (srcBytes s)))
          (blockAccesses s.regs.src.value s.regs.dst.value s.regs.len.value) (22 * blocksFor s.regs.len.value) s) := by
  unfold chachaApplyWork
  rw [setCounter_worked]
  obtain ⟨e, _, he⟩ := applyLoop_ok' (s := worked { s.engine with bc := s.regs.ctr } s.status.phase s.mem [] 0 s)
    (busOk_worked h _ _ _ _ _) hw s.regs.src.value s.regs.dst.value s.regs.len.value hd
  rw [he]
  refine ⟨e, ?_⟩
  simp only [Res.andThen, worked_worked, worked_fields, List.nil_append, Nat.zero_add]
  rfl

theorem poly1305TagWork_ok (h : busOk s = true) :
    ∃ e : Engine,
      poly1305TagWork s =
        .done () (worked e s.status.phase
          (s.mem.store s.regs.dst.value (poly1305 (keyBytes s) (srcBytes s)))
          (readsOf s.regs.src.value s.regs.len.value ++ writesOf s.regs.dst.value 16)
          (1 + ceilDiv s.regs.len.value 16) s) := by
  have hk : ∀ x : State, setPolyKey (keyBytes s) x =
      worked { x.engine with pr := clampedR (keyBytes s), ps := additiveS (keyBytes s), h := 0 } x.status.phase x.mem [] 1 x := by
    intro x; unfold worked
    simp only [setPolyKey, tick, afterAccesses, List.length_nil, List.drop_zero, List.reverse_nil, List.nil_append, Nat.zero_add]
  have hkb : ∀ (e : Engine) q m tr k, keyBytes (worked e q m tr k s) = keyBytes s := fun _ _ _ _ _ => rfl
  unfold poly1305TagWork
  rw [memRead_ok' h]
  simp only [Res.andThen]
  rw [hkb, hk, absorbAll_worked]
  simp only [worked_worked, worked_fields, List.append_nil]
  rw [memWrite_ok' (busOk_worked h _ _ _ _ _)]
  refine ⟨{ s.engine with
    pr := clampedR (keyBytes s), ps := additiveS (keyBytes s), h := polyHash (clampedR (keyBytes s)).toNat (srcBytes s) }, ?_⟩
  simp only [worked_worked, worked_fields, Nat.zero_add, Memory.length_bytes, currentTag, length_polyFinal, Nat.add_zero]
  rfl

theorem aeadEncryptWork_ok (h : busOk s = true) (hw : s.mem.wf = true)
    (hd : apart s.regs.src.value s.regs.dst.value s.regs.len.value) :
    ∃ e : Engine,
      aeadEncryptWork s =
        .done () (worked e .tagged
          (s.mem.store s.regs.dst.value (aeadSeal s.regs.key s.regs.nonce (adBytes s) (srcBytes s)))
          (readsOf s.regs.ad.value s.regs.adlen.value ++ blockAccesses s.regs.src.value s.regs.dst.value s.regs.len.value
            ++ writesOf (s.regs.dst.value + s.regs.len.value) 16)
          (23 + 22 * blocksFor s.regs.len.value + (ceilDiv s.regs.adlen.value 16 + ceilDiv s.regs.len.value 16 + 1)) s) := by
  obtain ⟨e, hk, hpr, hps, hh⟩ := deriveKey_worked s
  unfold aeadEncryptWork
  simp only []
  rw [hk, memRead_ok' (busOk_worked h _ _ _ _ _)]
  simp only [Res.andThen, worked_worked, List.nil_append, Nat.add_zero]
  rw [setCounter_worked]
  simp only [worked_worked, worked_fields, List.append_nil, Nat.add_zero]
  obtain ⟨f, hf, hrun⟩ := applyLoop_ok' (s := worked { e with bc := 1 } .keyDerived s.mem
    (readsOf s.regs.ad.value s.regs.adlen.value) 23 s) (busOk_worked h _ _ _ _ _) hw s.regs.src.value s.regs.dst.value
    s.regs.len.value hd
  rw [hrun]
  simp only [worked_worked, worked_fields]
  obtain ⟨g, hg, htag, _⟩ := absorbed_worked (adBytes s) (applyStream s.regs.key s.regs.nonce 1 (srcBytes s))
    s.regs.adlen.value s.regs.len.value
    (worked f .keyDerived (s.mem.store s.regs.dst.value (applyStream s.regs.key s.regs.nonce 1 (srcBytes s)))
      (readsOf s.regs.ad.value s.regs.adlen.value ++ blockAccesses s.regs.src.value s.regs.dst.value s.regs.len.value)
      (23 + 22 * blocksFor s.regs.len.value) s)
    (length_adBytes s) (by rw [length_applyStream, length_srcBytes]) (k := oneTimeKey s.regs.key s.regs.nonce)
    (hf.2.1.trans hpr) (hf.2.2.1.trans hps) (hf.1.trans hh)
  have hg' := hg
  unfold adBytes srcBytes at hg'
  rw [hg']
  have hcur : ∀ q m tr k, currentTag (worked g q m tr k s) =
      aeadTag s.regs.key s.regs.nonce (adBytes s) (applyStream s.regs.key s.regs.nonce 1 (srcBytes s)) := fun _ _ _ _ => htag
  simp only [worked_worked, worked_fields, List.append_nil]
  rw [hcur, memWrite_ok' (busOk_worked h _ _ _ _ _)]
  simp only []
  refine ⟨g, ?_⟩
  rw [setPhase_worked]
  simp only [worked_worked, worked_fields, List.append_nil, Nat.add_zero, length_aeadTag]
  rw [aeadSeal, Memory.store_append, length_applyStream, length_srcBytes]
  rfl

/-- The second pass of a decryption whose tags match. -/
theorem aeadDecryptRelease_ok {e : Engine} {tr : List MemAccess} {k : Nat} (h : busOk s = true) (hw : s.mem.wf = true)
    (hd : apart s.regs.src.value s.regs.dst.value (s.regs.len.value - 16)) (he : e.diff = 0) :
    ∃ f : Engine,
      aeadDecryptRelease (worked e .macComputed s.mem tr k s) =
        .done () (worked f .verified
          (s.mem.store s.regs.dst.value (applyStream s.regs.key s.regs.nonce 1 (ctBytes s)))
          (tr ++ blockAccesses s.regs.src.value s.regs.dst.value (s.regs.len.value - 16))
          (k + 22 * blocksFor (s.regs.len.value - 16)) s) := by
  rw [aeadDecryptRelease, if_pos (show (worked e .macComputed s.mem tr k s).engine.diff = 0 from he), setPhase_worked]
  simp only [worked_worked, worked_fields, List.append_nil, Nat.add_zero]
  unfold aeadDecryptSecondPass
  rw [setCounter_worked]
  simp only [worked_worked, worked_fields, List.append_nil, Nat.add_zero]
  obtain ⟨f, _, hrun⟩ := applyLoop_ok' (s := worked { e with bc := 1 } .verified s.mem tr k s) (busOk_worked h _ _ _ _ _) hw
    s.regs.src.value s.regs.dst.value (s.regs.len.value - 16) hd
  rw [hrun]
  refine ⟨f, ?_⟩
  simp only [Res.andThen, worked_worked, worked_fields]
  rfl

/-! ### AEAD_DECRYPT and the endings of every keyed command -/

/-- The work of AEAD_DECRYPT on a right tag. -/
theorem aeadDecryptWork_ok (h : busOk s = true) (hw : s.mem.wf = true)
    (hd : apart s.regs.src.value s.regs.dst.value (s.regs.len.value - 16)) (hv : verifies s) :
    ∃ f : Engine,
      aeadDecryptWork s =
        .done () (worked f .verified
          (s.mem.store s.regs.dst.value (applyStream s.regs.key s.regs.nonce 1 (ctBytes s)))
          (verifyReads s ++ blockAccesses s.regs.src.value s.regs.dst.value (s.regs.len.value - 16))
          (verifySteps s + 22 * blocksFor (s.regs.len.value - 16)) s) := by
  obtain ⟨e, he, hde⟩ := aeadDecryptVerify_ok (s := s) h
  obtain ⟨f, hf⟩ := aeadDecryptRelease_ok (s := s) (tr := verifyReads s) (k := verifySteps s) h hw hd (hde.mpr hv)
  refine ⟨f, ?_⟩
  rw [aeadDecryptWork, he]
  exact hf

/-- The work of AEAD_DECRYPT on a wrong tag. -/
theorem aeadDecryptWork_wrong (h : busOk s = true) (hv : ¬verifies s) :
    ∃ e : Engine,
      aeadDecryptWork s = .raised .authFail (worked e .rejected s.mem (verifyReads s) (verifySteps s) s) := by
  obtain ⟨e, he, hde⟩ := aeadDecryptVerify_ok (s := s) h
  refine ⟨e, ?_⟩
  rw [aeadDecryptWork, he]
  show aeadDecryptRelease _ = _
  have hne : ¬(worked e .macComputed s.mem (verifyReads s) (verifySteps s) s).engine.diff = 0 := fun hd => hv (hde.mp hd)
  rw [aeadDecryptRelease, if_neg hne, setPhase_worked, worked_worked, List.append_nil, Nat.add_zero]
  rfl

theorem execAeadDecrypt_ending (s : State) : Ending .aeadDecrypt s (execAeadDecrypt s) := by
  refine runCommand_ending (i := .aeadDecrypt) fun hc => ?_
  have hl : 16 ≤ s.regs.len.value := (preCheck_none hc).2.2.1
  have hf := aeadDecryptVerify_follows (s := s) hl
  unfold aeadDecryptWork
  cases hv : aeadDecryptVerify s with
  | raised c u =>
    rw [hv] at hf
    obtain ⟨d, hc, hs⟩ := hf
    exact .inl ⟨d, hc, hs.weaken rfl rfl, fun _ _ => hs⟩
  | hung u =>
    rw [hv] at hf
    obtain ⟨d, hs⟩ := hf
    exact ⟨d, hs.weaken rfl rfl, fun _ _ => hs⟩
  | done a t =>
    rw [hv] at hf
    obtain ⟨acc, hran⟩ := hf
    obtain ⟨e, ht, hd⟩ := aeadDecryptVerify_done hv
    have hde : t.engine.diff = 0 ↔ verifies s := by rw [ht]; exact hd
    show Ends .aeadDecrypt s (aeadDecryptRelease t)
    by_cases h0 : t.engine.diff = 0
    · have hr := (aeadDecryptRelease_follows (s := s) hran.regs h0).after
        (hran.weaken (p := aeadDecryptProfile s) rfl rfl)
      have hp := aeadDecryptRelease_phase hran.regs h0
      cases hw : aeadDecryptRelease t with
      | raised c u => rw [hw] at hr; obtain ⟨d, hc, hs⟩ := hr; exact .inl ⟨d, hc, hs, fun _ hn => absurd (hde.mp h0) hn⟩
      | hung u => rw [hw] at hr; obtain ⟨d, hs⟩ := hr; exact ⟨d, hs, fun _ hn => absurd (hde.mp h0) hn⟩
      | done b w =>
        rw [hw] at hr
        obtain ⟨acc', hran'⟩ := hr
        refine ⟨acc', w, hran', fun _ => hde.mp h0, ?_⟩
        rw [show successPhase .aeadDecrypt s = w.status.phase from (hp w hw).symm]
    · have hr : aeadDecryptRelease t = .raised .authFail { t with status.phase := .rejected } := by
        rw [aeadDecryptRelease, if_neg h0]
      rw [hr]
      exact .inr ⟨rfl, rfl, fun h => h0 (hde.mpr h), acc, t, hran, rfl⟩

/-- Every keyed command ends in one of the ways of `Ending`. -/
theorem exec_ending {i : Instr} (h : isKeyed i = true) (s : State) : Ending i s (exec i s) := by
  cases i with
  | chachaBlock => exact execChachaBlock_ending s
  | chachaApply => exact execChachaApply_ending s
  | poly1305Tag => exact execPoly1305Tag_ending s
  | aeadEncrypt => exact execAeadEncrypt_ending s
  | aeadDecrypt => exact execAeadDecrypt_ending s
  | zeroize => cases h
  | hostWr _ _ => cases h
  | hostRd _ => cases h

theorem runCommand_ready {p : Profile} {work : State → Res Unit} (h : ready p s) (hw : work s = .done () t) :
    runCommand p work s = .next (completeCommand .success t) := by
  unfold runCommand
  rw [h.1]
  simp only [h.2.1, hw]
  rfl

end Sys2Proof.Machine
end

