-- ==== Sys2Proof/Laws/Step.lean ====
section
/-! SUPPORT. What one step can do, said once: the move it takes (`Moved`), and how the engine's step can end (`EngineEnds`). -/

namespace Sys2Proof.Machine

variable {s t : State} {i : Instr}

/-- What the engine's step leaves, by the command word in CUR_OP. -/
inductive EngineEnds (s t : State) : Prop where
  /-- An illegal word completes (R123). -/
  | illegal (e : DecodeError) (h : decodeCommand s.curOp = .error e) (ht : t = completeCommand (illegalCause e) s)
  /-- ZEROIZE (R122). -/
  | zeroize (h : decodeCommand s.curOp = .ok .zeroize)
    (ht : t = completeCommand .success { s with regs.nonce := Vector.replicate 3 0, regs.nmask := 0 })
  /-- A keyed command ends as `Ending` says. -/
  | keyed (i : Instr) (h : decodeCommand s.curOp = .ok i) (hk : isKeyed i = true) (he : Ending i s (.next t))

theorem decodeCommand_isCommand {w : Word} (h : decodeCommand w = .ok i) : i = .zeroize ∨ isKeyed i = true := by
  have h := (decodeCommand_ok h).1
  cases i <;> first
    | exact .inl rfl
    | exact .inr rfl
    | cases h

/-- What a read of PHASE draws from is the engine's own step. -/
theorem engineRun_eq (s : State) : engineRun s = engineMove s := by
  unfold engineRun engineMove
  cases h : decodeCommand s.curOp with
  | error e => rfl
  | ok i =>
    rcases decodeCommand_isCommand h with rfl | hk
    · rfl
    · cases i <;> first
        | rfl
        | cases hk

theorem engineMove_next (h : engineMove s = .next t) : EngineEnds s t := by
  unfold engineMove at h
  split at h
  · rename_i i hd
    rcases decodeCommand_isCommand hd with rfl | hk
    · exact .zeroize hd (by injection h with h; exact h.symm)
    · exact .keyed i hd hk (h ▸ exec_ending hk s)
  · rename_i e hd
    exact .illegal e hd (by injection h with h; exact h.symm)

/-- The flags an engine's step leaves: a completion, or BUSY still set with an access outstanding. -/
theorem EngineEnds.flags (h : EngineEnds s t) (hb : s.status.busy = true) :
    (t.status.busy = false ∧ t.status.done = true) ∨
      (t.status.busy = true ∧ t.memReq ≠ none ∧ t.status.done = s.status.done ∧ t.status.wdrop = s.status.wdrop) := by
  cases h with
  | illegal e h ht => subst ht; exact .inl ⟨rfl, rfl⟩
  | zeroize h ht => subst ht; exact .inl ⟨rfl, rfl⟩
  | keyed i h hk he =>
    cases he with
    | preCheck c h => exact .inl ⟨rfl, rfl⟩
    | success => exact .inl ⟨rfl, rfl⟩
    | busError => exact .inl ⟨rfl, rfl⟩
    | authFail => exact .inl ⟨rfl, rfl⟩
    | stuck d u hc st hv =>
      obtain ⟨acc, v, a, ran, hans, hin, hu⟩ := st
      rw [if_pos rfl] at hu
      have hf := ran.flags
      subst hu
      refine .inr ⟨?_, by simp, ?_, ?_⟩
      · show v.status.busy = true; rw [hf]; exact hb
      · show v.status.done = _; rw [hf]
      · show v.status.wdrop = _; rw [hf]

/-- A host access may stand at an address: the byte exists, there is no race, and it is no byte of side-effect memory. -/
def Accessible (a : Nat) (races : Bool) (s : State) : Prop :=
  a < spaceSize s ∧ races = false ∧ isDevice a s = false

theorem checkAccess_next {k : HostAccess} {a : Nat} {races : Bool} {u : State} (h : checkAccess k a races s u = .next t) :
    Accessible a races s ∧ t = u := by
  unfold checkAccess at h
  split at h
  · cases h
  split at h
  · cases h
  split at h
  · cases h
  · injection h with h
    exact ⟨⟨by omega, eq_false_of_ne_true ‹_›, eq_false_of_ne_true ‹_›⟩, h.symm⟩

theorem onNext_next {o : Host.Outcome State Fault Refusal} {f : State → State} (h : onNext o f = .next t) :
    ∃ u, o = .next u ∧ t = f u := by
  cases o with
  | next u => injection h with h; exact ⟨u, rfl, h.symm⟩
  | fault e => cases h
  | refused r => cases h

/-- What one move leaves, from the state whose list of moves no longer holds it. -/
inductive Moved (m : Move) (s t : State) : Prop where
  /-- HOST_WR (R21). -/
  | write (x : BitVec 40) (r : Reg) (d : Word) (hm : m = .xact x) (h : decodeHost x = .ok (.hostWr r d))
    (hr : r = .cmd → s.status.busy = false → postedRace d s = none ∧ reachesDevice d s = false) (ht : t = writeReg r d s)
  /-- HOST_RD (R21). -/
  | read (x : BitVec 40) (r : Reg) (hm : m = .xact x) (h : decodeHost x = .ok (.hostRd r))
    (ht : t = { (readReg r s).2 with rdata := (readReg r s).1 })
  /-- The engine has no step to take (R224, R249). -/
  | rest (hm : m = .engine) (he : engineEnabled s = false) (ht : t = s)
  /-- The engine's step (R107). -/
  | engine (hm : m = .engine) (hb : s.status.busy = true) (hr : s.memReq = none) (he : EngineEnds s t)
  /-- Reset (R225). -/
  | reset (hm : m = .reset) (ht : t = resetMachine s)
  /-- A host store performed at once (R244). -/
  | store (a : Nat) (b : Byte) (hm : m = .store a b) (ha : Accessible a (storeRaces a s) s)
    (ht : t = { s with mem := s.mem.write a b })
  /-- A host store posted (R234). -/
  | post (a : Nat) (b : Byte) (hm : m = .storePosted a b) (ha : Accessible a (storeRaces a s) s)
    (ht : t = { s with host.posted := s.host.posted ++ [(a, b)] })
  /-- The oldest posted store performed (R234). -/
  | drain (a : Nat) (b : Byte) (rest : List Host.Cell) (hm : m = .drain) (hp : s.host.posted = (a, b) :: rest)
    (ht : t = { s with host.posted := rest, mem := s.mem.write a b })
  /-- Nothing to drain. -/
  | drained (hm : m = .drain) (ht : t = s)
  /-- A host load (R244). -/
  | load (a : Nat) (hm : m = .load a) (ha : Accessible a (loadRaces a s) s) (ht : t = { s with host.hostByte := hostView a s })
  /-- A poll of a host that waits (R98). -/
  | poll (n : Nat) (u : State) (hm : m = .wait (n + 1)) (hu : u = { (readReg .status s).2 with rdata := (readReg .status s).1 })
    (ht : t = if u.rdata.getLsbD 0 then keepWaiting n u else u)
  /-- The engine's turn while the host waits (R98, R242). -/
  | await (u : State) (hm : m = .wait 0)
    (hu : (engineEnabled s = false ∧ u = s) ∨ (s.status.busy = true ∧ s.memReq = none ∧ EngineEnds s u))
    (ht : t = keepWaiting 1 u)

theorem decodeHost_isHost {x : BitVec 40} (h : decodeHost x = .ok i) : (∃ r d, i = .hostWr r d) ∨ ∃ r, i = .hostRd r := by
  unfold decodeHost at h
  simp only [] at h
  split at h
  · injection h with h; exact .inl ⟨_, _, h.symm⟩
  split at h
  · split at h
    · injection h with h; exact .inr ⟨_, h.symm⟩
    · cases h
  · cases h

theorem execHostWr_next {r : Reg} {d : Word} (h : execHostWr r d s = .next t) :
    (r = .cmd → s.status.busy = false → postedRace d s = none ∧ reachesDevice d s = false) ∧ t = writeReg r d s := by
  unfold execHostWr at h
  split at h
  · split at h
    · cases h
    · split at h
      · cases h
      · injection h with h; exact ⟨fun _ _ => ⟨‹_›, eq_false_of_ne_true ‹_›⟩, h.symm⟩
  · injection h with h
    rename_i hn
    exact ⟨fun hr hb => absurd ⟨hr, hb⟩ hn, h.symm⟩

theorem engineTurn_next (h : engineTurn s = .next t) :
    (engineEnabled s = false ∧ t = s) ∨ (s.status.busy = true ∧ s.memReq = none ∧ EngineEnds s t) := by
  unfold engineTurn at h
  split at h
  · rename_i he
    simp only [engineEnabled, Bool.and_eq_true, Option.isNone_iff_eq_none] at he
    exact .inr ⟨he.1, he.2, engineMove_next h⟩
  · rename_i he
    injection h with h
    exact .inl ⟨eq_false_of_ne_true he, h.symm⟩

theorem doMove_next {m : Move} (h : doMove m s = .next t) : Moved m s t := by
  cases m with
  | xact x =>
    simp only [doMove, hostTransaction] at h
    split at h
    · rename_i i hd
      rcases decodeHost_isHost hd with ⟨r, d, rfl⟩ | ⟨r, rfl⟩
      · exact .write x r d rfl hd (execHostWr_next h).1 (execHostWr_next h).2
      · exact .read x r rfl hd (by injection h with h; exact h.symm)
    · cases h
  | engine =>
    rcases engineTurn_next h with ⟨he, ht⟩ | ⟨hb, hr, he⟩
    · exact .rest rfl he ht
    · exact .engine rfl hb hr he
  | reset => injection h with h; exact .reset rfl h.symm
  | store a b =>
    exact .store a b rfl (checkAccess_next h).1 (checkAccess_next h).2
  | storePosted a b =>
    exact .post a b rfl (checkAccess_next h).1 (checkAccess_next h).2
  | drain =>
    simp only [doMove, hostDrain] at h
    split at h
    · injection h with h; exact .drained rfl h.symm
    · injection h with h; exact .drain _ _ _ rfl ‹_› h.symm
  | load a => exact .load a rfl (checkAccess_next h).1 (checkAccess_next h).2
  | wait n =>
    cases n with
    | zero =>
      obtain ⟨u, hu, ht⟩ := onNext_next (o := engineTurn s) h
      exact .await u rfl (engineTurn_next hu) ht
    | succ n =>
      obtain ⟨u, hu, ht⟩ := onNext_next (o := exec (.hostRd .status) s)
        (f := fun t => if t.rdata.getLsbD 0 then keepWaiting n t else t) h
      exact .poll n u rfl (by injection hu with hu; exact hu.symm) ht

/-- A step that answers a next state takes the next move, or the engine's turn when none is left. -/
theorem step_next (h : step s = .next t) :
    platformRefusal s.platform = none ∧
      ((s.host.moves = [] ∧ Moved .engine s t) ∨
        ∃ m rest, s.host.moves = m :: rest ∧ Moved m { s with host.moves := rest } t) := by
  unfold step at h
  split at h
  · cases h
  · rename_i hp
    refine ⟨hp, ?_⟩
    unfold nextMove at h
    split at h
    · exact .inl ⟨‹_›, doMove_next (m := .engine) h⟩
    · exact .inr ⟨_, _, ‹_›, doMove_next h⟩

/-! ### Small facts every use of the inversion needs -/

theorem unlessBusy_cases (s u : State) :
    (s.status.busy = true ∧ unlessBusy s u = { s with status.wdrop := true }) ∨ (s.status.busy = false ∧ unlessBusy s u = u) := by
  unfold unlessBusy
  cases hb : s.status.busy <;> simp

theorem readReg_state (r : Reg) (s : State) : ∃ n, (readReg r s).2 = { s with draws := n } := by
  unfold readReg
  split
  · exact ⟨_, rfl⟩
  · exact ⟨s.draws, rfl⟩

theorem activeWrites_cases (w : Word) (s : State) :
    (preCheck (wordProfile w s) s = none ∧ activeWrites w s = (wordProfile w s).writes) ∨ activeWrites w s = [] := by
  unfold activeWrites
  simp only []
  split
  · exact .inl ⟨‹_›, rfl⟩
  · exact .inr rfl

/-- Reset: everything of the hardware at its reset value, memory as it was but for the written regions of a command abandoned. -/
theorem resetMachine_spec (s : State) (h : s.mem.wf = true) :
    ∃ (m : Memory) (n : Nat),
      resetMachine s = { State.reset with platform := s.platform, mem := m, bus := s.bus, host := s.host, draws := n } ∧
        m.wf = true ∧ (s.status.busy = false → m = s.mem ∧ n = s.draws) ∧
        (∀ x, inRegions (wordProfile s.curOp s).writes x = false → m.read x = s.mem.read x) ∧
        (Memory.below (spaceSize s) s.mem = true → Memory.below (spaceSize s) m = true) := by
  unfold resetMachine
  cases hb : s.status.busy with
  | false => exact ⟨s.mem, s.draws, rfl, h, fun _ => ⟨rfl, rfl⟩, fun _ _ => rfl, id⟩
  | true =>
    obtain ⟨m, n, e, hw, hr, hl⟩ := scramble_spec (activeWrites s.curOp s) s h
    refine ⟨m, n, ?_, hw, fun e => absurd e (by decide), fun x hx => hr x ?_, fun hbel => hl _ hbel fun r hr => ?_⟩
    · rw [if_pos rfl, e]; rfl
    · rcases activeWrites_cases s.curOp s with ⟨_, hw⟩ | hw <;> rw [hw]
      · exact hx
      · rfl
    · rcases activeWrites_cases s.curOp s with ⟨hc, hw⟩ | hw <;> rw [hw] at hr
      · have hin := (preCheck_none hc).2.2.2.1
        simp only [Profile.inRange, List.all_eq_true, List.mem_append, decide_eq_true_eq] at hin
        exact hin r (.inr hr)
      · cases hr

end Sys2Proof.Machine
end

