-- ==== Sys2Proof/Laws/Invariant.lean ====
section
/-! SUPPORT. What the invariant needs of a completion and of an interrupted command. -/

namespace Sys2Proof.Machine

variable {s t u : State} {p : Profile} {ph : Phase → Prop} {acc : List MemAccess} {i : Instr}

theorem engineZero_bounds :
    Engine.zero.h < polyPrime ∧ Engine.zero.pr &&& clampMask = Engine.zero.pr ∧ Engine.zero.rc ≤ 20 := by
  decide

/-- A completion restores the invariant from little: memory, the posted stores, the nonce, and a composer state that fits the
cause. -/
theorem Inv.complete {c : Cause} (hw : u.mem.wf = true) (hb : Memory.below (spaceSize u) u.mem = true)
    (hp : Memory.below (spaceSize u) u.host.posted = true)
    (hn : ∀ j : Fin 3, u.regs.nmask.getLsbD j.val = false → u.regs.nonce[j] = 0) (hreq : u.memReq = none)
    (hrej : c.errCode = 4 ↔ u.status.phase = .rejected)
    (hun : c.errCode = 1 ∨ c.errCode = 2 ∨ c.errCode = 3 → u.status.phase = .init)
    (htag : u.status.phase = .tagged → c.errCode = 0) : Inv (completeCommand c u) where
  memWf := hw
  memBelow := hb
  postedBelow := hp
  record := ⟨c, rfl, rfl⟩
  residue := engineZero_bounds.1
  clamped := engineZero_bounds.2.1
  rounds := engineZero_bounds.2.2
  keyUnset := fun j _ => by simp
  nonceUnset := hn
  ordinary := fun h => by cases h
  idle := fun _ => ⟨rfl, hreq⟩
  running := fun h => by cases h
  accepted := fun h => by cases h
  rejected := hrej
  unstarted := hun
  tagged := htag

/-- Work of a command that has passed its pre-checks keeps every listed byte inside the address space. -/
theorem Ran.below (h : Ran p ph acc s t) (hr : p.inRange (spaceSize s) = true)
    (hb : Memory.below (spaceSize s) s.mem = true) : Memory.below (spaceSize t) t.mem = true := by
  have e : spaceSize t = spaceSize s := by unfold spaceSize; rw [h.platform]
  rw [e]
  refine h.memBelow _ hb fun r hx => ?_
  simp only [Profile.inRange, List.all_eq_true, List.mem_append, decide_eq_true_eq] at hr
  exact hr r (.inr hx)

theorem inRange_writes (h : p.inRange n = true) : ∀ r ∈ p.writes, r.base + r.len ≤ n := by
  intro r hx
  simp only [Profile.inRange, List.all_eq_true, List.mem_append, decide_eq_true_eq] at h
  exact h r (.inr hx)

/-- The cause a pre-check fails with is one of those after which the command has not started. -/
theorem preCheck_some {c : Cause} (h : preCheck p s = some c) : c.errCode = 2 ∨ c.errCode = 3 := by
  unfold preCheck at h
  repeat' split at h
  all_goals first
    | (injection h with h; subst h; decide)
    | cases h

theorem wordProfile_ok {w : Word} (h : decodeCommand w = .ok i) : wordProfile w s = profileOf i s := by
  unfold wordProfile; rw [h]

theorem inRegions_append {rs qs : List Region} {x : Nat} :
    inRegions (rs ++ qs) x = (inRegions rs x || inRegions qs x) := by
  simp [inRegions]

end Sys2Proof.Machine
end

