-- ==== Sys2Proof/Laws/PreCheck.lean ====
section
/-! SUPPORT. The pre-checks of each keyed command, spelled out: what the tests on its profile say of its registers. -/

namespace Sys2Proof.Machine

variable {i : Instr} {s : State}

theorem inRange_iff (hk : isKeyed i = true) :
    (profileOf i s).inRange (spaceSize s) = true ↔ regionsInRange i s := by
  cases i <;> first
    | exact absurd hk Bool.false_ne_true
    | simp [profileOf, chachaBlockProfile, chachaApplyProfile, poly1305TagProfile, aeadEncryptProfile, aeadDecryptProfile,
        Profile.inRange, Profile.reads, Profile.writes, regionsInRange]

theorem overlapForbidden_iff (hk : isKeyed i = true) :
    (profileOf i s).overlapForbidden = true ↔ regionsClash i s := by
  cases i <;> first
    | exact absurd hk Bool.false_ne_true
    | simp [profileOf, chachaBlockProfile, chachaApplyProfile, poly1305TagProfile, aeadEncryptProfile, aeadDecryptProfile,
        Profile.overlapForbidden, Profile.writes, Region.overlaps, regionsClash, meet, and_assoc]

theorem capacityExceeded_iff (hk : isKeyed i = true) :
    (profileOf i s).capacityExceeded = true ↔ overCapacity i s := by
  have hc := s.regs.ctr.isLt
  rw [Profile.capacityExceeded, decide_eq_true_eq]
  cases i <;> first
    | exact absurd hk Bool.false_ne_true
    | exact Iff.rfl
    | (simp only [profileOf, chachaBlockProfile, poly1305TagProfile, overCapacity, iff_false, Nat.not_lt]; omega)

theorem usesNonce_eq (hk : isKeyed i = true) : (profileOf i s).usesNonce = usesNonce i := by
  cases i <;> first
    | exact absurd hk Bool.false_ne_true
    | rfl

theorem minLen_iff (hk : isKeyed i = true) :
    s.regs.len.value < (profileOf i s).minLen ↔ i = .aeadDecrypt ∧ s.regs.len.value < 16 := by
  cases i <;> first
    | exact absurd hk Bool.false_ne_true
    | simp [profileOf, chachaBlockProfile, chachaApplyProfile, poly1305TagProfile, aeadEncryptProfile, aeadDecryptProfile]

/-- A failed pre-check is the whole command. -/
theorem exec_preCheck {c : Cause} (hk : isKeyed i = true) (h : preCheck (profileOf i s) s = some c) :
    exec i s = .next (completeCommand c s) := by
  cases i <;> first
    | exact absurd hk Bool.false_ne_true
    | (simp only [profileOf] at h
       simp only [exec, execChachaBlock, execChachaApply, execPoly1305Tag, execAeadEncrypt, execAeadDecrypt, runCommand, h])

/-- Where no memory has side effects no command reaches any. -/
theorem reachesDevice_none (w : Word) (h : s.platform.sideEffects = []) : reachesDevice w s = false := by
  simp [reachesDevice, Profile.touches, h]

/-- What a launch at side-effect memory depends on: the configuration registers and the platform. -/
theorem reachesDevice_congr {t : State} (w : Word) (hr : t.regs = s.regs) (hp : t.platform = s.platform) :
    reachesDevice w t = reachesDevice w s := by
  have hprof : wordProfile w t = wordProfile w s := by
    unfold wordProfile
    split
    · rename_i j _
      cases j <;>
        simp only [profileOf, chachaBlockProfile, chachaApplyProfile, poly1305TagProfile, aeadEncryptProfile, aeadDecryptProfile, hr]
    · rfl
  unfold reachesDevice preCheck spaceSize
  rw [hprof, hr, hp]

end Sys2Proof.Machine
end

