-- ==== Sys2Proof/Laws/ConstantTime.lean ====
section
/-! SUPPORT. Two runs that agree on the public values of R240 go in lockstep: the same accesses, the same number of steps, the same kind of end. -/

namespace Sys2Proof.Machine

variable {s t : State} {α β : Type}

/-- Two results of one operation are alike: the same kind of result, in states that agree on the public values. -/
def Lock (R : α → α → Prop) (r q : Res α) : Prop :=
  match r, q with
  | .done a s, .done b t => R a b ∧ publicEq s t
  | .raised c s, .raised d t => c = d ∧ publicEq s t
  | .hung s, .hung t => publicEq s t
  | _, _ => False

/-- Byte strings of one length: all that the lockstep needs of data. -/
def sameLength (a b : Bytes) : Prop :=
  a.length = b.length

/-- Any two values are alike. -/
def anyTwo (_ _ : α) : Prop :=
  True

theorem Lock.andThen {R : α → α → Prop} {Q : β → β → Prop} {r q : Res α} {f g : α → State → Res β} (h : Lock R r q)
    (k : ∀ a b s t, r = .done a s → q = .done b t → R a b → publicEq s t → Lock Q (f a s) (g b t)) :
    Lock Q (r.andThen f) (q.andThen g) := by
  cases r <;> cases q <;> first
    | exact h.elim
    | exact k _ _ _ _ rfl rfl h.1 h.2
    | exact h

/-- The same number of steps on both sides keeps the public values equal. -/
theorem publicEq.steps (h : publicEq s t) (n : Nat) :
    publicEq { s with trace.steps := s.trace.steps + n } { t with trace.steps := t.trace.steps + n } := by
  obtain ⟨h1, h2, h3, h4, h5, h6, h7, h8, h9, h10, h11⟩ := h
  exact ⟨h1, h2, h3, h4, h5, h6, h7, h8, h9, h10, by rw [h11]⟩

/-- Engine work without an access, of the same number of steps on both sides. -/
theorem publicEq.worked (h : publicEq s t) (e f : Engine) (q r : Phase) (m n : Memory) (k : Nat) :
    publicEq (Machine.worked e q m [] k s) (Machine.worked f r n [] k t) := by
  obtain ⟨h1, h2, h3, h4, h5, h6, h7, h8, h9, h10, h11⟩ := h
  exact ⟨h1, h2, h3, h4, h5, h6, h7, h8, h9, by simp [h10], by simp [Machine.worked, afterAccesses, h11]⟩

/-- Another block counter on either side. -/
theorem publicEq.setCounter (h : publicEq s t) (c d : Word) :
    publicEq { s with engine.bc := c } { t with engine.bc := d } := by
  obtain ⟨h1, h2, h3, h4, h5, h6, h7, h8, h9, h10, h11⟩ := h
  exact ⟨h1, h2, h3, h4, h5, h6, h7, h8, h9, h10, h11⟩

/-- Another expected tag on either side. -/
theorem publicEq.setTag (h : publicEq s t) (a b : Vector Byte 16) :
    publicEq { s with engine.etag := a } { t with engine.etag := b } := by
  obtain ⟨h1, h2, h3, h4, h5, h6, h7, h8, h9, h10, h11⟩ := h
  exact ⟨h1, h2, h3, h4, h5, h6, h7, h8, h9, h10, h11⟩

/-- Another composer state on either side. -/
theorem publicEq.setPhase (h : publicEq s t) (q r : Phase) :
    publicEq { s with status.phase := q } { t with status.phase := r } := by
  obtain ⟨h1, h2, h3, h4, h5, h6, h7, h8, h9, h10, h11⟩ := h
  exact ⟨h1, h2, h3, h4, h5, h6, h7, h8, h9, h10, h11⟩

theorem busAccess_lock (h : publicEq s t) (d : Dir) (a : Nat) : Lock anyTwo (busAccess d a s) (busAccess d a t) := by
  obtain ⟨h1, h2, h3, h4, h5, h6, h7, h8, h9, h10, h11⟩ := h
  have hp : publicEq { tick s with trace.portLog := ⟨d, a⟩ :: s.trace.portLog, bus := s.bus.tail }
      { tick t with trace.portLog := ⟨d, a⟩ :: t.trace.portLog, bus := t.bus.tail } :=
    ⟨h1, h2, h3, h4, h5, h6, h7, h8, h9, by rw [h10], by simp [tick, h11]⟩
  unfold busAccess
  rw [h10] at hp ⊢
  cases t.bus.headD .ok
  · exact ⟨trivial, hp⟩
  · exact ⟨rfl, hp⟩
  · exact hp

theorem memRead_lock (h : publicEq s t) (a n : Nat) : Lock sameLength (memRead a n s) (memRead a n t) := by
  induction n generalizing a s t with
  | zero => exact ⟨rfl, h⟩
  | succ n ih =>
    refine Lock.andThen (R := anyTwo) ?_ fun _ _ s t _ _ _ h => ?_
    · exact (busAccess_lock h .read a).andThen fun _ _ s t _ _ _ h => ⟨trivial, h⟩
    · exact (ih h (a + 1)).andThen fun bs cs s t _ _ hl h => ⟨by simpa [sameLength] using hl, h⟩

theorem memWrite_lock (h : publicEq s t) (a : Nat) {bs cs : Bytes} (hl : sameLength bs cs) :
    Lock anyTwo (memWrite a bs s) (memWrite a cs t) := by
  induction bs generalizing a s t cs with
  | nil => rw [List.length_eq_zero_iff.mp hl.symm]; exact ⟨trivial, h⟩
  | cons b bs ih =>
    cases cs with
    | nil => simp [sameLength] at hl
    | cons c cs =>
      refine Lock.andThen (R := anyTwo) ?_ fun _ _ s t _ _ _ h => ih h (a + 1) (by simpa [sameLength] using hl)
      exact (busAccess_lock h .write a).andThen fun _ _ s t _ _ _ h => ⟨trivial, h⟩

theorem makeBlock_lock (h : publicEq s t) : publicEq (makeBlock s) (makeBlock t) := by
  rw [makeBlock_worked, makeBlock_worked]
  exact h.worked _ _ _ _ _ _ 22

theorem nextCounter_lock (h : publicEq s t) (n : Nat) : publicEq (nextCounter n s) (nextCounter n t) := by
  unfold nextCounter
  split
  · exact h
  · exact h

theorem applyLoop_lock (h : publicEq s t) (k src dst n : Nat) :
    Lock sameLength (applyLoop k src dst n s) (applyLoop k src dst n t) := by
  induction k generalizing src dst n s t with
  | zero => exact ⟨rfl, h⟩
  | succ k ih =>
    refine (memRead_lock (makeBlock_lock h) src (min 64 n)).andThen fun m m' s t _ _ hm h => ?_
    have hx : sameLength (xorBytes m (serialize s.engine.x)) (xorBytes m' (serialize t.engine.x)) := by
      unfold sameLength at *; simp [hm]
    refine (memWrite_lock h dst hx).andThen fun _ _ s t _ _ _ h => ?_
    refine (ih (nextCounter_lock h k) (src + 64) (dst + 64) (n - 64)).andThen fun r r' s t _ _ hr h => ⟨?_, h⟩
    unfold sameLength at *
    simp only [List.length_append, hx, hr]

theorem absorbAll_lock (h : publicEq s t) {m m' : Bytes} (hm : sameLength m m') :
    publicEq (absorbAll m s) (absorbAll m' t) := by
  rw [absorbAll_worked, absorbAll_worked, show m.length = m'.length from hm]
  exact h.worked _ _ _ _ _ _ _

theorem deriveKey_lock (h : publicEq s t) : publicEq (deriveKey s) (deriveKey t) := by
  obtain ⟨e, he, _⟩ := deriveKey_worked s
  obtain ⟨f, hf, _⟩ := deriveKey_worked t
  rw [he, hf]
  exact h.worked _ _ _ _ _ _ _

theorem sameLength_pad16 {a b : Bytes} (h : sameLength a b) : sameLength (pad16 a) (pad16 b) := by
  unfold sameLength at *; simp [pad16, h]

theorem absorbPayload_lock (h : publicEq s t) {ad ad' ct ct' : Bytes} (ha : sameLength ad ad') (hc : sameLength ct ct') :
    publicEq (absorbPayload ad ct s) (absorbPayload ad' ct' t) := by
  have hm : sameLength (macPayload ad ct) (macPayload ad' ct') := by
    have h1 := sameLength_pad16 ha
    have h2 := sameLength_pad16 hc
    unfold sameLength at *
    simp only [macPayload, List.length_append, h1, h2]
  exact (absorbAll_lock h hm).setPhase _ _

theorem absorbLengths_lock (h : publicEq s t) (al cl : Nat) : publicEq (absorbLengths al cl s) (absorbLengths al cl t) :=
  (absorbAll_lock h (m := macLengths al cl) rfl).setPhase _ _

/-! ### The work of the commands -/

theorem chachaBlockWork_lock (h : publicEq s t) : Lock anyTwo (chachaBlockWork s) (chachaBlockWork t) := by
  have hb := makeBlock_lock (h.setCounter s.regs.ctr t.regs.ctr)
  have hx : sameLength (serialize (makeBlock { s with engine.bc := s.regs.ctr }).engine.x)
      (serialize (makeBlock { t with engine.bc := t.regs.ctr }).engine.x) :=
    (length_serialize _).trans (length_serialize _).symm
  have hd : (makeBlock { s with engine.bc := s.regs.ctr }).regs.dst = (makeBlock { t with engine.bc := t.regs.ctr }).regs.dst :=
    hb.2.2.2.2.2.1
  generalize hu : makeBlock { s with engine.bc := s.regs.ctr } = u at hb hx hd
  generalize hv : makeBlock { t with engine.bc := t.regs.ctr } = v at hb hx hd
  unfold chachaBlockWork
  simp only []
  rw [hu, hv, hd]
  exact memWrite_lock hb _ hx

theorem chachaApplyWork_lock (h : publicEq s t) : Lock anyTwo (chachaApplyWork s) (chachaApplyWork t) := by
  unfold chachaApplyWork
  rw [h.2.2.2.2.1, h.2.2.2.2.2.1, h.2.2.2.2.2.2.2.1]
  exact (applyLoop_lock (h.setCounter s.regs.ctr t.regs.ctr) _ _ _ _).andThen fun _ _ s t _ _ _ h => ⟨trivial, h⟩

theorem poly1305TagWork_lock (h : publicEq s t) : Lock anyTwo (poly1305TagWork s) (poly1305TagWork t) := by
  unfold poly1305TagWork
  rw [h.2.2.2.2.1, h.2.2.2.2.2.2.2.1]
  refine (memRead_lock h _ _).andThen fun m m' s t _ _ hm h => ?_
  have hu := absorbAll_lock (s := setPolyKey (keyBytes s) s) (t := setPolyKey (keyBytes t) t) (h.steps 1) hm
  have hd : (absorbAll m (setPolyKey (keyBytes s) s)).regs.dst = (absorbAll m' (setPolyKey (keyBytes t) t)).regs.dst :=
    hu.2.2.2.2.2.1
  simp only [hd]
  exact memWrite_lock hu _ ((length_polyFinal _ _).trans (length_polyFinal _ _).symm)

theorem aeadEncryptWork_lock (h : publicEq s t) : Lock anyTwo (aeadEncryptWork s) (aeadEncryptWork t) := by
  unfold aeadEncryptWork
  simp only []
  rw [h.2.2.2.2.2.2.1, h.2.2.2.2.2.2.2.1, h.2.2.2.2.2.2.2.2.1]
  have h0 := deriveKey_lock h
  generalize t.regs.adlen.value = al
  generalize t.regs.len.value = l
  refine (memRead_lock h0 _ al).andThen fun ad ad' s t _ _ ha h => ?_
  rw [h.2.2.2.2.1, h.2.2.2.2.2.1]
  refine (applyLoop_lock (h.setCounter 1 1) _ _ _ l).andThen fun ct ct' s t _ _ hc h => ?_
  have hv := absorbLengths_lock (absorbPayload_lock h ha hc) al l
  rw [hv.2.2.2.2.2.1]
  refine (memWrite_lock hv _ ((length_polyFinal _ _).trans (length_polyFinal _ _).symm)).andThen fun _ _ s t _ _ _ h =>
    ⟨trivial, h.setPhase _ _⟩

theorem compareTags_lock (h : publicEq s t) {r r' : Bytes} (hr : r.length = 16) (hr' : r'.length = 16) :
    publicEq (compareTags r s) (compareTags r' t) := by
  rw [compareTags_worked r s hr, compareTags_worked r' t hr']
  exact h.worked _ _ _ _ _ _ _

theorem aeadDecryptVerify_lock (h : publicEq s t) : Lock anyTwo (aeadDecryptVerify s) (aeadDecryptVerify t) := by
  unfold aeadDecryptVerify
  simp only []
  rw [h.2.2.2.2.2.2.1, h.2.2.2.2.2.2.2.1, h.2.2.2.2.2.2.2.2.1]
  have h0 := deriveKey_lock h
  generalize t.regs.adlen.value = al
  generalize t.regs.len.value - 16 = cl
  refine (memRead_lock h0 _ al).andThen fun ad ad' s t _ _ ha h => ?_
  rw [h.2.2.2.2.1]
  refine (memRead_lock h _ cl).andThen fun ct ct' s t _ _ hc h => ?_
  rw [h.2.2.2.2.1]
  refine (memRead_lock h _ 16).andThen fun r r' u v hr hr' _ h => ⟨trivial, ?_⟩
  have hw := absorbLengths_lock (absorbPayload_lock h ha hc) al cl
  refine compareTags_lock (hw.setTag _ _) ?_ ?_
  · rw [(memRead_done hr).1]; simp
  · rw [(memRead_done hr').1]; simp

theorem aeadDecryptRelease_lock (h : publicEq s t) (hd : s.engine.diff = 0 ↔ t.engine.diff = 0) :
    Lock anyTwo (aeadDecryptRelease s) (aeadDecryptRelease t) := by
  unfold aeadDecryptRelease
  by_cases h0 : s.engine.diff = 0
  · rw [if_pos h0, if_pos (hd.mp h0)]
    have hq := h.setPhase .verified .verified
    generalize ({ s with status.phase := .verified } : State) = s' at hq
    generalize ({ t with status.phase := .verified } : State) = t' at hq
    unfold aeadDecryptSecondPass
    simp only []
    rw [hq.2.2.2.2.1, hq.2.2.2.2.2.1, hq.2.2.2.2.2.2.2.1]
    exact (applyLoop_lock (hq.setCounter 1 1) _ _ _ _).andThen fun _ _ s t _ _ _ h => ⟨trivial, h⟩
  · rw [if_neg h0, if_neg fun h => h0 (hd.mpr h)]
    exact ⟨rfl, h.setPhase _ _⟩

theorem aeadDecryptWork_lock (h : publicEq s t) (hv : verifies s ↔ verifies t) :
    Lock anyTwo (aeadDecryptWork s) (aeadDecryptWork t) := by
  unfold aeadDecryptWork
  refine (aeadDecryptVerify_lock h).andThen fun _ _ u v hu hw _ h => ?_
  obtain ⟨e, rfl, he⟩ := aeadDecryptVerify_done hu
  obtain ⟨f, rfl, hf⟩ := aeadDecryptVerify_done hw
  exact aeadDecryptRelease_lock h (he.trans (hv.trans hf.symm))

/-! ### A whole command -/

theorem publicEq.profileOf (h : publicEq s t) (i : Instr) : Machine.profileOf i s = Machine.profileOf i t := by
  obtain ⟨h1, h2, h3, h4, h5, h6, h7, h8, h9, h10, h11⟩ := h
  cases i <;>
    simp only [Machine.profileOf, chachaBlockProfile, chachaApplyProfile, poly1305TagProfile, aeadEncryptProfile,
      aeadDecryptProfile, h4, h5, h6, h7, h8, h9]

theorem publicEq.preCheck (h : publicEq s t) (p : Profile) : Machine.preCheck p s = Machine.preCheck p t := by
  obtain ⟨h1, h2, h3, h4, h5, h6, h7, h8, h9, h10, h11⟩ := h
  unfold Machine.preCheck spaceSize
  rw [h1, h2, h3, h8]

/-- Two runs of a command from states that agree on the public values leave the same trace. -/
theorem runCommand_lock {work : State → Res Unit} (h : publicEq s t) (p : Profile) (hw : Lock anyTwo (work s) (work t))
    {u : State} (hu : runCommand p work s = .next u) :
    ∃ v, runCommand p work t = .next v ∧ v.trace = u.trace := by
  unfold runCommand at hu ⊢
  rw [← h.preCheck p]
  split at hu
  · injection hu with hu
    exact ⟨_, rfl, by rw [← hu]; exact h.2.2.2.2.2.2.2.2.2.2.symm⟩
  · rw [← h.1]
    split at hu
    · cases hu
    · rename_i hs
      rw [if_neg hs]
      cases hr : work s <;> cases hq : work t <;> rw [hr, hq] at hw <;> rw [hr] at hu <;> first
        | exact hw.elim
        | (injection hu with hu; subst hu)
      · exact ⟨_, rfl, hw.2.2.2.2.2.2.2.2.2.2.2.symm⟩
      · rename_i c w d x
        refine ⟨_, rfl, ?_⟩
        have ht : ∀ (c : Cause) (y : State),
            (completeCommand c (if c.isBus then scramble p.writes y else y)).trace = y.trace := by
          intro c y
          split
          · obtain ⟨m, n, e⟩ := scramble_frame p.writes y; rw [e]; rfl
          · rfl
        rw [ht, ht]
        exact hw.2.2.2.2.2.2.2.2.2.2.2.symm
      · exact ⟨_, rfl, hw.2.2.2.2.2.2.2.2.2.2.symm⟩

end Sys2Proof.Machine
end

