-- ==== Sys2Proof/Laws/Datapath.lean ====
section
/-! SUPPORT. The ChaCha20 datapath word by word: what a quarter-round leaves at each index, that quarter-rounds on different indices commute, and what the row rotations do to one. -/

namespace Sys2Proof.Machine

/-- The four indices of a quarter-round are different. -/
def fourApart (a b c d : Fin 16) : Prop :=
  a ≠ b ∧ a ≠ c ∧ a ≠ d ∧ b ≠ c ∧ b ≠ d ∧ c ≠ d

/-- Each word after a quarter-round: the four results at its indices, every other word as before. -/
theorem getElem_quarterRoundAt (x : Block) {a b c d : Fin 16} (h : fourApart a b c d) (j : Fin 16) :
    (quarterRoundAt x a b c d)[j] =
      if j = a then (quarterRound x[a] x[b] x[c] x[d]).1
      else if j = b then (quarterRound x[a] x[b] x[c] x[d]).2.1
      else if j = c then (quarterRound x[a] x[b] x[c] x[d]).2.2.1
      else if j = d then (quarterRound x[a] x[b] x[c] x[d]).2.2.2
      else x[j] := by
  obtain ⟨h1, h2, h3, h4, h5, h6⟩ := h
  simp only [quarterRoundAt, Fin.getElem_fin, Vector.getElem_set, ← Fin.ext_iff, eq_comm (b := j)]
  split_ifs <;> simp_all

/-- Two blocks that agree at every index are equal. -/
theorem block_ext {x y : Block} (h : ∀ j : Fin 16, x[j] = y[j]) : x = y := by
  apply Vector.ext
  intro j hj
  exact h ⟨j, hj⟩

/-- Quarter-rounds on different indices commute. -/
theorem quarterRoundAt_comm (x : Block) {a b c d e f g k : Fin 16} (h1 : fourApart a b c d) (h2 : fourApart e f g k)
    (h : ∀ p ∈ [a, b, c, d], ∀ q ∈ [e, f, g, k], p ≠ q) :
    quarterRoundAt (quarterRoundAt x a b c d) e f g k = quarterRoundAt (quarterRoundAt x e f g k) a b c d := by
  have keep1 : ∀ q ∈ [e, f, g, k], (quarterRoundAt x a b c d)[q] = x[q] := by
    intro q hq
    rw [getElem_quarterRoundAt x h1, if_neg fun e => h a (by simp) q hq e.symm, if_neg fun e => h b (by simp) q hq e.symm,
      if_neg fun e => h c (by simp) q hq e.symm, if_neg fun e => h d (by simp) q hq e.symm]
  have keep2 : ∀ p ∈ [a, b, c, d], (quarterRoundAt x e f g k)[p] = x[p] := by
    intro p hp
    rw [getElem_quarterRoundAt x h2, if_neg (h p hp e (by simp)), if_neg (h p hp f (by simp)), if_neg (h p hp g (by simp)),
      if_neg (h p hp k (by simp))]
  apply block_ext
  intro j
  rw [getElem_quarterRoundAt (quarterRoundAt x a b c d) h2 j, getElem_quarterRoundAt (quarterRoundAt x e f g k) h1 j,
    keep1 e (by simp), keep1 f (by simp), keep1 g (by simp), keep1 k (by simp), keep2 a (by simp), keep2 b (by simp),
    keep2 c (by simp), keep2 d (by simp), getElem_quarterRoundAt x h1 j, getElem_quarterRoundAt x h2 j]
  by_cases hj : j ∈ [a, b, c, d]
  · have n1 := h j hj e (by simp)
    have n2 := h j hj f (by simp)
    have n3 := h j hj g (by simp)
    have n4 := h j hj k (by simp)
    simp only [n1, n2, n3, n4, if_false]
  · simp only [List.mem_cons, List.not_mem_nil, or_false, not_or] at hj
    simp only [hj.1, hj.2.1, hj.2.2.1, hj.2.2.2, if_false]

/-! ### The row rotations (R134) -/

theorem getElem_rotRows (x : Block) (j : Fin 16) : (rotRows x)[j] = x[rotIndex j] := by
  revert j; intro j; fin_cases j <;> rfl

theorem getElem_unrotRows (x : Block) (j : Fin 16) : (unrotRows x)[j] = x[unrotIndex j] := by
  revert j; intro j; fin_cases j <;> rfl

theorem rotIndex_unrotIndex (j : Fin 16) : rotIndex (unrotIndex j) = j := by
  revert j; decide

theorem unrotIndex_rotIndex (j : Fin 16) : unrotIndex (rotIndex j) = j := by
  revert j; decide

theorem unrotRows_rotRows (x : Block) : unrotRows (rotRows x) = x := by
  apply block_ext
  intro j
  rw [getElem_unrotRows, getElem_rotRows]
  exact congrArg (fun k : Fin 16 => x[k]) (rotIndex_unrotIndex j)

/-- A rotation back after a quarter-round is a quarter-round on the rotated indices after the rotation back. -/
theorem unrotRows_quarterRoundAt (x : Block) {a b c d : Fin 16} (h : fourApart a b c d) :
    unrotRows (quarterRoundAt x a b c d) =
      quarterRoundAt (unrotRows x) (rotIndex a) (rotIndex b) (rotIndex c) (rotIndex d) := by
  have inj : ∀ p q : Fin 16, unrotIndex p = q ↔ p = rotIndex q := fun p q =>
    ⟨fun e => by rw [← e, rotIndex_unrotIndex], fun e => by rw [e, unrotIndex_rotIndex]⟩
  have hne : ∀ p q : Fin 16, p ≠ q → rotIndex p ≠ rotIndex q := fun p q hpq e =>
    hpq (by rw [← unrotIndex_rotIndex p, e, unrotIndex_rotIndex])
  obtain ⟨h1, h2, h3, h4, h5, h6⟩ := h
  apply block_ext
  intro j
  rw [getElem_unrotRows, getElem_quarterRoundAt x ⟨h1, h2, h3, h4, h5, h6⟩,
    getElem_quarterRoundAt _ ⟨hne _ _ h1, hne _ _ h2, hne _ _ h3, hne _ _ h4, hne _ _ h5, hne _ _ h6⟩]
  simp only [getElem_unrotRows, unrotIndex_rotIndex, inj]

/-- The column pass and the diagonal pass as four quarter-rounds each (R130, R131). -/
theorem columnWords_eq (x : Block) :
    columnWords x =
      quarterRoundAt (quarterRoundAt (quarterRoundAt (quarterRoundAt x 0 4 8 12) 1 5 9 13) 2 6 10 14) 3 7 11 15 := by
  unfold columnWords; rfl

theorem diagonalWords_eq (x : Block) :
    diagonalWords x =
      quarterRoundAt (quarterRoundAt (quarterRoundAt (quarterRoundAt x 0 5 10 15) 1 6 11 12) 2 7 8 13) 3 4 9 14 := by
  unfold diagonalWords; rfl

end Sys2Proof.Machine
end

