-- ==== Sys2Proof/Laws/PerInstr.lean ====
section
/-! SUPPORT. Statements made per instruction: the word of each instruction meets its row of spec/opcode_table.json. -/

namespace Sys2Proof.Laws.TableRow

/-- The mask and the match of an instruction's row of spec/opcode_table.json. -/
def row : Instr → Nat × Nat
  | .chachaBlock => (0xFFFFFFFF, 0x00000001)
  | .chachaApply => (0xFFFFFFFF, 0x00000002)
  | .poly1305Tag => (0xFFFFFFFF, 0x00000003)
  | .aeadEncrypt => (0xFFFFFFFF, 0x00000004)
  | .aeadDecrypt => (0xFFFFFFFF, 0x00000005)
  | .zeroize => (0xFFFFFFFF, 0x00000006)
  | .hostWr _ _ => (0xC000000000, 0x8000000000)
  | .hostRd _ => (0xC0FFFFFFFF, 0x4000000000)

/-- The value of an encoded instruction. -/
def value : Encoded → Nat
  | .cmd32 w => w.toNat
  | .host40 t => t.toNat

/-- The word of a well-formed instruction has its row's fixed bits. -/
def Statement (i : Instr) : Prop :=
  i.wellFormed = true → value (encode i) &&& (row i).1 = (row i).2

theorem chachaBlock : Statement .chachaBlock := fun _ => by decide

theorem chachaApply : Statement .chachaApply := fun _ => by decide

theorem poly1305Tag : Statement .poly1305Tag := fun _ => by decide

theorem aeadEncrypt : Statement .aeadEncrypt := fun _ => by decide

theorem aeadDecrypt : Statement .aeadDecrypt := fun _ => by decide

theorem zeroize : Statement .zeroize := fun _ => by decide

theorem hostWr (r : Reg) (d : Word) : Statement (.hostWr r d) := by
  intro _
  have h : hostWord 0b10#2 r.index d &&& 0xC000000000#40 = 0x8000000000#40 := by
    apply BitVec.eq_of_getLsbD_eq
    intro i hi
    simp only [hostWord, BitVec.getLsbD_and, BitVec.getLsbD_append]
    interval_cases i <;> simp
  exact (BitVec.toNat_and ..).symm.trans (congrArg BitVec.toNat h)

theorem hostRd (r : Reg) : Statement (.hostRd r) := by
  intro _
  have h : hostWord 0b01#2 r.index 0 &&& 0xC0FFFFFFFF#40 = 0x4000000000#40 := by
    apply BitVec.eq_of_getLsbD_eq
    intro i hi
    simp only [hostWord, BitVec.getLsbD_and, BitVec.getLsbD_append]
    interval_cases i <;> simp
  exact (BitVec.toNat_and ..).symm.trans (congrArg BitVec.toNat h)

end Sys2Proof.Laws.TableRow
end

