-- ==== Sys2Proof/Laws/Unanswered.lean ====
section
/-! SUPPORT. A run whose every access is answered, beside the same run with one answer missing: they agree up to that access, where the second waits for good (R107, R249). -/

namespace Sys2Proof.Machine

variable {s t u : State} {α β : Type}

/-- The state with other answers to come. -/
def State.answeredBy (b : List BusResp) (s : State) : State :=
  { s with bus := b }

@[simp] theorem answeredBy_engine (b : List BusResp) (s : State) : (s.answeredBy b).engine = s.engine := rfl

/-- `k` answers without error, then one that never comes. -/
def missingAfter (k : Nat) (rest : List BusResp) : List BusResp :=
  List.replicate k .ok ++ .never :: rest

/-- A result, with other answers to come. -/
def Res.answeredBy (b : List BusResp) : Res α → Res α
  | .done a s => .done a (s.answeredBy b)
  | .raised c s => .raised c (s.answeredBy b)
  | .hung s => .hung (s.answeredBy b)

/-- The state of a result. -/
def Res.state : Res α → State
  | .done _ s => s
  | .raised _ s => s
  | .hung s => s

/-- Engine work `F` from `s`, whose queue of answers is empty: it makes the accesses `acc` (newest first), and if the answer to
one of them is missing it waits at that one. -/
structure Waits (s : State) (F : State → Res α) (acc : List MemAccess) : Prop where
  port : (F s).state.trace.portLog = acc ++ s.trace.portLog
  empty : (F s).state.bus = []
  busy : (F s).state.status.busy = s.status.busy
  answered : ∀ k rest, F (s.answeredBy (missingAfter (acc.length + k) rest)) = (F s).answeredBy (missingAfter k rest)
  waits : ∀ k rest a, acc.reverse[k]? = some a →
    ∃ u, F (s.answeredBy (missingAfter k rest)) = .hung u ∧ u.memReq = some a ∧ u.status.busy = s.status.busy

/-- Work of which nothing else need be known than that its accesses are these. -/
def WaitsSome (s : State) (F : State → Res α) : Prop :=
  ∃ acc, Waits s F acc

theorem WaitsSome.andThen {F : State → Res α} {G : α → State → Res β} (h : WaitsSome s F)
    (k : ∀ a t, F s = .done a t → t.bus = [] → WaitsSome t (G a)) : WaitsSome s fun s => (F s).andThen G := by
  obtain ⟨acc, h⟩ := h
  cases hF : F s with
  | done a t =>
    obtain ⟨port, empty, busy, answered, waits⟩ := h
    rw [hF] at port empty busy answered
    simp only [Res.state] at port empty busy
    obtain ⟨acc', g⟩ := k a t hF empty
    refine ⟨acc' ++ acc, ⟨?_, ?_, ?_, fun n rest => ?_, fun n rest x hx => ?_⟩⟩
    · rw [hF]; exact g.port.trans (by rw [port, List.append_assoc])
    · rw [hF]; exact g.empty
    · rw [hF]; exact g.busy.trans busy
    · rw [List.length_append, Nat.add_comm acc'.length, Nat.add_assoc]
      rw [answered, hF]
      exact g.answered n rest
    · rw [List.reverse_append] at hx
      by_cases hn : n < acc.reverse.length
      · rw [List.getElem?_append_left hn] at hx
        obtain ⟨u, hu, hm, hb⟩ := waits n rest x hx
        exact ⟨u, by rw [hu]; rfl, hm, hb⟩
      · rw [List.getElem?_append_right (by omega)] at hx
        obtain ⟨u, hu, hm, hb⟩ := g.waits _ rest x hx
        refine ⟨u, ?_, hm, hb.trans busy⟩
        have e : n = acc.length + (n - acc.reverse.length) := by rw [List.length_reverse] at *; omega
        rw [e, answered]
        exact hu
  | raised c t =>
    refine ⟨acc, ⟨?_, ?_, ?_, fun n rest => ?_, fun n rest x hx => ?_⟩⟩
    · have := h.port; rw [hF] at this ⊢; exact this
    · have := h.empty; rw [hF] at this ⊢; exact this
    · have := h.busy; rw [hF] at this ⊢; exact this
    · rw [h.answered, hF]; rfl
    · obtain ⟨u, hu, hr⟩ := h.waits n rest x hx
      exact ⟨u, by rw [hu]; rfl, hr⟩
  | hung t =>
    refine ⟨acc, ⟨?_, ?_, ?_, fun n rest => ?_, fun n rest x hx => ?_⟩⟩
    · have := h.port; rw [hF] at this ⊢; exact this
    · have := h.empty; rw [hF] at this ⊢; exact this
    · have := h.busy; rw [hF] at this ⊢; exact this
    · rw [h.answered, hF]; rfl
    · obtain ⟨u, hu, hr⟩ := h.waits n rest x hx
      exact ⟨u, by rw [hu]; rfl, hr⟩

/-- A stretch without an access that does not look at the answers to come. -/
structure Silent (g : State → State) (s : State) : Prop where
  commutes : ∀ b, g (s.answeredBy b) = (g s).answeredBy b
  port : (g s).trace.portLog = s.trace.portLog
  busy : (g s).status.busy = s.status.busy

theorem Silent.bus {g : State → State} (h : Silent g s) (hb : s.bus = []) : (g s).bus = [] := by
  have := h.commutes s.bus
  rw [show s.answeredBy s.bus = s from rfl] at this
  rw [this, hb]; rfl

theorem Silent.then {g f : State → State} (h : Silent g s) (k : Silent f (g s)) : Silent (fun s => f (g s)) s :=
  ⟨fun b => by rw [h.commutes, k.commutes], k.port.trans h.port, k.busy.trans h.busy⟩

theorem Silent.same (s : State) : Silent (fun s => s) s :=
  ⟨fun _ => rfl, rfl, rfl⟩

/-- Work that ends in a stretch without an access. -/
theorem WaitsSome.done {f : State → α} {g : State → State} (hb : s.bus = []) (hf : ∀ b, f (s.answeredBy b) = f s)
    (hg : Silent g s) : WaitsSome s fun s => Res.done (f s) (g s) := by
  refine ⟨[], ⟨hg.port, hg.bus hb, hg.busy, fun k rest => ?_, fun k rest a ha => by simp at ha⟩⟩
  rw [hf, hg.commutes, List.length_nil, Nat.zero_add]; rfl

/-- Work that only answers a value. -/
theorem WaitsSome.value (x : α) (hb : s.bus = []) : WaitsSome s fun s => Res.done x s :=
  .done hb (fun _ => rfl) (Silent.same s)

/-- Work after a stretch without an access. -/
theorem WaitsSome.after {F : State → Res α} {g : State → State} (hg : Silent g s) (h : WaitsSome (g s) F) :
    WaitsSome s fun s => F (g s) := by
  obtain ⟨acc, h⟩ := h
  refine ⟨acc, ⟨h.port.trans (by rw [hg.port]), h.empty, h.busy.trans hg.busy, fun k rest => ?_, fun k rest a ha => ?_⟩⟩
  · rw [hg.commutes]; exact h.answered k rest
  · obtain ⟨u, hu, hm, hb⟩ := h.waits k rest a ha
    exact ⟨u, by rw [hg.commutes]; exact hu, hm, hb.trans hg.busy⟩

/-- Work that is given its operands by the state, when the answers are none of them. -/
theorem WaitsSome.congr {F G : State → Res α} (h : WaitsSome s F) (e : ∀ b, G (s.answeredBy b) = F (s.answeredBy b)) :
    WaitsSome s G := by
  obtain ⟨acc, h⟩ := h
  have e0 : G s = F s := e s.bus
  exact ⟨acc, ⟨by rw [e0]; exact h.port, by rw [e0]; exact h.empty, by rw [e0]; exact h.busy,
    fun k rest => by rw [e, e0]; exact h.answered k rest, fun k rest a ha => by rw [e]; exact h.waits k rest a ha⟩⟩

/-! ### Accesses -/

theorem busAccess_waits (d : Dir) (a : Nat) (hb : s.bus = []) : WaitsSome s (busAccess d a) := by
  refine ⟨[⟨d, a⟩], ⟨?_, ?_, ?_, fun k rest => ?_, fun k rest x hx => ?_⟩⟩
  · simp only [busAccess, hb]; rfl
  · simp only [busAccess, hb]; rfl
  · simp only [busAccess, hb]; rfl
  · rw [List.length_singleton, Nat.add_comm 1 k]
    simp only [busAccess, hb, State.answeredBy, missingAfter, List.replicate_succ]
    rfl
  · cases k with
    | zero =>
      simp only [List.reverse_singleton, List.getElem?_cons_zero, Option.some.injEq] at hx
      exact ⟨_, rfl, by rw [← hx], rfl⟩
    | succ k => simp at hx

theorem readByte_waits (a : Nat) (hb : s.bus = []) : WaitsSome s (readByte a) :=
  (busAccess_waits .read a hb).andThen fun _ t _ h => .done (f := fun t => t.mem.read a) h (fun _ => rfl) (Silent.same t)

theorem writeByte_waits (a : Nat) (b : Byte) (hb : s.bus = []) : WaitsSome s (writeByte a b) :=
  (busAccess_waits .write a hb).andThen fun _ _ _ h =>
    .done (f := fun _ => ()) (g := fun t => { t with mem := t.mem.write a b }) h (fun _ => rfl) ⟨fun _ => rfl, rfl, rfl⟩

theorem memRead_waits (a n : Nat) (hb : s.bus = []) : WaitsSome s (memRead a n) := by
  induction n generalizing a s with
  | zero => exact .value [] hb
  | succ n ih =>
    exact (readByte_waits a hb).andThen fun b _ _ h => (ih (a + 1) h).andThen fun bs _ _ h => .value (b :: bs) h

theorem memWrite_waits (a : Nat) (bs : Bytes) (hb : s.bus = []) : WaitsSome s (memWrite a bs) := by
  induction bs generalizing a s with
  | nil => exact .value () hb
  | cons b bs ih => exact (writeByte_waits a b hb).andThen fun _ _ _ h => ih (a + 1) h

/-- A write whose address and bytes the state gives. -/
theorem memWrite_waits' {a : State → Nat} {bs : State → Bytes} (ha : ∀ b, a (s.answeredBy b) = a s)
    (hs : ∀ b, bs (s.answeredBy b) = bs s) (hb : s.bus = []) : WaitsSome s fun s => memWrite (a s) (bs s) s :=
  (memWrite_waits (a s) (bs s) hb).congr fun b => by rw [ha, hs]

/-- A read whose address the state gives. -/
theorem memRead_waits' {a : State → Nat} (n : Nat) (ha : ∀ b, a (s.answeredBy b) = a s) (hb : s.bus = []) :
    WaitsSome s fun s => memRead (a s) n s :=
  (memRead_waits (a s) n hb).congr fun b => by rw [ha]

/-! ### Stretches without an access -/

theorem setCounter_silent (c : Word) (s : State) : Silent (fun s => { s with engine.bc := c }) s :=
  ⟨fun _ => rfl, rfl, rfl⟩

theorem setPhase_silent (q : Phase) (s : State) : Silent (fun s => { s with status.phase := q }) s :=
  ⟨fun _ => rfl, rfl, rfl⟩

theorem makeBlock_silent (s : State) : Silent makeBlock s := by
  refine ⟨fun b => ?_, ?_, ?_⟩
  · rw [makeBlock_eq, makeBlock_eq]; rfl
  · rw [makeBlock_eq]
  · rw [makeBlock_eq]

theorem nextCounter_silent (n : Nat) (s : State) : Silent (nextCounter n) s := by
  unfold nextCounter
  refine ⟨fun b => ?_, ?_, ?_⟩ <;> split <;> rfl

theorem absorbAll_silent (m : Bytes) (s : State) : Silent (absorbAll m) s := by
  refine ⟨fun b => ?_, ?_, ?_⟩
  · rw [absorbAll_eq, absorbAll_eq]; rfl
  · rw [absorbAll_eq]
  · rw [absorbAll_eq]

theorem compareTags_silent (r : Bytes) (s : State) : Silent (compareTags r) s := by
  refine ⟨fun b => ?_, ?_, ?_⟩
  · rw [compareTags_eq, compareTags_eq]; rfl
  · rw [compareTags_eq]
  · rw [compareTags_eq]

theorem setPolyKey_silent (s : State) : Silent (fun s => setPolyKey (keyBytes s) s) s :=
  ⟨fun _ => rfl, rfl, rfl⟩

theorem loadOneTimeKey_silent (s : State) : Silent loadOneTimeKey s :=
  ⟨fun _ => rfl, rfl, rfl⟩

theorem setTag_silent (s : State) : Silent (fun s => { s with engine.etag := bytesVector 16 (currentTag s) }) s :=
  ⟨fun _ => rfl, rfl, rfl⟩

theorem deriveKey_silent (s : State) : Silent deriveKey s := by
  have h := (setCounter_silent 0 s).then (makeBlock_silent _)
  exact h.then (f := loadOneTimeKey) (loadOneTimeKey_silent _)

theorem absorbPayload_silent (ad ct : Bytes) (s : State) : Silent (absorbPayload ad ct) s :=
  (absorbAll_silent (macPayload ad ct) s).then (setPhase_silent .payloadProcessed _)

theorem absorbLengths_silent (al cl : Nat) (s : State) : Silent (absorbLengths al cl) s :=
  (absorbAll_silent (macLengths al cl) s).then (setPhase_silent .macComputed _)

/-- Absorption of the whole MAC input, up to MAC_COMPUTED. -/
theorem absorbed_silent (ad ct : Bytes) (al cl : Nat) (s : State) :
    Silent (fun s => absorbLengths al cl (absorbPayload ad ct s)) s :=
  (absorbPayload_silent ad ct s).then (absorbLengths_silent al cl _)

/-! ### The work of the commands -/

theorem applyLoop_waits (k src dst n : Nat) (hb : s.bus = []) : WaitsSome s (applyLoop k src dst n) := by
  induction k generalizing src dst n s with
  | zero => exact .value [] hb
  | succ k ih =>
    have hk := makeBlock_silent s
    have h : WaitsSome (makeBlock s) fun s => (memRead src (min 64 n) s).andThen fun m t =>
        (memWrite dst (xorBytes m (serialize t.engine.x)) t).andThen fun _ u =>
          (applyLoop k (src + 64) (dst + 64) (n - 64) (nextCounter k u)).andThen fun rest v =>
            .done (xorBytes m (serialize t.engine.x) ++ rest) v := by
      refine (memRead_waits src (min 64 n) (hk.bus hb)).andThen fun m t _ ht => ?_
      have h' : WaitsSome t fun t' => (memWrite dst (xorBytes m (serialize t.engine.x)) t').andThen fun _ u =>
          (applyLoop k (src + 64) (dst + 64) (n - 64) (nextCounter k u)).andThen fun rest v =>
            .done (xorBytes m (serialize t.engine.x) ++ rest) v := by
        refine (memWrite_waits dst _ ht).andThen fun _ u _ hu => ?_
        have hn := nextCounter_silent k u
        exact (WaitsSome.after hn (ih (src + 64) (dst + 64) (n - 64) (hn.bus hu))).andThen fun rest v _ hv => .value _ hv
      exact h'.congr fun b => by rw [answeredBy_engine]
    exact (WaitsSome.after hk h).congr fun _ => by rw [applyLoop]

/-- The payload loop over the whole of SRC and DST, from a block counter. -/
theorem payload_waits (c : Word) (k n : Nat) (hb : s.bus = []) :
    WaitsSome s fun s => applyLoop k s.regs.src.value s.regs.dst.value n { s with engine.bc := c } :=
  (WaitsSome.after (setCounter_silent c s) (applyLoop_waits k s.regs.src.value s.regs.dst.value n hb)).congr fun _ => rfl

theorem chachaBlockWork_waits (hb : s.bus = []) : WaitsSome s chachaBlockWork := by
  have hk := (setCounter_silent s.regs.ctr s).then (makeBlock_silent _)
  have h := memWrite_waits' (a := fun t => t.regs.dst.value) (bs := fun t => serialize t.engine.x) (fun _ => rfl) (fun _ => rfl)
    (hk.bus hb)
  exact (WaitsSome.after hk h).congr fun _ => rfl

theorem chachaApplyWork_waits (hb : s.bus = []) : WaitsSome s chachaApplyWork :=
  WaitsSome.congr (F := fun u => (applyLoop (blocksFor s.regs.len.value) u.regs.src.value u.regs.dst.value s.regs.len.value
      { u with engine.bc := s.regs.ctr }).andThen fun _ t => .done () t)
    ((payload_waits s.regs.ctr _ _ hb).andThen fun _ _ _ ht => .value () ht) fun _ => rfl

theorem poly1305TagWork_waits (hb : s.bus = []) : WaitsSome s poly1305TagWork := by
  have h : WaitsSome s fun u => (memRead s.regs.src.value s.regs.len.value u).andThen fun m t =>
      let u := absorbAll m (setPolyKey (keyBytes t) t)
      memWrite u.regs.dst.value (currentTag u) u := by
    refine (memRead_waits s.regs.src.value s.regs.len.value hb).andThen fun m t _ ht => ?_
    have hk := (setPolyKey_silent t).then (absorbAll_silent m _)
    exact WaitsSome.after hk (memWrite_waits' (a := fun u => u.regs.dst.value) (bs := currentTag) (fun _ => rfl) (fun _ => rfl)
      (hk.bus ht))
  exact h.congr fun _ => rfl

theorem aeadEncryptWork_waits (hb : s.bus = []) : WaitsSome s aeadEncryptWork := by
  have h : WaitsSome s fun u => (memRead s.regs.ad.value s.regs.adlen.value (deriveKey u)).andThen fun ad t =>
      (applyLoop (blocksFor s.regs.len.value) t.regs.src.value t.regs.dst.value s.regs.len.value { t with engine.bc := 1 }).andThen
        fun ct u =>
          let v := absorbLengths s.regs.adlen.value s.regs.len.value (absorbPayload ad ct u)
          (memWrite (v.regs.dst.value + s.regs.len.value) (currentTag v) v).andThen fun _ w =>
            .done () { w with status.phase := .tagged } := by
    have hd := deriveKey_silent s
    refine (WaitsSome.after hd (memRead_waits s.regs.ad.value s.regs.adlen.value (hd.bus hb))).andThen fun ad t _ ht => ?_
    refine (payload_waits 1 (blocksFor s.regs.len.value) s.regs.len.value ht).andThen fun ct u _ hu => ?_
    have hk := absorbed_silent ad ct s.regs.adlen.value s.regs.len.value u
    have hw := (memWrite_waits' (a := fun v => v.regs.dst.value + s.regs.len.value) (bs := currentTag) (fun _ => rfl)
      (fun _ => rfl) (hk.bus hu)).andThen (G := fun _ w => .done () { w with status.phase := .tagged })
      fun _ w _ hw => .done (f := fun _ => ()) hw (fun _ => rfl) (setPhase_silent .tagged w)
    exact WaitsSome.after hk hw
  exact h.congr fun _ => rfl

theorem aeadDecryptVerify_waits (hb : s.bus = []) : WaitsSome s aeadDecryptVerify := by
  have h : WaitsSome s fun u => (memRead s.regs.ad.value s.regs.adlen.value (deriveKey u)).andThen fun ad t =>
      (memRead t.regs.src.value (s.regs.len.value - 16) t).andThen fun ct u =>
        (memRead (u.regs.src.value + (s.regs.len.value - 16)) 16 u).andThen fun rtag v =>
          let w := absorbLengths s.regs.adlen.value (s.regs.len.value - 16) (absorbPayload ad ct v)
          .done () (compareTags rtag { w with engine.etag := bytesVector 16 (currentTag w) }) := by
    have hd := deriveKey_silent s
    refine (WaitsSome.after hd (memRead_waits s.regs.ad.value s.regs.adlen.value (hd.bus hb))).andThen fun ad t _ ht => ?_
    refine (memRead_waits' (a := fun t => t.regs.src.value) (s.regs.len.value - 16) (fun _ => rfl) ht).andThen
      fun ct u _ hu => ?_
    refine (memRead_waits' (a := fun u => u.regs.src.value + (s.regs.len.value - 16)) 16 (fun _ => rfl) hu).andThen
      fun rtag v _ hv => ?_
    have hk := absorbed_silent ad ct s.regs.adlen.value (s.regs.len.value - 16) v
    exact .done (f := fun _ => ()) hv (fun _ => rfl) ((hk.then (setTag_silent _)).then (compareTags_silent rtag _))
  exact h.congr fun _ => rfl

theorem aeadDecryptRelease_waits (hb : s.bus = []) : WaitsSome s aeadDecryptRelease := by
  by_cases hd : s.engine.diff = 0
  · have hk := setPhase_silent .verified s
    have h : WaitsSome { s with status.phase := .verified } aeadDecryptSecondPass := by
      have h := payload_waits 1 (blocksFor (s.regs.len.value - 16)) (s.regs.len.value - 16) (hk.bus hb)
      exact (h.andThen (G := fun _ t => .done () t) fun _ _ _ ht => .value () ht).congr fun _ => rfl
    exact (WaitsSome.after hk h).congr fun b => if_pos (show (s.answeredBy b).engine.diff = 0 from hd)
  · refine WaitsSome.congr (F := fun u => .raised .authFail { u with status.phase := .rejected }) ?_
      fun b => if_neg (show ¬(s.answeredBy b).engine.diff = 0 from hd)
    exact ⟨[], ⟨rfl, hb, rfl, fun k rest => by rw [List.length_nil, Nat.zero_add]; rfl, fun k rest a ha => by simp at ha⟩⟩

theorem aeadDecryptWork_waits (hb : s.bus = []) : WaitsSome s aeadDecryptWork :=
  (aeadDecryptVerify_waits hb).andThen fun _ _ _ ht => aeadDecryptRelease_waits ht

/-! ### A whole command -/

/-- A command whose work waits: where the run with every access answered has made an access, the run with that answer missing
stays busy at it. -/
theorem runCommand_waits {work : State → Res Unit} (p : Profile) (hw : WaitsSome s work) {t0 : State}
    {acc : List MemAccess} (h0 : runCommand p work s = .next t0) (hp : t0.trace.portLog = acc ++ s.trace.portLog) {k : Nat}
    {rest : List BusResp} {a : MemAccess} (ha : acc.reverse[k]? = some a) :
    ∃ t, runCommand p work (s.answeredBy (missingAfter k rest)) = .next t ∧ t.status.busy = s.status.busy ∧
      t.memReq = some a := by
  obtain ⟨acc', h⟩ := hw
  have he : (settle p (work s)) = .next t0 → t0.trace.portLog = (work s).state.trace.portLog := by
    intro hs
    cases hr : work s with
    | done x u => rw [hr] at hs; injection hs with hs; rw [← hs]; rfl
    | raised c u =>
      rw [hr] at hs; injection hs with hs; rw [← hs]
      split
      · obtain ⟨m, n, e⟩ := scramble_frame p.writes u; rw [e]; rfl
      · rfl
    | hung u => rw [hr] at hs; injection hs with hs; rw [← hs]; rfl
  unfold runCommand at h0 ⊢
  have hc : preCheck p (s.answeredBy (missingAfter k rest)) = preCheck p s := rfl
  rw [hc]
  split at h0
  · injection h0 with h0
    have : acc = [] := List.append_cancel_right (bs := s.trace.portLog) (by rw [← hp, ← h0]; rfl)
    subst this; simp at ha
  · split at h0
    · cases h0
    · rename_i hs
      rw [if_neg (show ¬p.touches (s.answeredBy (missingAfter k rest)).platform.sideEffects = true from hs)]
      have e : acc' = acc := List.append_cancel_right (bs := s.trace.portLog) (by rw [← h.port, ← he h0, hp])
      subst e
      obtain ⟨u, hu, hm, hbusy⟩ := h.waits k rest a ha
      rw [hu]
      exact ⟨u, rfl, hbusy, hm⟩

end Sys2Proof.Machine
end

