-- ==== Sys2Proof/Tests/Slice0.lean ====
section
/-! SUPPORT. Tests: the well-formedness checks, the words of spec/opcode_table.json, one step of each instruction against values of 95_test_vectors.md, and for every obligation with hypotheses a state and operands that meet them. -/

namespace Sys2Proof.Tests

set_option Elab.async false

open Sys2Proof.Machine

/-! ### Well-formedness -/

theorem test_wf_named : (Instr.hostWr (.key 7) 5).wellFormed = true := by decide

theorem test_wf_reserved : (Instr.hostRd (.reserved 0x3F)).wellFormed = true := by decide

theorem test_illFormed_write : (Instr.hostWr (.reserved 0x04) 0).wellFormed = false := by decide

theorem test_illFormed_read : (Instr.hostRd (.reserved 0x40)).wellFormed = false := by decide

/-! ### Words, bit by bit from R86 and R95 -/

theorem test_word_chachaBlock : decodeTableWord 32 0b00000000000000000000000000000001 = some .chachaBlock := by decide

theorem test_word_chachaApply : decodeTableWord 32 0b00000000000000000000000000000010 = some .chachaApply := by decide

theorem test_word_poly1305Tag : decodeTableWord 32 0b00000000000000000000000000000011 = some .poly1305Tag := by decide

theorem test_word_aeadEncrypt : decodeTableWord 32 0b00000000000000000000000000000100 = some .aeadEncrypt := by decide

theorem test_word_aeadDecrypt : decodeTableWord 32 0b00000000000000000000000000000101 = some .aeadDecrypt := by decide

theorem test_word_zeroize : decodeTableWord 32 0b00000000000000000000000000000110 = some .zeroize := by decide

/-- `WR NONCE2, 0x00000080`. -/
theorem test_word_hostWr : decodeTableWord 40 0b1001001000000000000000000000000010000000 = some (.hostWr (.nonce 2) 0x80) := by
  decide

/-- `RD KEYSET`. -/
theorem test_word_hostRd : decodeTableWord 40 0b0100010000000000000000000000000000000000 = some (.hostRd .keyset) := by decide

theorem test_word_opcode0 : decodeCommand 0x00000000 = .error .reservedOpcode := by rfl

theorem test_word_opcode7 : decodeCommand 0x00000017 = .error .reservedOpcode := by rfl

theorem test_word_reservedBits : decodeCommand 0x00000011 = .error .reservedBits := by rfl

theorem test_word_malformed :
    decodeTableWord 40 0x0200000000 = none ∧ decodeTableWord 40 0xC200000000 = none ∧ decodeTableWord 40 0x4200000001 = none := by
  decide

/-! ### States -/

/-- The state an instruction leaves, when it leaves one. -/
def after (o : Host.Outcome State Fault Refusal) : Option State :=
  match o with
  | .next t => some t
  | .fault _ => none
  | .refused _ => none

/-- A zero key and a zero nonce written, regions at 0x100 (DST), 0x200 (SRC) and 0x300 (AD). -/
def keyed (len adlen : Word) : State :=
  { State.reset with
    regs := {
      Regs.zero with
      kmask := 0xFF, nmask := 0x7, dst := ⟨0x100, 0⟩, src := ⟨0x200, 0⟩, ad := ⟨0x300, 0⟩
      len := ⟨len, 0⟩, adlen := ⟨adlen, 0⟩ } }

/-- The same, with a command word accepted. -/
def launched (w len adlen : Word) : State :=
  accept w (keyed len adlen)

/-- The key `80 81 .. 9f` and the nonce of V9 (R38, R39). -/
def v9 (len : Word) (m : Memory) : State :=
  { launched 4 len 12 with
    mem := m
    regs.key := #v[0x83828180, 0x87868584, 0x8b8a8988, 0x8f8e8d8c, 0x93929190, 0x97969594, 0x9b9a9998, 0x9f9e9d9c]
    regs.nonce := #v[0x00000007, 0x43424140, 0x47464544] }

/-- The associated data of V9. -/
def v9Ad : Bytes :=
  [0x50, 0x51, 0x52, 0x53, 0xc0, 0xc1, 0xc2, 0xc3, 0xc4, 0xc5, 0xc6, 0xc7]

/-- The plaintext of V9, the "sunscreen" text. -/
def v9Plain : Bytes :=
  [0x4c, 0x61, 0x64, 0x69, 0x65, 0x73, 0x20, 0x61, 0x6e, 0x64, 0x20, 0x47, 0x65, 0x6e, 0x74, 0x6c, 0x65, 0x6d, 0x65] ++
  [0x6e, 0x20, 0x6f, 0x66, 0x20, 0x74, 0x68, 0x65, 0x20, 0x63, 0x6c, 0x61, 0x73, 0x73, 0x20, 0x6f, 0x66, 0x20, 0x27] ++
  [0x39, 0x39, 0x3a, 0x20, 0x49, 0x66, 0x20, 0x49, 0x20, 0x63, 0x6f, 0x75, 0x6c, 0x64, 0x20, 0x6f, 0x66, 0x66, 0x65] ++
  [0x72, 0x20, 0x79, 0x6f, 0x75, 0x20, 0x6f, 0x6e, 0x6c, 0x79, 0x20, 0x6f, 0x6e, 0x65, 0x20, 0x74, 0x69, 0x70, 0x20] ++
  [0x66, 0x6f, 0x72, 0x20, 0x74, 0x68, 0x65, 0x20, 0x66, 0x75, 0x74, 0x75, 0x72, 0x65, 0x2c, 0x20, 0x73, 0x75, 0x6e] ++
  [0x73, 0x63, 0x72, 0x65, 0x65, 0x6e, 0x20, 0x77, 0x6f, 0x75, 0x6c, 0x64, 0x20, 0x62, 0x65, 0x20, 0x69, 0x74, 0x2e]

/-- The output of V9, ciphertext and tag. -/
def v9Sealed : Bytes :=
  [0xd3, 0x1a, 0x8d, 0x34, 0x64, 0x8e, 0x60, 0xdb, 0x7b, 0x86, 0xaf, 0xbc, 0x53, 0xef, 0x7e, 0xc2, 0xa4, 0xad, 0xed] ++
  [0x51, 0x29, 0x6e, 0x08, 0xfe, 0xa9, 0xe2, 0xb5, 0xa7, 0x36, 0xee, 0x62, 0xd6, 0x3d, 0xbe, 0xa4, 0x5e, 0x8c, 0xa9] ++
  [0x67, 0x12, 0x82, 0xfa, 0xfb, 0x69, 0xda, 0x92, 0x72, 0x8b, 0x1a, 0x71, 0xde, 0x0a, 0x9e, 0x06, 0x0b, 0x29, 0x05] ++
  [0xd6, 0xa5, 0xb6, 0x7e, 0xcd, 0x3b, 0x36, 0x92, 0xdd, 0xbd, 0x7f, 0x2d, 0x77, 0x8b, 0x8c, 0x98, 0x03, 0xae, 0xe3] ++
  [0x28, 0x09, 0x1b, 0x58, 0xfa, 0xb3, 0x24, 0xe4, 0xfa, 0xd6, 0x75, 0x94, 0x55, 0x85, 0x80, 0x8b, 0x48, 0x31, 0xd7] ++
  [0xbc, 0x3f, 0xf4, 0xde, 0xf0, 0x8e, 0x4b, 0x7a, 0x9d, 0xe5, 0x76, 0xd2, 0x65, 0x86, 0xce, 0xc6, 0x4b, 0x61, 0x16] ++
  [0x1a, 0xe1, 0x0b, 0x59, 0x4f, 0x09, 0xe2, 0x6a, 0x7e, 0x90, 0x2e, 0xcb, 0xd0, 0x60, 0x06, 0x91]

/-! ### One step of each instruction -/

/-- V5: the first and the last bytes of the block, and the record. -/
theorem test_chachaBlock :
    (after (exec .chachaBlock (launched 1 0 0))).map (fun t => (t.mem.bytes 0x100 4, t.mem.bytes 0x13c 5, statusWord t t.status.phase)) =
      some ([0x76, 0xb8, 0xe0, 0xad], [0xb2, 0xee, 0x65, 0x86, 0x00], 0x00000002) := by
  decide +kernel

/-- Section 2.1: zero bytes give the keystream; byte 64 uses block 1, byte 65 is not written. -/
theorem test_chachaApply :
    (after (exec .chachaApply (launched 2 65 0))).map (fun t => t.mem.bytes 0x13e 4) = some [0x65, 0x86, 0x9f, 0x00] := by
  decide +kernel

/-- Section 2.1: CTR = 0xffffffff and 65 bytes need a counter of `2^32`. -/
theorem test_chachaApply_capacity :
    (after (exec .chachaApply { launched 2 65 0 with regs.ctr := 0xffffffff })).map (fun t => statusWord t t.status.phase) =
      some 0x00000132 := by
  decide +kernel

/-- V7. -/
theorem test_poly1305Tag :
    (after (exec .poly1305Tag
        { launched 3 34 0 with
          regs.key := #v[0x78bed685, 0x336d5557, 0xfe52447f, 0xa806d542, 0x8a800301, 0xfdb20dfb, 0xaff6bf4a, 0x1bf54941]
          mem := Memory.store [] 0x200 (
            [0x43, 0x72, 0x79, 0x70, 0x74, 0x6f, 0x67, 0x72, 0x61, 0x70, 0x68, 0x69, 0x63, 0x20, 0x46, 0x6f, 0x72, 0x75, 0x6d] ++
            [0x20, 0x52, 0x65, 0x73, 0x65, 0x61, 0x72, 0x63, 0x68, 0x20, 0x47, 0x72, 0x6f, 0x75, 0x70]) })).map
      (fun t => t.mem.bytes 0x100 16) =
    some [0xa8, 0x06, 0x1d, 0xc1, 0x30, 0x51, 0x36, 0xc6, 0xc2, 0x2b, 0x8b, 0xaf, 0x0c, 0x01, 0x27, 0xa9] := by
  decide +kernel

/-- V9. -/
theorem test_aeadEncrypt :
    (after (exec .aeadEncrypt (v9 114 (Memory.store (Memory.store [] 0x200 v9Plain) 0x300 v9Ad)))).map
      (fun t => (t.mem.bytes 0x100 130, statusWord t t.status.phase)) = some (v9Sealed, 0x00006002) := by
  decide +kernel

/-- V9 backwards. -/
theorem test_aeadDecrypt :
    (after (exec .aeadDecrypt (v9 130 (Memory.store (Memory.store [] 0x200 v9Sealed) 0x300 v9Ad)))).map
      (fun t => (t.mem.bytes 0x100 115, statusWord t t.status.phase)) = some (v9Plain ++ [0], 0x00004002) := by
  decide +kernel

/-- V9 with the top bit of the last tag byte flipped: nothing is written (R192). -/
theorem test_aeadDecrypt_rejects :
    (after (exec .aeadDecrypt
        (v9 130 (Memory.store (Memory.store (Memory.store [] 0x200 v9Sealed) 0x281 [0x11]) 0x300 v9Ad)))).map
      (fun t => (t.mem.bytes 0x100 2, statusWord t t.status.phase)) = some ([0, 0], 0x00005042) := by
  decide +kernel

/-- R122: KEYSET reads 0 afterwards. -/
theorem test_zeroize :
    (after (exec .zeroize (launched 6 0 0))).map (fun t => (keysetWord t, statusWord t t.status.phase)) = some (0, 0x00000002) := by
  decide +kernel

/-- R37, R36: a key word written is marked, and reads 0. -/
theorem test_hostWr :
    (after (exec (.hostWr (.key 2) 7) State.reset)).map (fun t => (keysetWord t, t.regs.key[2], (readReg (.key 2) t).1)) =
      some (4, 7, 0) := by
  decide +kernel

/-- R41: one half of an address register; the other is kept. -/
theorem test_hostWr_half :
    (after (exec (.hostWr (.half .dst .hi) 9) (keyed 0 0))).map (fun t => t.regs.dst.value) = some 0x900000100 := by
  decide +kernel

/-- R24. -/
theorem test_hostRd : (after (exec (.hostRd .id) State.reset)).map (fun t => t.rdata) = some 0x00018439 := by decide +kernel

/-- R123: STATUS after the words 0x7 and 0x11. -/
theorem test_illegal :
    [0x7, 0x11].map (fun w => (after (engineMove (launched w 0 0))).map fun t => statusWord t t.status.phase) =
      [some 0x00000112, some 0x00000212] := by
  decide +kernel

/-- R128's example. -/
theorem test_quarterRound :
    quarterRound 0x11111111 0x01020304 0x9b8d6f43 0x01234567 = (0xea2a92f4, 0xcb1cf8ce, 0x4581472e, 0x5881c4bb) := by
  decide

/-- Placing a word and stepping runs its instruction: the illegal word 0x7 and `RD ID`. -/
theorem test_withFetchWord :
    (after (step (State.reset.withFetchWord 32 7))).map (fun t => statusWord t t.status.phase) = some 0x00000112 ∧
      (after (step (State.reset.withFetchWord 40 0x4000000000))).map (fun t => t.rdata) = some 0x00018439 := by
  decide +kernel

/-! ### States that meet the hypotheses of the obligations -/

/-- A next state with a decidable property, from an evaluation. -/
theorem exists_next {o : Host.Outcome State Fault Refusal} {P : State → Prop} [DecidablePred P]
    (h : (after o).any (fun t => decide (P t)) = true) : ∃ t, o = .next t ∧ P t := by
  cases o with
  | next t => exact ⟨t, rfl, by simpa [after] using h⟩
  | fault f => cases h
  | refused r => cases h

/-- An accepted command meets the invariant, whatever its word and its lengths. -/
theorem inv_launched (w len adlen : Word) : Inv (launched w len adlen) where
  memWf := rfl
  memBelow := rfl
  postedBelow := rfl
  record := ⟨.success, rfl, rfl⟩
  residue := engineZero_bounds.1
  clamped := engineZero_bounds.2.1
  rounds := engineZero_bounds.2.2
  keyUnset := fun i _ => by fin_cases i <;> rfl
  nonceUnset := fun i _ => by fin_cases i <;> rfl
  ordinary := fun _ => reachesDevice_none w rfl
  idle := fun h => by cases h
  running := fun _ => ⟨rfl, rfl, rfl⟩
  accepted := fun _ _ => ⟨rfl, rfl⟩
  rejected := by constructor <;> intro h <;> cases h
  unstarted := fun _ => rfl
  tagged := fun h => by cases h

/-- An accepted command whose first access is never answered. -/
def waiting : State :=
  { launched 1 0 0 with memReq := some ⟨.write, 0x100⟩ }

/-- An AEAD_DECRYPT of one byte of ciphertext and two of associated data whose tag is right. -/
def genuine : State :=
  { launched 5 17 2 with
    mem := Memory.store [] 0x201 (aeadTag (Vector.replicate 8 0) (Vector.replicate 3 0) [0, 0] [0]) }

/-- The same with a tag of zeros. -/
def forged : State :=
  launched 5 17 2

theorem test_witness_EncodedInstructionDecodes : (Instr.hostWr .cmd 4).wellFormed = true := by decide

theorem test_witness_DecodedWordEncodes : decode (.host40 0x8300000004#40) = .ok (.hostWr .cmd 4) := by rfl

theorem test_witness_ListingWordValidity :
    (0x8300000004#40).extractLsb' 38 2 = 0b10#2 ∧
      ((0x4200000000#40).extractLsb' 38 2 = 0b01#2 ∧ (0x4200000000#40).extractLsb' 0 32 = 0#32) ∧
      (0x0200000000#40).extractLsb' 38 2 = 0b00#2 ∧ (0xC200000000#40).extractLsb' 38 2 = 0b11#2 ∧
      ((0x4200000001#40).extractLsb' 38 2 = 0b01#2 ∧ (0x4200000001#40).extractLsb' 0 32 ≠ 0#32) := by
  decide

theorem test_witness_StepRunsTransaction :
    platformRefusal (placeTransaction 0x4200000000#40 State.reset).platform = none ∧
      decodeHost 0x4200000000#40 = .ok (.hostRd .status) ∧
      (placeTransaction 0x4200000000#40 State.reset).host.moves = .xact 0x4200000000#40 :: [] :=
  ⟨rfl, rfl, rfl⟩

theorem test_witness_StepRunsAcceptedCommand :
    platformRefusal (launched 6 0 0).platform = none ∧ (launched 6 0 0).status.busy = true ∧ (launched 6 0 0).memReq = none ∧
      decodeCommand (launched 6 0 0).curOp = .ok .zeroize ∧ (launched 6 0 0).host.moves = [] ∧
      (placeCommand 6 State.reset).status.busy = true ∧ (placeCommand 6 State.reset).memReq = none ∧
      (placeCommand 6 State.reset).host.moves = .engine :: [] :=
  ⟨rfl, rfl, rfl, rfl, rfl, rfl, rfl, rfl⟩

theorem test_witness_RefusalsByName_malformed :
    platformRefusal State.reset.platform = none ∧
      (placeTransaction 0x4200000001#40 State.reset).host.moves = .xact 0x4200000001#40 :: [] ∧
      decodeHost 0x4200000001#40 = .error .readWithData :=
  ⟨rfl, rfl, rfl⟩

/-- The state of a command whose last source byte is a device register. -/
def special : State :=
  { launched 2 4 0 with platform := { Config.platform with sideEffects := [⟨0x203, 1⟩] } }

theorem test_witness_RefusalsByName_special :
    isKeyed .chachaApply = true ∧ preCheck (profileOf .chachaApply special) special = none ∧
      (profileOf .chachaApply special).touches special.platform.sideEffects = true := by
  decide +kernel

/-- The same before its acceptance: the write of CMD is refused. -/
theorem test_witness_RefusalsByName_launch :
    (let s : State := { special with status.busy := false }
     s.status.busy = false ∧
       (∀ c ∈ s.host.posted, inRegions ((wordProfile 2 s).reads ++ (wordProfile 2 s).writes) c.1 = false) ∧
       preCheck (wordProfile 2 s) s = none ∧ (wordProfile 2 s).touches s.platform.sideEffects = true) := by
  decide +kernel

theorem test_witness_RefusalsByName_platform :
    (let s : State := { State.reset with platform := { Config.platform with addrW := 65 } }
     s.platform.addrW = 0 ∨ 64 < s.platform.addrW) ∧
    (let s : State := { State.reset with platform := { Config.platform with addrW := 64, dmaCoherent := false } }
     1 ≤ s.platform.addrW ∧ s.platform.addrW ≤ 64 ∧ s.platform.dmaCoherent = false) := by
  decide

theorem test_witness_StatusWordLayout : (keyed 0 0).status.busy = false := rfl

theorem test_witness_StatusReadWhileBusy :
    Inv (launched 4 1 0) ∧ (launched 4 1 0).status.busy = true ∧ (launched 4 1 0).memReq = none ∧
      ∃ t, engineMove (launched 4 1 0) = .next t ∧ t.status.phase = .tagged :=
  ⟨inv_launched 4 1 0, rfl, rfl, exists_next (by decide +kernel)⟩

theorem test_witness_StatusReadWhileBusy_waiting : Inv waiting ∧ waiting.status.busy = true ∧ waiting.memReq ≠ none :=
  ⟨{ inv_launched 1 0 0 with
      idle := fun h => by cases h
      accepted := fun _ h => by cases h },
    rfl, by decide⟩

theorem test_witness_IgnoredWrites :
    [0x05, 0x07, 0x1E, 0x3F].all (fun n => decide ((0x05 ≤ n ∧ n ≤ 0x07) ∨ (0x1E ≤ n ∧ n ≤ 0x3F))) = true := by
  decide

theorem test_witness_SetUpWrites : State.reset.status.busy = false := rfl

theorem test_witness_BusyWrites : (launched 1 0 0).status.busy = true ∧ (∃ p h, Reg.half .adlen .hi = .half p h) :=
  ⟨rfl, .adlen, .hi, rfl⟩

/-- A host store outside the regions of the command is still to be performed. -/
theorem test_witness_CommandAcceptance :
    (let s : State := { keyed 4 0 with host.posted := [(0x204, 1)] }
     s.status.busy = false ∧
       (∀ c ∈ s.host.posted, inRegions ((wordProfile 2 s).reads ++ (wordProfile 2 s).writes) c.1 = false) ∧
       ¬(preCheck (wordProfile 2 s) s = none ∧ (wordProfile 2 s).touches s.platform.sideEffects = true)) ∧
      decodeCommand 7 = .error .reservedOpcode :=
  ⟨⟨rfl, by decide +kernel, by decide +kernel⟩, rfl⟩

theorem test_witness_PostedStoreRace :
    (let s : State := { keyed 4 0 with host.posted := [(0x204, 1), (0x203, 1)] }
     s.status.busy = false ∧ (0x203, 1) ∈ s.host.posted ∧
       inRegions ((wordProfile 2 s).reads ++ (wordProfile 2 s).writes) 0x203 = true) := by
  decide +kernel

/-- The first and the last byte of each region of the running command. -/
theorem test_witness_HostRaceWhileBusy :
    (let s := launched 2 4 0
     s.status.busy = true ∧ 0x203 < spaceSize s ∧
       [0x200, 0x203, 0x100, 0x103].all
         (fun a => inRegions ((wordProfile s.curOp s).reads ++ (wordProfile s.curOp s).writes) a) = true ∧
       [0x100, 0x103].all (fun a => inRegions (wordProfile s.curOp s).writes a) = true) := by
  decide +kernel

theorem test_witness_HostStoreAndLoad :
    (let s : State := { launched 2 4 0 with host.posted := [(2 ^ 32 - 1, 7)] }
     s.mem.wf = true ∧ 2 ^ 32 - 1 < spaceSize s ∧
       (s.status.busy = true → inRegions ((wordProfile s.curOp s).reads ++ (wordProfile s.curOp s).writes) (2 ^ 32 - 1) = false) ∧
       inRegions s.platform.sideEffects (2 ^ 32 - 1) = false ∧ s.host.posted = (2 ^ 32 - 1, 7) :: []) ∧
    (let s := launched 2 4 0
     s.mem.wf = true ∧ 0x203 < spaceSize s ∧
       (s.status.busy = true → inRegions (wordProfile s.curOp s).writes 0x203 = false) ∧
       inRegions s.platform.sideEffects 0x203 = false ∧ s.host.posted = []) ∧
    (let s : State := { special with status.busy := false }
     s.mem.wf = true ∧ 0x203 < spaceSize s ∧ s.status.busy = false ∧ inRegions s.platform.sideEffects 0x203 = true) := by
  decide +kernel

/-- A keyed decryption state with the given mask, lengths, DST and address width. -/
def checked (kmask : BitVec 8) (nmask : BitVec 3) (len dst : Word) (addrW : Nat) : State :=
  { launched 5 len 2 with
    regs := { (keyed len 2).regs with kmask := kmask, nmask := nmask, dst := ⟨dst, 0⟩ }
    platform := { Config.platform with addrW := addrW } }

/-- The clauses in their order: each state meets the conditions of its clause. -/
theorem test_witness_PreCheckOrder_masks :
    isKeyed .aeadDecrypt = true ∧ (checked 0x7F 7 15 0x100 32).regs.kmask ≠ 0xFF#8 ∧
      (let s := checked 0xFF 3 15 0x100 32
       s.regs.kmask = 0xFF#8 ∧ usesNonce .aeadDecrypt = true ∧ s.regs.nmask ≠ 0x7#3) ∧
      (let s := checked 0xFF 7 15 0x100 32
       s.regs.kmask = 0xFF#8 ∧ s.regs.nmask = 0x7#3 ∧ s.regs.len.value < 16) := by
  decide +kernel

theorem test_witness_PreCheckOrder_regions :
    (let s := checked 0xFF 7 17 0xFFFFFFFF 32
     16 ≤ s.regs.len.value ∧ regionsInRange .aeadDecrypt s) ∧
    (let s := checked 0xFF 7 18 0xFFFFFFFF 32
     16 ≤ s.regs.len.value ∧ ¬regionsInRange .aeadDecrypt s) ∧
    (let s := checked 0xFF 7 17 0x301 32
     16 ≤ s.regs.len.value ∧ regionsInRange .aeadDecrypt s ∧ regionsClash .aeadDecrypt s) ∧
    (let s := checked 0xFF 7 17 0x302 32
     16 ≤ s.regs.len.value ∧ regionsInRange .aeadDecrypt s ∧ ¬regionsClash .aeadDecrypt s ∧ ¬overCapacity .aeadDecrypt s) := by
  unfold regionsInRange regionsClash overCapacity meet
  decide +kernel

theorem test_witness_PreCheckOrder_capacity :
    (let s : State := { launched 2 65 0 with regs.ctr := 0xFFFFFFFF }
     isKeyed .chachaApply = true ∧ s.regs.kmask = 0xFF#8 ∧ s.regs.nmask = 0x7#3 ∧ regionsInRange .chachaApply s ∧
       ¬regionsClash .chachaApply s ∧ overCapacity .chachaApply s) ∧
    (let s : State := { launched 2 64 0 with regs.ctr := 0xFFFFFFFF }
     ¬overCapacity .chachaApply s) := by
  unfold regionsInRange regionsClash overCapacity meet
  decide +kernel

theorem test_witness_EveryCompletionZeroises :
    Inv (launched 1 0 0) ∧ (launched 1 0 0).status.busy = true ∧
      (∃ t, step (launched 1 0 0) = .next t ∧ t.status.done = true) ∧ decodeCommand (launched 1 0 0).curOp ≠ .ok .zeroize :=
  ⟨inv_launched 1 0 0, rfl, exists_next (by decide +kernel), by rw [show decodeCommand (launched 1 0 0).curOp = .ok .chachaBlock from rfl]; simp⟩

theorem test_witness_ZeroizeCommand :
    Inv (launched 6 0 0) ∧ (launched 6 0 0).status.busy = true ∧ (launched 6 0 0).memReq = none :=
  ⟨inv_launched 6 0 0, rfl, rfl⟩

theorem test_witness_IllegalCommandWord :
    decodeCommand (launched 0xFFFFFFF7 0 0).curOp = .error .reservedOpcode ∧
      decodeCommand (launched 0x16 0 0).curOp = .error .reservedBits ∧ Inv (launched 0x16 0 0) ∧
      (launched 0x16 0 0).status.busy = true ∧ (launched 0x16 0 0).memReq = none :=
  ⟨rfl, rfl, inv_launched 0x16 0 0, rfl, rfl⟩

theorem test_witness_CommandFrame :
    isKeyed .aeadDecrypt = true ∧ genuine.mem.wf = true ∧ ∃ t, exec .aeadDecrypt genuine = .next t ∧ t.status.err = 0 :=
  ⟨rfl, by decide +kernel, exists_next (by decide +kernel)⟩

/-- One state for each clause: no pre-check passed, and a wrong tag. -/
theorem test_witness_AccessesStayInside :
    (checked 0x7F 7 17 0x100 32).status.busy = true ∧
      (∃ t, engineMove (checked 0x7F 7 17 0x100 32) = .next t ∧ t.status.busy = false ∧ t.status.err = 2) ∧
      forged.status.busy = true ∧ ∃ t, engineMove forged = .next t ∧ t.status.busy = false ∧ t.status.err = 4 :=
  ⟨rfl, exists_next (by decide +kernel), rfl, exists_next (by decide +kernel)⟩

/-- The second access of CHACHA_BLOCK is answered with an error. -/
def failing : State :=
  { launched 1 0 0 with bus := [.ok, .error] }

theorem test_witness_PreciseErrors :
    failing.mem.wf = true ∧ failing.status.busy = true ∧
      (∃ t, engineMove failing = .next t ∧ t.status.busy = false ∧ t.status.err ≠ 0 ∧ t.status.err = 5) ∧
      forged.mem.wf = true ∧ ∃ t, engineMove forged = .next t ∧ t.status.busy = false ∧ t.status.err ≠ 0 ∧ t.status.err = 4 :=
  ⟨rfl, rfl, exists_next (P := fun t => t.status.busy = false ∧ t.status.err ≠ 0 ∧ t.status.err = 5) (by decide +kernel), rfl, exists_next (by decide +kernel)⟩

theorem test_witness_BusErrorEndsCommand :
    isKeyed .chachaBlock = true ∧ failing.status.busy = true ∧
      ∃ t, exec .chachaBlock failing = .next t ∧ t.status.busy = false ∧ t.status.err = 5 ∧ t.status.sub = 2 :=
  ⟨rfl, rfl, exists_next (P := fun t => t.status.busy = false ∧ t.status.err = 5 ∧ t.status.sub = 2) (by decide +kernel)⟩

theorem test_witness_AnsweredCommandCompletes :
    failing.status.busy = true ∧ BusResp.never ∉ failing.bus ∧
      (wordProfile failing.curOp failing).touches failing.platform.sideEffects = false := by
  decide +kernel

theorem test_witness_UnansweredCommandIsStuck :
    isKeyed .chachaBlock = true ∧
      (∃ t, exec .chachaBlock { launched 1 0 0 with bus := [.never] } = .next t ∧ t.status.busy = true ∧
        platformRefusal t.platform = none ∧ t.host.moves = []) :=
  ⟨rfl, exists_next (by decide +kernel)⟩

/-- The other direction: the third access of CHACHA_BLOCK is never answered. -/
theorem test_witness_UnansweredCommandIsStuck_missing :
    (let s : State := { launched 1 0 0 with bus := [.ok, .ok, .never, .error] }
     isKeyed .chachaBlock = true ∧ s.status.busy = true ∧ preCheck (profileOf .chachaBlock s) s = none ∧
       (profileOf .chachaBlock s).touches s.platform.sideEffects = false ∧
       s.bus = List.replicate 2 .ok ++ .never :: [.error] ∧
       ∃ u, exec .chachaBlock { s with bus := [] } = .next u ∧ u.trace.portLog.reverse[2]? = some ⟨.write, 0x102⟩) := by
  exact ⟨rfl, rfl, by decide +kernel, by decide +kernel, rfl, exists_next (by decide +kernel)⟩

theorem test_witness_ChachaBlockResult : ready (chachaBlockProfile (launched 1 0 0)) (launched 1 0 0) := by
  unfold ready; decide +kernel

theorem test_witness_ChachaApplyResult :
    (launched 2 65 0).mem.wf = true ∧ ready (chachaApplyProfile (launched 2 65 0)) (launched 2 65 0) := by
  unfold ready; decide +kernel

theorem test_witness_Poly1305TagResult : ready (poly1305TagProfile (launched 3 17 0)) (launched 3 17 0) := by
  unfold ready; decide +kernel

theorem test_witness_AeadEncryptResult :
    (launched 4 65 2).mem.wf = true ∧ ready (aeadEncryptProfile (launched 4 65 2)) (launched 4 65 2) := by
  unfold ready; decide +kernel

theorem test_witness_AeadDecryptAccepts :
    genuine.mem.wf = true ∧ ready (aeadDecryptProfile genuine) genuine ∧ verifies genuine := by
  unfold ready verifies; decide +kernel

theorem test_witness_AeadDecryptRejects : ready (aeadDecryptProfile forged) forged ∧ ¬verifies forged := by
  unfold ready verifies; decide +kernel

theorem test_witness_ResultsInMemory :
    isKeyed .aeadDecrypt = true ∧ genuine.mem.wf = true ∧ ready (profileOf .aeadDecrypt genuine) genuine ∧
      (Instr.aeadDecrypt = .aeadDecrypt → verifies genuine) := by
  unfold ready verifies; decide +kernel

theorem test_witness_VerifyThenDecrypt :
    ∃ t, exec .aeadDecrypt genuine = .next t ∧
      (t.trace.portLog = t.trace.portLog ++ genuine.trace.portLog ∧ ∃ a ∈ t.trace.portLog, a.dir = .write) :=
  exists_next (by decide +kernel)

/-- The decryption set up after an encryption: SRC where its output went. -/
def reversed (s t : State) : State :=
  { t with regs := { s.regs with src := s.regs.dst, dst := ⟨0x400, 0⟩, len := ⟨17, 0⟩ } }

theorem test_witness_DecryptInvertsEncrypt :
    (let s := launched 4 1 2
     s.mem.wf = true ∧ ready (aeadEncryptProfile s) s ∧
       ∃ t, exec .aeadEncrypt s = .next t ∧
         ((reversed s t).mem = t.mem ∧ (reversed s t).regs.key = s.regs.key ∧ (reversed s t).regs.nonce = s.regs.nonce ∧
           (reversed s t).regs.ad = s.regs.ad ∧ (reversed s t).regs.adlen = s.regs.adlen ∧ (reversed s t).regs.src = s.regs.dst ∧
           (reversed s t).regs.len.value = s.regs.len.value + 16 ∧
           ready (aeadDecryptProfile (reversed s t)) (reversed s t))) := by
  unfold ready
  exact ⟨rfl, by decide +kernel, exists_next (by decide +kernel)⟩

/-- CHACHA_APPLY in place. -/
def inPlace : State :=
  { launched 2 65 0 with regs.dst := ⟨0x200, 0⟩ }

theorem test_witness_ApplyTwiceRestores :
    inPlace.mem.wf = true ∧ inPlace.regs.src = inPlace.regs.dst ∧ ready (chachaApplyProfile inPlace) inPlace ∧
      ∃ t, exec .chachaApply inPlace = .next t ∧ ({ t with regs := inPlace.regs } : State).regs = inPlace.regs := by
  unfold ready
  exact ⟨rfl, rfl, by decide +kernel, exists_next (by decide +kernel)⟩

/-- Two decryptions with different keys and different data, both with a wrong tag. -/
theorem test_witness_ConstantTimeTrace :
    (let s1 := forged
     let s2 : State := { forged with regs.key := Vector.replicate 8 1, mem := [(0x200, 3), (0x210, 4)] }
     isCommand .aeadDecrypt = true ∧ publicEq s1 s2 ∧ (verifies s1 ↔ verifies s2) ∧
       ∃ t, exec .aeadDecrypt s1 = .next t ∧ t.status.err = 4) := by
  unfold publicEq verifies
  exact ⟨rfl, ⟨rfl, rfl, rfl, rfl, rfl, rfl, rfl, rfl, rfl, rfl, rfl⟩, by decide +kernel, exists_next (by decide +kernel)⟩

/-- Two memories that differ outside the source only. -/
theorem test_witness_SameInputsSameResult :
    (let s1 := launched 2 4 0
     let s2 : State := { s1 with mem := [(0x204, 9)] }
     isCommand .chachaApply = true ∧ s1.mem.wf = true ∧ s2.mem.wf = true ∧ s1.regs = s2.regs ∧ s1.platform = s2.platform ∧
       s1.status.phase = s2.status.phase ∧ busOk s1 = true ∧ busOk s2 = true ∧
       (profileOf .chachaApply s1).touches s1.platform.sideEffects = false ∧
       ∀ x, inRegions (profileOf .chachaApply s1).reads x = true → s1.mem.read x = s2.mem.read x) := by
  refine ⟨rfl, rfl, rfl, rfl, rfl, rfl, rfl, rfl, rfl, fun x hx => ?_⟩
  have h : x < 0x204 := by
    simp [inRegions, Region.has, Profile.reads, profileOf, chachaApplyProfile, launched, keyed, accept, Pair64.value] at hx
    omega
  have : ¬(0x204 = x) := by omega
  simp [launched, keyed, accept, State.reset, Memory.read, this]

theorem test_witness_BusyChangesOnly :
    (let s := placeTransaction 0x8300000006#40 (keyed 0 0)
     ∃ t, step s = .next t ∧ s.status.busy = false ∧ t.status.busy = true) ∧
    (let s := launched 6 0 0
     ∃ t, step s = .next t ∧ s.status.busy = true ∧ t.status.busy = false) ∧
    (let s : State := { launched 6 0 0 with host.moves := [.reset] }
     ∃ t, step s = .next t ∧ s.status.busy = true ∧ t.status.busy = false) :=
  ⟨exists_next (by decide +kernel), exists_next (by decide +kernel), exists_next (by decide +kernel)⟩

theorem test_witness_WdropChangesOnly :
    (launched 6 0 0).status.busy = true ∧ (0x00000004#32).getLsbD 2 = true ∧
    (let s := placeTransaction 0x8300000006#40 (launched 6 0 0)
     ∃ t, step s = .next t ∧ s.status.wdrop = false ∧ t.status.wdrop = true) ∧
    (let s : State := { placeTransaction 0x8200000004#40 (keyed 0 0) with status.wdrop := true }
     ∃ t, step s = .next t ∧ s.status.wdrop = true ∧ t.status.wdrop = false) :=
  ⟨rfl, rfl, exists_next (by decide +kernel), exists_next (by decide +kernel)⟩

/-- A read of STATUS while a command runs, under another key: the composer states it may show are the same. -/
theorem test_witness_SecretsUnreadable :
    (launched 4 1 2).status.busy = true ∧
      reachedPhases { launched 4 1 2 with regs.key := Vector.replicate 8 1, engine := Engine.zero } = reachedPhases (launched 4 1 2) ∧
      ∃ t, exec (.hostRd (.key 0)) (launched 4 1 2) = .next t ∧ t.rdata = 0 :=
  ⟨rfl, by decide +kernel, exists_next (by decide +kernel)⟩

theorem test_witness_ResetMove :
    (let s : State := { launched 2 4 0 with host.moves := [.reset] }
     platformRefusal s.platform = none ∧ s.host.moves = .reset :: [] ∧ s.mem.wf = true ∧
       inRegions (wordProfile s.curOp s).writes 0x104 = false) ∧
    ({ keyed 0 0 with host.moves := [.reset] } : State).status.busy = false := by
  decide +kernel

theorem test_witness_InvariantKept : Inv (launched 4 1 2) ∧ ∃ t, step (launched 4 1 2) = .next t ∧ t.status.done = true :=
  ⟨inv_launched 4 1 2, exists_next (by decide +kernel)⟩

theorem test_witness_ColumnQuarterRoundsCommute :
    List.Perm [((3 : Fin 16), (7 : Fin 16), (11 : Fin 16), (15 : Fin 16)), (2, 6, 10, 14), (0, 4, 8, 12), (1, 5, 9, 13)]
      [(0, 4, 8, 12), (1, 5, 9, 13), (2, 6, 10, 14), (3, 7, 11, 15)] := by
  decide

/-- At the last counter, and two blocks from counter 0. -/
theorem test_witness_KeystreamBytes :
    (0xFFFFFFFF#32).toNat + blocksFor (List.replicate 64 (0 : Byte)).length ≤ 2 ^ 32 ∧ 63 < (List.replicate 64 (0 : Byte)).length ∧
      (0#32).toNat + blocksFor (List.replicate 65 (0 : Byte)).length ≤ 2 ^ 32 ∧ 64 < (List.replicate 65 (0 : Byte)).length := by
  decide

theorem test_witness_ClampBytes : (List.replicate 32 (0xFF : Byte)).length = 32 ∧ 0 < 16 ∧ 15 < 16 := by decide

theorem test_witness_AbsorptionRanges :
    (let b : Bytes := List.replicate 16 0xFF
     1 ≤ b.length ∧ b.length ≤ 16) ∧
    (let b : Bytes := [0]
     1 ≤ b.length ∧ b.length ≤ 16) ∧ polyPrime - 1 < polyPrime := by
  decide

theorem test_witness_EmptyAndZeroTags :
    (List.replicate 32 (0 : Byte)).length = 32 ∧ clampedR (List.replicate 32 (0 : Byte)) = 0 := by
  decide +kernel

theorem test_witness_ConstantTimeComparison : (List.replicate 16 (0 : Byte)).length = 16 := by decide

/-- A host that waits for a command, on one that runs, and on a stuck one. -/
theorem test_witness_WaitPollsUntilIdle :
    (let s : State := { launched 6 0 0 with host.moves := [.wait 1, .engine] }
     platformRefusal s.platform = none ∧ s.host.moves = .wait 1 :: [.engine]) ∧
    (let s : State := { launched 6 0 0 with host.moves := [.wait 0, .engine] }
     platformRefusal s.platform = none ∧ s.host.moves = .wait 0 :: [.engine] ∧
       ∃ t, engineTurn { s with host.moves := [.engine] } = .next t ∧ t.status.busy = false) ∧
    (let s : State := { waiting with host.moves := [.wait 5, .engine] }
     platformRefusal s.platform = none ∧ s.host.moves = .wait 5 :: [.engine] ∧ s.status.busy = true ∧ s.memReq ≠ none) := by
  exact ⟨⟨rfl, rfl⟩, ⟨rfl, rfl, exists_next (by decide +kernel)⟩, rfl, rfl, rfl, by decide⟩

/-- R98: `RUN` is a write of CMD, then the loop, which ends on a read of BUSY = 0 and goes on behind a stuck engine. -/
theorem test_wait :
    Stmt.moves (.run .zeroize 4) = [.xact 0x8300000006#40, .wait 4] ∧
      (after (step { keyed 0 0 with host.moves := [.wait 4, .engine] })).map (fun t => t.host.moves) = some [.engine] ∧
      (after (step { waiting with host.moves := [.wait 0, .reset] })).map (fun t => t.host.moves) = some [.wait 1, .reset] := by
  decide +kernel

end Sys2Proof.Tests
end

section
/-! The register port and the flags: what a transaction does to the state, said once per register, and the statements about
reads, writes, reset and BUSY/WDROP that follow (20_state.md). -/

namespace Sys2Proof

/-- The registers to which the port drops writes while BUSY (R45). -/
def Reg.Dropped (r : Reg) : Prop :=
  r = .cmd ∨ (∃ i, r = .key i) ∨ (∃ i, r = .nonce i) ∨ r = .ctr ∨ ∃ p h, r = .half p h

end Sys2Proof

namespace Sys2Proof.Machine

variable {r : Reg} {d : Word} {s t u : State} {i : Instr} {p : Profile} {ph : Phase → Prop} {acc : List MemAccess} {m : Move}

/-! ### Register reads -/

/-- Every read but one of STATUS while BUSY changes the read data alone. -/
theorem exec_hostRd_plain (h : r ≠ .status ∨ s.status.busy = false) :
    exec (.hostRd r) s = .next { s with rdata := readPlain r s } := by
  have hn : ¬(r = .status ∧ s.status.busy = true) := by
    rintro ⟨hr, hb⟩
    rcases h with h | h
    · exact h hr
    · rw [h] at hb; cases hb
  simp only [exec, execHostRd, readReg, if_neg hn]

theorem exec_hostRd_status_busy (h : s.status.busy = true) :
    exec (.hostRd .status) s = .next { s with rdata := statusWord s (drawPhase s), draws := s.draws + 1 } := by
  simp only [exec, execHostRd, readReg, h, and_self, if_true]

theorem ctrlWord_eq (s : State) : ctrlWord s = if s.regs.ie then 1 else 0 := by
  unfold ctrlWord
  cases s.regs.ie <;> rfl

/-! ### The fields of KEYSET and STATUS (R26, R36) -/

theorem keysetWord_kmask (s : State) : (keysetWord s).extractLsb' 0 8 = s.regs.kmask := by
  apply BitVec.eq_of_getLsbD_eq
  intro i hi
  rw [BitVec.getLsbD_extractLsb', getLsbD_keysetWord s (by omega)]
  simp [hi]

theorem keysetWord_nmask (s : State) : (keysetWord s).extractLsb' 8 3 = s.regs.nmask := by
  apply BitVec.eq_of_getLsbD_eq
  intro i hi
  rw [BitVec.getLsbD_extractLsb', getLsbD_keysetWord s (by omega)]
  simp [hi]

theorem keysetWord_rest (s : State) : (keysetWord s).extractLsb' 11 21 = 0 := by
  apply BitVec.eq_of_getLsbD_eq
  intro i hi
  have hk : s.regs.kmask.getLsbD (11 + i) = false := BitVec.getLsbD_of_ge _ _ (by omega)
  have hn : s.regs.nmask.getLsbD (11 + i - 8) = false := BitVec.getLsbD_of_ge _ _ (by omega)
  rw [BitVec.getLsbD_extractLsb', getLsbD_keysetWord s (by omega), hk, hn]
  simp

theorem statusWord_err (s : State) (p : Phase) : (statusWord s p).extractLsb' 4 4 = s.status.err := by
  apply BitVec.eq_of_getLsbD_eq
  intro i hi
  rw [BitVec.getLsbD_extractLsb', getLsbD_statusWord s p (by omega)]
  interval_cases i <;> simp

theorem statusWord_sub (s : State) (p : Phase) : (statusWord s p).extractLsb' 8 4 = s.status.sub := by
  apply BitVec.eq_of_getLsbD_eq
  intro i hi
  rw [BitVec.getLsbD_extractLsb', getLsbD_statusWord s p (by omega)]
  interval_cases i <;> simp

theorem statusWord_phase (s : State) (p : Phase) : (statusWord s p).extractLsb' 12 3 = p.code := by
  apply BitVec.eq_of_getLsbD_eq
  intro i hi
  rw [BitVec.getLsbD_extractLsb', getLsbD_statusWord s p (by omega)]
  interval_cases i <;> simp

theorem statusWord_rest (s : State) (p : Phase) : (statusWord s p).extractLsb' 15 17 = 0 := by
  apply BitVec.eq_of_getLsbD_eq
  intro i hi
  rw [BitVec.getLsbD_extractLsb', getLsbD_statusWord s p (by omega)]
  have he : s.status.err.getLsbD (15 + i - 4) = false := BitVec.getLsbD_of_ge _ _ (by omega)
  have hs : s.status.sub.getLsbD (15 + i - 8) = false := BitVec.getLsbD_of_ge _ _ (by omega)
  have hp : p.code.getLsbD (15 + i - 12) = false := BitVec.getLsbD_of_ge _ _ (by omega)
  have hf : 15 + i ≠ 1 ∧ 15 + i ≠ 2 ∧ 15 + i ≠ 3 := by omega
  simp [he, hs, hp, hf]

/-- The four flags of STATUS. -/
theorem statusWord_flags (s : State) (p : Phase) :
    (statusWord s p).getLsbD 0 = s.status.busy ∧ (statusWord s p).getLsbD 1 = s.status.done ∧
      (statusWord s p).getLsbD 2 = s.status.wdrop ∧ (statusWord s p).getLsbD 3 = irq s := by
  refine ⟨?_, ?_, ?_, ?_⟩ <;> rw [getLsbD_statusWord s p (by decide)] <;> simp

/-! ### Register writes -/

/-- Every write but one of CMD while idle answers a next state. -/
theorem exec_hostWr (h : r ≠ .cmd ∨ s.status.busy = true) (d : Word) : exec (.hostWr r d) s = .next (writeReg r d s) := by
  have hn : ¬(r = .cmd ∧ s.status.busy = false) := by
    rintro ⟨hr, hb⟩
    rcases h with h | h
    · exact h hr
    · rw [h] at hb; cases hb
  simp only [exec, execHostWr, if_neg hn]

theorem unlessBusy_busy (h : s.status.busy = true) (t : State) : unlessBusy s t = { s with status.wdrop := true } :=
  if_pos h

theorem unlessBusy_idle (h : s.status.busy = false) (t : State) : unlessBusy s t = t :=
  if_neg (ne_true_of_eq_false h)

theorem writeReg_dropped (hr : r.Dropped) (hb : s.status.busy = true) (d : Word) :
    writeReg r d s = { s with status.wdrop := true } := by
  rcases hr with rfl | ⟨i, rfl⟩ | ⟨i, rfl⟩ | rfl | ⟨p, h, rfl⟩ <;> exact unlessBusy_busy hb _

/-- What a register write leaves. -/
inductive Wrote (r : Reg) (d : Word) (s : State) : State → Prop where
  /-- A write dropped while BUSY (R45). -/
  | dropped (hr : r.Dropped) (hb : s.status.busy = true) : Wrote r d s { s with status.wdrop := true }
  /-- An acceptance (R106). -/
  | accepted (hr : r = .cmd) (hb : s.status.busy = false) : Wrote r d s (accept d s)
  /-- A set-up write while idle (R37 to R41). -/
  | setUp (v : Regs) (hb : s.status.busy = false) : Wrote r d s { s with regs := v }
  /-- A write of CTRL (R25). -/
  | enable (b : Bool) : Wrote r d s { s with regs.ie := b }
  /-- A write of STATUS (R34). -/
  | flags (hr : r = .status) : Wrote r d s (clearFlags d s)
  /-- A write to a read-only or reserved register (R42, R44). -/
  | ignored : Wrote r d s s

theorem writeReg_wrote (r : Reg) (d : Word) (s : State) : Wrote r d s (writeReg r d s) := by
  cases hb : s.status.busy with
  | true =>
    by_cases hr : r.Dropped
    · rw [writeReg_dropped hr hb]; exact .dropped hr hb
    · cases r with
      | id | keyset | reserved n => exact .ignored
      | ctrl => exact .enable _
      | status => exact .flags rfl
      | cmd | key i | nonce i | ctr | half p h => exact absurd (by simp [Reg.Dropped]) hr
  | false =>
    cases r with
    | id | keyset | reserved n => exact .ignored
    | ctrl => exact .enable _
    | status => exact .flags rfl
    | cmd => rw [writeReg, unlessBusy_idle hb]; exact .accepted rfl hb
    | key i | nonce i | ctr => rw [writeReg, unlessBusy_idle hb]; exact .setUp _ hb
    | half p h => rw [writeReg, unlessBusy_idle hb]; cases p <;> exact .setUp _ hb

/-- A write of STATUS, its two flags spelled out (R34). -/
theorem clearFlags_eq (d : Word) (s : State) :
    clearFlags d s =
      { s with
        status.done := if d.getLsbD 1 then false else s.status.done
        status.wdrop := if d.getLsbD 2 then false else s.status.wdrop } := by
  unfold clearFlags
  cases d.getLsbD 1 <;> cases d.getLsbD 2 <;> simp

theorem exec_hostWr_ctrl (d : Word) (s : State) : exec (.hostWr .ctrl d) s = .next { s with regs.ie := d.getLsbD 0 } :=
  exec_hostWr (.inl (by simp)) d

theorem exec_hostWr_status (d : Word) (s : State) :
    exec (.hostWr .status d) s =
      .next { s with
        status.done := if d.getLsbD 1 then false else s.status.done
        status.wdrop := if d.getLsbD 2 then false else s.status.wdrop } := by
  rw [exec_hostWr (.inl (by simp)), writeReg, clearFlags_eq]

/-- A set-up write while idle is the write itself. -/
theorem exec_hostWr_setUp (hb : s.status.busy = false) (hw : writeReg r d s = unlessBusy s t) (hr : r ≠ .cmd) :
    exec (.hostWr r d) s = .next t := by
  rw [exec_hostWr (.inl hr), hw, unlessBusy_idle hb]

/-- No write while BUSY changes a register that a command reads (R45). -/
theorem Wrote.regs_busy (h : Wrote r d s t) (hb : s.status.busy = true) :
    t.regs = { s.regs with ie := t.regs.ie } ∧ t.curOp = s.curOp := by
  cases h with
  | dropped | enable | flags | ignored => exact ⟨rfl, rfl⟩
  | accepted _ hi | setUp _ hi => rw [hb] at hi; cases hi

/-! ### The frame of a command (R72, R81, R117) -/

/-- What engine work leaves alone: all but the other fields of STATUS, the internal state, the port with its trace, the count of
draws, and memory inside the written regions. -/
structure KeepsFrame (p : Profile) (s u : State) : Prop where
  platform : u.platform = s.platform
  regs : u.regs = s.regs
  wdrop : u.status.wdrop = s.status.wdrop
  curOp : u.curOp = s.curOp
  rdata : u.rdata = s.rdata
  host : u.host = s.host
  memWf : s.mem.wf = true → u.mem.wf = true
  memOutside : s.mem.wf = true → ∀ x, inRegions p.writes x = false → u.mem.read x = s.mem.read x

theorem KeepsFrame.refl (p : Profile) (s : State) : KeepsFrame p s s :=
  ⟨rfl, rfl, rfl, rfl, rfl, rfl, id, fun _ _ _ => rfl⟩

theorem Ran.keepsFrame (h : Ran p ph acc s t) : KeepsFrame p s t :=
  ⟨h.platform, h.regs, by rw [h.flags], h.curOp, h.rdata, h.host, h.memWf, h.memOutside⟩

theorem KeepsFrame.setPhase (h : KeepsFrame p s t) (q : Phase) : KeepsFrame p s { t with status.phase := q } :=
  { h with }

/-- The access at which a command stops keeps the frame too. -/
theorem Stops.keepsFrame {ans : BusResp} {dir : Dir} (h : Stops p ph ans dir s u) : KeepsFrame p s u := by
  obtain ⟨acc, t, a, ran, -, -, rfl⟩ := h
  have k := ran.keepsFrame
  split <;> exact { k with }

/-- So do free bytes in the written regions. -/
theorem KeepsFrame.scramble (h : KeepsFrame p s u) : KeepsFrame p s (scramble p.writes u) := by
  obtain ⟨m', d', e⟩ := scramble_frame p.writes u
  rw [e]
  have hm (hw : s.mem.wf = true) : m'.wf = true ∧ ∀ x, inRegions p.writes x = false → m'.read x = u.mem.read x := by
    obtain ⟨m2, d2, e2, w2, r2, -⟩ := scramble_spec p.writes u (h.memWf hw)
    obtain rfl : m' = m2 := congrArg State.mem (e.symm.trans e2)
    exact ⟨w2, r2⟩
  exact { h with
    memWf := fun hw => (hm hw).1
    memOutside := fun hw x hx => ((hm hw).2 x hx).trans (h.memOutside hw x hx) }

/-- However a keyed command ends, it has kept its frame, and then completed or stopped for good. -/
theorem Ending.keepsFrame (h : Ending i s (.next t)) :
    ∃ u, KeepsFrame (profileOf i s) s u ∧ (t = u ∨ ∃ c, t = completeCommand c u) := by
  cases h with
  | preCheck c => exact ⟨s, .refl _ s, .inr ⟨c, rfl⟩⟩
  | success acc v _ ran => exact ⟨_, ran.keepsFrame.setPhase _, .inr ⟨_, rfl⟩⟩
  | busError dir v _ stops => exact ⟨_, stops.keepsFrame.scramble, .inr ⟨_, rfl⟩⟩
  | authFail acc v _ hi _ ran =>
    subst hi
    exact ⟨_, (ran.weaken rfl (verifyProfile_reads s)).keepsFrame.setPhase _, .inr ⟨_, rfl⟩⟩
  | stuck dir v _ stops => exact ⟨_, stops.keepsFrame, .inl rfl⟩

/-! ### BUSY and WDROP over a step (R27, R29) -/

/-- The engine's step does not change WDROP. -/
theorem EngineEnds.wdrop (h : EngineEnds s t) : t.status.wdrop = s.status.wdrop := by
  cases h with
  | illegal e _ ht => rw [ht]; rfl
  | zeroize _ ht => rw [ht]; rfl
  | keyed i _ _ he =>
    obtain ⟨u, hu, rfl | ⟨c, rfl⟩⟩ := he.keepsFrame
    · exact hu.wdrop
    · exact hu.wdrop

@[simp] theorem resetMachine_status (s : State) : (resetMachine s).status = Status.zero := rfl

/-- What a move does to STATUS. -/
inductive StatusMoved (m : Move) (s t : State) : Prop where
  /-- A register write. -/
  | write (x : BitVec 40) (r : Reg) (d : Word) (hm : m = .xact x) (hx : decodeHost x = .ok (.hostWr r d)) (hw : Wrote r d s t)
  /-- The engine's step, in its own turn or in one a waiting host gives it. -/
  | engine (u : State) (hm : m = .engine ∨ m = .wait 0) (hb : s.status.busy = true) (he : EngineEnds s u)
    (ht : t.status = u.status)
  /-- Reset. -/
  | reset (hm : m = .reset) (ht : t.status = Status.zero)
  /-- Every other move. -/
  | kept (ht : t.status = s.status)

theorem Moved.status (h : Moved m s t) : StatusMoved m s t := by
  cases h with
  | write x r d hm hx _ ht => exact .write x r d hm hx (ht ▸ writeReg_wrote r d s)
  | engine hm hb _ he => exact .engine t (.inl hm) hb he rfl
  | await u hm hu ht =>
    rcases hu with ⟨-, rfl⟩ | ⟨hb, -, he⟩
    · exact .kept (by rw [ht]; rfl)
    · exact .engine u (.inr hm) hb he (by rw [ht]; rfl)
  | reset hm ht => exact .reset hm (by rw [ht]; rfl)
  | read x r _ _ ht =>
    obtain ⟨n, hn⟩ := readReg_state r s
    exact .kept (by rw [ht, hn])
  | poll n u _ hu ht =>
    obtain ⟨k, hk⟩ := readReg_state .status s
    have hs : u.status = s.status := by rw [hu, hk]
    exact .kept (by rw [ht]; split <;> exact hs)
  | rest _ _ ht | store _ _ _ _ ht | post _ _ _ _ ht | drain _ _ _ _ _ ht | drained _ ht | load _ _ _ ht =>
    exact .kept (by rw [ht])

/-- The next move of a state, and the state from which it is taken. -/
def Takes (s : State) (m : Move) (s' : State) : Prop :=
  (s.host.moves = [] ∧ m = .engine ∧ s' = s) ∨ ∃ rest, s.host.moves = m :: rest ∧ s' = { s with host.moves := rest }

theorem step_status (h : step s = .next t) : ∃ m s', Takes s m s' ∧ s'.status = s.status ∧ StatusMoved m s' t := by
  obtain ⟨-, ⟨hm, hv⟩ | ⟨m, rest, hm, hv⟩⟩ := step_next h
  · exact ⟨.engine, s, .inl ⟨hm, rfl, rfl⟩, rfl, hv.status⟩
  · exact ⟨m, _, .inr ⟨rest, hm, rfl⟩, rfl, hv.status⟩

/-- Only the engine moves when the host has no move left. -/
theorem Takes.moves (h : Takes s m t) (hm : m ≠ .engine) : ∃ rest, s.host.moves = m :: rest := by
  rcases h with ⟨-, he, -⟩ | ⟨rest, hr, -⟩
  · exact absurd he hm
  · exact ⟨rest, hr⟩

/-- BUSY rises only at an acceptance. -/
theorem StatusMoved.busy_rises (h : StatusMoved m s t) (h0 : s.status.busy = false) (h1 : t.status.busy = true) :
    ∃ x w, m = .xact x ∧ decodeHost x = .ok (.hostWr .cmd w) ∧ t.curOp = w := by
  cases h with
  | write x r d hm hx hw =>
    cases hw with
    | accepted hr => exact ⟨x, d, hm, hr ▸ hx, rfl⟩
    | dropped _ hb => rw [h0] at hb; cases hb
    | setUp | enable | flags | ignored => exact absurd (h0.symm.trans h1) Bool.false_ne_true
  | engine u _ hb => rw [h0] at hb; cases hb
  | reset _ ht => rw [ht] at h1; cases h1
  | kept ht => rw [ht, h0] at h1; cases h1

/-- BUSY falls only at a completion or by reset. -/
theorem StatusMoved.busy_falls (h : StatusMoved m s t) (h0 : s.status.busy = true) (h1 : t.status.busy = false) :
    m = .reset ∨ ((m = .engine ∨ m = .wait 0) ∧ t.status.done = true) := by
  cases h with
  | write x r d hm hx hw =>
    cases hw with
    | accepted => cases h1
    | dropped | setUp | enable | flags | ignored => exact absurd (h1.symm.trans h0) Bool.false_ne_true
  | engine u hm hb he ht =>
    rw [ht] at h1 ⊢
    rcases he.flags hb with ⟨-, hd⟩ | ⟨hu, -⟩
    · exact .inr ⟨hm, hd⟩
    · rw [h1] at hu; cases hu
  | reset hm => exact .inl hm
  | kept ht => rw [ht, h0] at h1; cases h1

/-- WDROP rises only at a write dropped while BUSY. -/
theorem StatusMoved.wdrop_rises (h : StatusMoved m s t) (h0 : s.status.wdrop = false) (h1 : t.status.wdrop = true) :
    s.status.busy = true ∧ ∃ x r d, m = .xact x ∧ decodeHost x = .ok (.hostWr r d) ∧ r.Dropped := by
  cases h with
  | write x r d hm hx hw =>
    cases hw with
    | dropped hr hb => exact ⟨hb, x, r, d, hm, hx, hr⟩
    | accepted | setUp | enable | ignored => exact absurd (h0.symm.trans h1) Bool.false_ne_true
    | flags => simp [h0] at h1
  | engine u _ _ he ht => rw [ht, he.wdrop, h0] at h1; cases h1
  | reset _ ht => rw [ht] at h1; cases h1
  | kept ht => rw [ht, h0] at h1; cases h1

/-- WDROP falls only at a write of STATUS with bit 2 set or by reset. -/
theorem StatusMoved.wdrop_falls (h : StatusMoved m s t) (h0 : s.status.wdrop = true) (h1 : t.status.wdrop = false) :
    m = .reset ∨ ∃ x d, m = .xact x ∧ decodeHost x = .ok (.hostWr .status d) ∧ d.getLsbD 2 = true := by
  cases h with
  | write x r d hm hx hw =>
    cases hw with
    | dropped => cases h1
    | flags hr => exact .inr ⟨x, d, hm, hr ▸ hx, by simpa [h0] using h1⟩
    | accepted | setUp | enable | ignored => exact absurd (h1.symm.trans h0) Bool.false_ne_true
  | engine u _ _ he ht => rw [ht, he.wdrop, h0] at h1; cases h1
  | reset hm => exact .inl hm
  | kept ht => rw [ht, h0] at h1; cases h1

/-! ### PHASE while BUSY (R46) -/

theorem Phase.path_ne_nil (p : Phase) : p.path ≠ [] := by
  cases p <;> simp [Phase.path]

/-- The composer state a running command waits in or ends in; if its step answers no next state, the present one. -/
def endPhase (s : State) : Phase :=
  if s.memReq.isSome then s.status.phase
  else
    match engineMove s with
    | .next t => t.status.phase
    | .fault _ => s.status.phase
    | .refused _ => s.status.phase

theorem reachedPhases_eq (s : State) : reachedPhases s = (endPhase s).path := by
  unfold reachedPhases endPhase
  rw [engineRun_eq]
  split
  · rfl
  · cases engineMove s <;> rfl

theorem endPhase_waiting (h : s.memReq ≠ none) : endPhase s = s.status.phase :=
  if_pos (Option.isSome_iff_ne_none.mpr h)

theorem endPhase_next (h : s.memReq = none) (ht : engineMove s = .next t) : endPhase s = t.status.phase := by
  simp [endPhase, h, ht]

/-- A drawn composer state is one of those reached. -/
theorem drawPhase_mem (s : State) : drawPhase s ∈ (endPhase s).path := by
  have hlt : Config.freeChoice s.draws % (endPhase s).path.length < (endPhase s).path.length :=
    Nat.mod_lt _ (List.length_pos_iff.mpr (Phase.path_ne_nil _))
  rw [drawPhase, reachedPhases_eq, List.getD_eq_getElem _ _ hlt]
  exact List.getElem_mem hlt

/-! ### The statements, cheapest tier first -/

/-- Settles O4: the words of both tables, each evaluated. -/
theorem spelledWordsDecode : Obligations.SpelledWordsDecode := by
  unfold Obligations.SpelledWordsDecode
  decide

/-- Settles O6. -/
theorem stepRunsTransaction : Obligations.StepRunsTransaction := by
  have hmove (m : Move) (s : State) (rest : List Move) (hp : platformRefusal s.platform = none)
      (hm : s.host.moves = m :: rest) : step s = doMove m { s with host.moves := rest } := by
    simp only [step, hp, nextMove, hm]
  refine ⟨hmove, fun i x s rest hp hx hm => ?_⟩
  rw [hmove _ s rest hp hm, doMove, hostTransaction, hx]

/-- Settles O9: every such read is `readPlain`, whose words are those of the rules. -/
theorem registerReads : Obligations.RegisterReads := by
  intro s
  have hread {r : Reg} (h : r ≠ .status) := exec_hostRd_plain (s := s) (.inl h)
  have hctrl : exec (.hostRd .ctrl) s = .next { s with rdata := if s.regs.ie then 1 else 0 } :=
    ctrlWord_eq s ▸ hread (by simp)
  have hkeyset := hread (r := .keyset) (by simp)
  exact ⟨hread (by simp), hctrl, hread (by simp),
    ⟨keysetWord s, hkeyset, keysetWord_kmask s, keysetWord_nmask s, keysetWord_rest s⟩,
    fun i => hread (by simp), fun i => hread (by simp), hread (by simp), fun p => hread (by simp), fun p => hread (by simp),
    fun n => hread (by simp)⟩

/-- Settles O12. -/
theorem ctrlAndStatusWrites : Obligations.CtrlAndStatusWrites := fun s d =>
  ⟨exec_hostWr_ctrl d s, exec_hostWr_status d s, exec_hostWr (.inl (by simp)) _, by simp⟩

/-- Settles O13. -/
theorem ignoredWrites : Obligations.IgnoredWrites := by
  intro s d
  refine ⟨exec_hostWr (.inl (by simp)) d, exec_hostWr (.inl (by simp)) d, fun n hn => ?_⟩
  have hres : regOfIndex n = .reserved n := regOfIndex_reserved (by simpa [reservedIndex] using hn)
  rw [hres]
  exact ⟨exec_hostWr (.inl (by simp)) d, exec_hostRd_plain (.inl (by simp))⟩

/-- Settles O14: while idle each write is the update it names, with the mask bit of a key or nonce word. -/
theorem setUpWrites : Obligations.SetUpWrites := by
  intro s d hb
  have hwrite {r : Reg} {t : State} (hw : writeReg r d s = unlessBusy s t) (hr : r ≠ .cmd := by simp) :=
    exec_hostWr_setUp hb hw hr
  exact ⟨fun i => ⟨_, hwrite rfl, getLsbD_keyMark s.regs.kmask i⟩,
    fun i => ⟨_, hwrite rfl, getLsbD_nonceMark s.regs.nmask i⟩,
    hwrite rfl, hwrite rfl, hwrite rfl, hwrite rfl, hwrite rfl, hwrite rfl, hwrite rfl, hwrite rfl, hwrite rfl, hwrite rfl,
    hwrite rfl⟩

/-- Settles O15. -/
theorem busyWrites : Obligations.BusyWrites := by
  intro s d hb
  refine ⟨fun r hr => ?_, exec_hostWr_ctrl d s, exec_hostWr_status d s, fun r => ?_⟩
  · rw [exec_hostWr (.inr hb), writeReg_dropped hr hb]
  · exact ⟨_, exec_hostWr (.inr hb) d, (writeReg_wrote r d s).regs_busy hb⟩

/-- Settles O46: the reads of the 64 indices, each evaluated at the one state after reset. -/
theorem resetState : Obligations.ResetState := by
  refine ⟨?_, rfl, rfl, rfl, rfl, rfl⟩
  decide

/-- Settles O48: nothing is listed or posted, every register is zero, nothing runs. -/
theorem invariantAtReset : Obligations.InvariantAtReset where
  memWf := rfl
  memBelow := rfl
  postedBelow := rfl
  record := ⟨.success, rfl, rfl⟩
  residue := engineZero_bounds.1
  clamped := engineZero_bounds.2.1
  rounds := engineZero_bounds.2.2
  keyUnset := fun i _ => by simp [State.reset, Regs.zero]
  nonceUnset := fun i _ => by simp [State.reset, Regs.zero]
  ordinary := fun h => by cases h
  idle := fun _ => ⟨rfl, rfl⟩
  running := fun h => by cases h
  accepted := fun h => by cases h
  rejected := by decide
  unstarted := fun _ => rfl
  tagged := fun h => by cases h

/-- Settles O52: the block is the one of `blockEngine`. -/
theorem stepwiseBlock : Obligations.StepwiseBlock := fun s =>
  ⟨(blockEngine s).x, serialize_blockEngine s, makeBlock_eq s⟩

/-- Settles O10. -/
theorem statusWordLayout : Obligations.StatusWordLayout := by
  refine ⟨fun s p => ?_, fun s hb => exec_hostRd_plain (.inr hb)⟩
  obtain ⟨h0, h1, h2, h3⟩ := statusWord_flags s p
  exact ⟨h0, h1, h2, h3, statusWord_err s p, statusWord_sub s p, statusWord_phase s p, statusWord_rest s p⟩

/-- Settles O11: the state drawn is on the path to `endPhase`, and the invariant gives the flags while BUSY. -/
theorem statusReadWhileBusy : Obligations.StatusReadWhileBusy := by
  intro s hinv hb
  obtain ⟨hdone, herr, hsub⟩ := hinv.running hb
  obtain ⟨h0, h1, -, -⟩ := statusWord_flags s (drawPhase s)
  exact ⟨drawPhase s, endPhase s, drawPhase_mem s, endPhase_waiting, fun t => endPhase_next, exec_hostRd_status_busy hb,
    h0.trans hb, h1.trans hdone, (statusWord_err s _).trans herr, (statusWord_sub s _).trans hsub⟩

/-- Settles O25: a keyed command has kept its frame when it completes or stops, and a completion clears the key and its mask. -/
theorem commandFrame : Obligations.CommandFrame := by
  intro i s t hk hw he
  have hend : Ending i s (.next t) := he ▸ exec_ending hk s
  obtain ⟨u, ⟨hplat, hregs, hwd, hcur, hrd, hhost, -, hmem⟩, rfl | ⟨c, rfl⟩⟩ := hend.keepsFrame
  · simp only [hplat, hregs, hwd, hcur, hrd, hhost, true_and, true_or]
    exact hmem hw
  · simp only [completeCommand_fields, hplat, hregs, hwd, hcur, hrd, hhost, true_and, or_true]
    exact hmem hw

/-- Settles O43, by cases on what a move does to STATUS. -/
theorem busyChangesOnly : Obligations.BusyChangesOnly := by
  refine ⟨fun w c s => ⟨rfl, rfl, rfl⟩, fun s t h => ?_⟩
  obtain ⟨m, s', htake, hs, hmove⟩ := step_status h
  rw [← hs]
  refine ⟨fun h0 h1 => ?_, fun h0 h1 => ?_⟩
  · obtain ⟨x, w, rfl, hx, hw⟩ := hmove.busy_rises h0 h1
    obtain ⟨rest, hrest⟩ := htake.moves (by simp)
    exact ⟨x, rest, w, hrest, hx, hw⟩
  · rcases hmove.busy_falls h0 h1 with rfl | ⟨rfl | rfl, hd⟩
    · exact .inl (htake.moves (by simp))
    · rcases htake with ⟨hnil, -⟩ | ⟨rest, hrest, -⟩
      · exact .inr ⟨.inl hnil, hd⟩
      · exact .inr ⟨.inr ⟨rest, .inl hrest⟩, hd⟩
    · obtain ⟨rest, hrest⟩ := htake.moves (by simp)
      exact .inr ⟨.inr ⟨rest, .inr hrest⟩, hd⟩

/-- Settles O44, by cases on what a move does to STATUS. -/
theorem wdropChangesOnly : Obligations.WdropChangesOnly := by
  refine ⟨fun r d s hb hr => ?_, fun d s => ⟨fun hd => ⟨_, exec_hostWr_status d s, if_pos hd⟩, rfl⟩, fun s t h => ?_⟩
  · exact ⟨_, exec_hostWr (.inr hb) d, by rw [writeReg_dropped hr hb]⟩
  · obtain ⟨m, s', htake, hs, hmove⟩ := step_status h
    rw [← hs]
    refine ⟨fun h0 h1 => ?_, fun h0 h1 => ?_⟩
    · obtain ⟨hb, x, r, d, rfl, hx, hr⟩ := hmove.wdrop_rises h0 h1
      obtain ⟨rest, hrest⟩ := htake.moves (by simp)
      exact ⟨hb, x, rest, r, d, hrest, hx, hr⟩
    · rcases hmove.wdrop_falls h0 h1 with rfl | ⟨x, d, rfl, hx, hd⟩
      · exact .inl (htake.moves (by simp))
      · obtain ⟨rest, hrest⟩ := htake.moves (by simp)
        exact .inr ⟨x, rest, d, hrest, hx, hd⟩

/-- Settles O45: the word of every register but STATUS while BUSY is a function of other fields, and that one of the composer
states reached. -/
theorem secretsUnreadable : Obligations.SecretsUnreadable := by
  intro r s t1 k e hphases h1
  by_cases hbusy : r = .status ∧ s.status.busy = true
  · obtain ⟨rfl, hb⟩ := hbusy
    have hdraw : drawPhase { s with regs.key := k, engine := e } = drawPhase s := by
      simp only [drawPhase, hphases rfl hb]
    rw [exec_hostRd_status_busy hb] at h1
    obtain rfl := Host.Outcome.next.inj h1
    exact ⟨_, exec_hostRd_status_busy hb, by rw [hdraw]; rfl⟩
  · have hplain : r ≠ .status ∨ s.status.busy = false := by simpa [imp_iff_not_or] using hbusy
    rw [exec_hostRd_plain hplain] at h1
    obtain rfl := Host.Outcome.next.inj h1
    refine ⟨_, exec_hostRd_plain (s := { s with regs.key := k, engine := e }) hplain, ?_⟩
    cases r with
    | half p h => cases p <;> rfl
    | _ => rfl

end Sys2Proof.Machine
end

section
/-! The host and memory, and the invariant: what host stores and loads do, where the engine's accesses go, what a successful command
leaves in memory, and that every step keeps the invariant (20_memory.md). -/

namespace Sys2Proof.Machine

variable {r : Reg} {d : Word} {s t u : State} {i : Instr} {p : Profile} {ph : Phase → Prop} {acc : List MemAccess} {m : Move}
  {c : Cause} {q : Phase}

/-! ### Host accesses (R84, R233, R244) -/

theorem checkAccess_race {k : HostAccess} {a : Nat} (ha : a < spaceSize s) :
    checkAccess k a true s t = .fault (.hostRace k a) := by
  rw [checkAccess, if_neg (by omega), if_pos rfl]

theorem checkAccess_device {k : HostAccess} {a : Nat} {races : Bool} (ha : a < spaceSize s) (hr : races = false)
    (hd : isDevice a s = true) : checkAccess k a races s t = .refused (.deviceAccess k a) := by
  rw [checkAccess, if_neg (by omega), if_neg (by simp [hr]), if_pos hd]

theorem checkAccess_accessible {k : HostAccess} {a : Nat} {races : Bool} (h : Accessible a races s) :
    checkAccess k a races s t = .next t := by
  obtain ⟨ha, hr, hd⟩ := h
  rw [checkAccess, if_neg (by omega), if_neg (by simp [hr]), if_neg (by simp [hd])]

theorem storeRaces_eq (a : Nat) (s : State) :
    storeRaces a s =
      (s.status.busy && inRegions ((wordProfile s.curOp s).reads ++ (wordProfile s.curOp s).writes) a) := by
  unfold storeRaces runningProfile
  cases s.status.busy <;> rfl

theorem loadRaces_eq (a : Nat) (s : State) :
    loadRaces a s = (s.status.busy && inRegions (wordProfile s.curOp s).writes a) := by
  unfold loadRaces runningProfile
  cases s.status.busy <;> rfl

theorem hostView_none_posted (h : s.host.posted = []) (a : Nat) : hostView a s = s.mem.read a := by
  simp [hostView, h]

/-! ### Where the engine's accesses go (R67, R71, R194) -/

/-- A stretch of a profile without a written region makes reads only. -/
theorem Ran.reads_only (h : Ran p ph acc s t) (hw : p.writes = []) : ∀ a ∈ acc, a.dir = .read := by
  intro a ha
  cases hd : a.dir with
  | read => rfl
  | write =>
    have hin := h.inside a ha
    simp [hd, Profile.allowed, hw, inRegions] at hin

/-- The access at which a command stops lies in its regions too. -/
theorem Stops.port {ans : BusResp} {dir : Dir} (h : Stops p ph ans dir s u) :
    ∃ acc, u.trace.portLog = acc ++ s.trace.portLog ∧ ∀ a ∈ acc, inRegions (p.allowed a.dir) a.addr = true := by
  obtain ⟨acc, t, a, ran, -, hin, hu⟩ := h
  refine ⟨⟨dir, a⟩ :: acc, ?_, List.forall_mem_cons.mpr ⟨hin, ran.inside⟩⟩
  have hlog : u.trace.portLog = ⟨dir, a⟩ :: t.trace.portLog := by rw [hu]; split <;> rfl
  rw [hlog, ran.port]; rfl

theorem Stops.busy {ans : BusResp} {dir : Dir} (h : Stops p ph ans dir s u) : u.status.busy = s.status.busy := by
  obtain ⟨acc, t, a, ran, -, -, hu⟩ := h
  have hstatus : u.status = t.status := by rw [hu]; split <;> rfl
  rw [hstatus, ran.flags]

theorem scramble_trace (rs : List Region) (s : State) : (scramble rs s).trace = s.trace := by
  obtain ⟨m', n, e⟩ := scramble_frame rs s
  rw [e]

/-- The accesses from `s` to the end `t` of a command with profile `p` are those R71 allows: all in its regions, none before an error
of a pre-check, no write before AUTH_FAIL. -/
def AccessesInside (p : Profile) (s t : State) : Prop :=
  ∃ acc, t.trace.portLog = acc ++ s.trace.portLog ∧ (∀ a ∈ acc, inRegions (p.allowed a.dir) a.addr = true) ∧
    (t.status.busy = false → t.status.err = 1 ∨ t.status.err = 2 ∨ t.status.err = 3 → acc = []) ∧
    (t.status.busy = false → t.status.err = 4 → ∀ a ∈ acc, a.dir = .read)

theorem AccessesInside.none (h : t.trace.portLog = s.trace.portLog) : AccessesInside p s t :=
  ⟨[], h, by simp, fun _ _ => rfl, by simp⟩

theorem Ending.accessesInside (h : Ending i s (.next t)) (hb : s.status.busy = true) : AccessesInside (profileOf i s) s t := by
  cases h with
  | preCheck c => exact .none rfl
  | success acc v _ ran => exact ⟨acc, ran.port, ran.inside, by simp [Cause.errCode], by simp [Cause.errCode]⟩
  | busError dir v _ stops =>
    obtain ⟨acc, hport, hin⟩ := stops.port
    have herr : (busCause dir).errCode = 5 := by cases dir <;> rfl
    exact ⟨acc, by simpa [scramble_trace] using hport, hin, by simp [herr], by simp [herr]⟩
  | authFail acc v _ hi _ ran =>
    subst hi
    exact ⟨acc, ran.port, (ran.weaken (p := aeadDecryptProfile s) rfl (verifyProfile_reads s)).inside, by simp [Cause.errCode],
      fun _ _ => ran.reads_only rfl⟩
  | stuck dir v _ stops =>
    obtain ⟨acc, hport, hin⟩ := stops.port
    have hbusy : t.status.busy = true := stops.busy.trans hb
    exact ⟨acc, hport, hin, by simp [hbusy], by simp [hbusy]⟩

theorem EngineEnds.accessesInside (h : EngineEnds s t) (hb : s.status.busy = true) :
    AccessesInside (wordProfile s.curOp s) s t := by
  cases h with
  | illegal e _ ht => rw [ht]; exact .none rfl
  | zeroize _ ht => rw [ht]; exact .none rfl
  | keyed i hd _ he => rw [wordProfile_ok hd]; exact he.accessesInside hb

/-! ### What a successful command leaves in memory (R81) -/

/-- The written region of a keyed command starts at DST and is as long as its output. -/
theorem writes_eq_output (hk : isKeyed i = true) (s : State) :
    (profileOf i s).writes = [⟨s.regs.dst.value, (commandOutput i s).length⟩] := by
  cases i with
  | chachaBlock => simp [profileOf, chachaBlockProfile, Profile.writes, commandOutput]
  | chachaApply => simp [profileOf, chachaApplyProfile, Profile.writes, commandOutput, length_srcBytes]
  | poly1305Tag => simp [profileOf, poly1305TagProfile, Profile.writes, commandOutput, poly1305]
  | aeadEncrypt => simp [profileOf, aeadEncryptProfile, Profile.writes, commandOutput, aeadSeal, length_srcBytes]
  | aeadDecrypt => simp [profileOf, aeadDecryptProfile, Profile.writes, commandOutput, length_ctBytes]
  | zeroize | hostWr | hostRd => cases hk

/-- A command that is ready, and verifies if it is a decryption, completes with its output stored at DST. -/
theorem exec_stores_output (hk : isKeyed i = true) (hw : s.mem.wf = true) (hr : ready (profileOf i s) s)
    (hv : i = .aeadDecrypt → verifies s) :
    ∃ e q tr k, exec i s =
      .next (completeCommand .success (worked e q (s.mem.store s.regs.dst.value (commandOutput i s)) tr k s)) := by
  obtain ⟨hpre, -, hbus⟩ := id hr
  obtain ⟨-, -, -, -, hover, -⟩ := preCheck_none hpre
  cases i with
  | chachaBlock =>
    obtain ⟨e, he⟩ := chachaBlockWork_ok hbus
    exact ⟨e, _, _, _, runCommand_ready hr he⟩
  | chachaApply =>
    obtain ⟨e, he⟩ := chachaApplyWork_ok hbus hw (apart_of_regions rfl rfl hover (Nat.le_refl _) (Nat.le_refl _) rfl)
    exact ⟨e, _, _, _, runCommand_ready hr he⟩
  | poly1305Tag =>
    obtain ⟨e, he⟩ := poly1305TagWork_ok hbus
    exact ⟨e, _, _, _, runCommand_ready hr he⟩
  | aeadEncrypt =>
    obtain ⟨e, he⟩ := aeadEncryptWork_ok hbus hw (apart_of_regions rfl rfl hover (Nat.le_refl _) (Nat.le_add_right _ 16) rfl)
    exact ⟨e, _, _, _, runCommand_ready hr he⟩
  | aeadDecrypt =>
    obtain ⟨e, he⟩ := aeadDecryptWork_ok hbus hw (apart_of_regions rfl rfl hover (Nat.sub_le _ 16) (Nat.le_refl _) rfl) (hv rfl)
    exact ⟨e, _, _, _, runCommand_ready hr he⟩
  | zeroize | hostWr | hostRd => cases hk

theorem outside_of_inRegions_singleton {a n x : Nat} (h : inRegions [⟨a, n⟩] x = false) : x < a ∨ a + n ≤ x := by
  simp only [inRegions, List.any_cons, List.any_nil, Bool.or_false, Region.has, Bool.and_eq_false_iff,
    decide_eq_false_iff_not] at h
  omega

/-! ### The invariant over register writes (R36 to R39, R106) -/

/-- Key and nonce words without their mask bit are zero (R36, R37, R39). -/
def UnmarkedZero (v : Regs) : Prop :=
  (∀ i : Fin 8, v.kmask.getLsbD i.val = false → v.key[i] = 0) ∧ ∀ i : Fin 3, v.nmask.getLsbD i.val = false → v.nonce[i] = 0

theorem Inv.unmarkedZero (h : Inv s) : UnmarkedZero s.regs :=
  ⟨h.keyUnset, h.nonceUnset⟩

/-- A word written is marked; the others keep word and mark. -/
theorem UnmarkedZero.writeReg (h : UnmarkedZero s.regs) (r : Reg) (d : Word) : UnmarkedZero (writeReg r d s).regs := by
  obtain ⟨hk, hn⟩ := h
  cases hb : s.status.busy with
  | true =>
    cases r <;> simp only [Machine.writeReg, unlessBusy_busy hb] <;> exact ⟨hk, hn⟩
  | false =>
    cases r with
    | key j =>
      rw [Machine.writeReg, unlessBusy_idle hb]
      refine ⟨fun i hi => ?_, hn⟩
      simp only [getLsbD_keyMark, Bool.or_eq_false_iff, decide_eq_false_iff_not] at hi
      exact (Vector.getElem_set_ne j.isLt i.isLt (Ne.symm hi.1)).trans (hk i hi.2)
    | nonce j =>
      rw [Machine.writeReg, unlessBusy_idle hb]
      refine ⟨hk, fun i hi => ?_⟩
      simp only [getLsbD_nonceMark, Bool.or_eq_false_iff, decide_eq_false_iff_not] at hi
      exact (Vector.getElem_set_ne j.isLt i.isLt (Ne.symm hi.1)).trans (hn i hi.2)
    | half p h => rw [Machine.writeReg, unlessBusy_idle hb]; cases p <;> exact ⟨hk, hn⟩
    | cmd | ctr => rw [Machine.writeReg, unlessBusy_idle hb]; exact ⟨hk, hn⟩
    | id | ctrl | status | keyset | reserved n => exact ⟨hk, hn⟩

/-- A register write keeps the invariant if it keeps unmarked words zero and accepts no launch at side-effect memory. -/
theorem Wrote.inv (hw : Wrote r d s t) (h : Inv s) (hz : UnmarkedZero t.regs)
    (hdev : r = .cmd → s.status.busy = false → reachesDevice d s = false) : Inv t := by
  cases hw with
  | dropped | ignored | enable => exact { h with }
  | accepted hr hb =>
    obtain ⟨he, hreq⟩ := h.idle hb
    exact { h with
      record := ⟨.success, rfl, rfl⟩
      ordinary := fun _ => hdev hr hb
      idle := fun h => by cases h
      running := fun _ => ⟨rfl, rfl, rfl⟩
      accepted := fun _ _ => ⟨rfl, he⟩
      rejected := by simp
      unstarted := fun _ => rfl
      tagged := fun h => by cases h }
  | setUp v hb =>
    exact { h with
      keyUnset := hz.1
      nonceUnset := hz.2
      ordinary := fun h => absurd (hb.symm.trans h) Bool.false_ne_true }
  | flags =>
    exact { h with running := fun hb => by obtain ⟨hd, he⟩ := h.running hb; exact ⟨by simp [hd], he⟩ }

/-! ### The invariant over host accesses and reset (R60, R225, R234) -/

/-- Another canonical memory inside the address space and other host data keep the invariant. -/
theorem Inv.setMemory (h : Inv s) {mem : Memory} {host : HostSide} (hw : mem.wf = true)
    (hb : Memory.below (spaceSize s) mem = true) (hp : Memory.below (spaceSize s) host.posted = true) :
    Inv { s with mem := mem, host := host } :=
  { h with memWf := hw, memBelow := hb, postedBelow := hp }

theorem Inv.setHost (h : Inv s) {host : HostSide} (hp : Memory.below (spaceSize s) host.posted = true) :
    Inv { s with host := host } :=
  h.setMemory h.memWf h.memBelow hp

theorem Inv.store (h : Inv s) {a : Nat} (ha : a < spaceSize s) (b : Byte) : Inv { s with mem := s.mem.write a b } :=
  h.setMemory (Memory.wf_write h.memWf) (Memory.below_write h.memBelow ha) h.postedBelow

theorem Inv.readReg (h : Inv s) (r : Reg) (w : Word) : Inv { (Machine.readReg r s).2 with rdata := w } := by
  obtain ⟨n, e⟩ := readReg_state r s
  rw [e]
  exact { h with }

theorem Inv.keepWaiting (h : Inv s) (n : Nat) : Inv (keepWaiting n s) :=
  h.setHost h.postedBelow

theorem Inv.resetMachine (h : Inv s) : Inv (resetMachine s) := by
  obtain ⟨mem, n, e, hw, -, -, hb⟩ := resetMachine_spec s h.memWf
  rw [e]
  exact { invariantAtReset with
    memWf := hw
    memBelow := hb h.memBelow
    postedBelow := h.postedBelow
    ordinary := fun h => by cases h }

/-! ### The invariant over the engine's step (R107, R116, R181) -/

/-- What a command's work keeps from its acceptance in `s` to `u`. -/
structure Working (s u : State) : Prop where
  platform : u.platform = s.platform
  regs : u.regs = s.regs
  flags : u.status = { s.status with phase := u.status.phase }
  phase : running u.status.phase
  curOp : u.curOp = s.curOp
  memReq : u.memReq = s.memReq
  host : u.host = s.host
  memWf : u.mem.wf = true
  memBelow : Memory.below (spaceSize s) u.mem = true
  residue : u.engine.h < polyPrime
  clamped : u.engine.pr &&& clampMask = u.engine.pr
  rounds : u.engine.rc ≤ 20

theorem Working.spaceSize_eq (h : Working s u) : spaceSize u = spaceSize s := by
  unfold spaceSize
  rw [h.platform]

theorem Ran.working (h : Ran p ph acc s t) (hs : Inv s) (hph : running t.status.phase)
    (hr : p.inRange (spaceSize s) = true) : Working s t :=
  { h with
    phase := hph
    memWf := h.memWf hs.memWf
    memBelow := h.memBelow _ hs.memBelow (inRange_writes hr)
    residue := h.residue hs.residue
    clamped := h.clamped hs.clamped
    rounds := h.rounds hs.rounds }

/-- A command stops where its work has come to, but for the access it stops at. -/
theorem Stops.working {ans : BusResp} {dir : Dir} (h : Stops p ph ans dir s u) (hs : Inv s) (hph : ∀ q, ph q → running q)
    (h0 : ph s.status.phase) (hr : p.inRange (spaceSize s) = true) :
    ∃ v a, Working s v ∧ u = if ans = .never then { v with memReq := some a } else v := by
  obtain ⟨acc, t, a, ran, -, -, hu⟩ := h
  exact ⟨afterStop dir a t, ⟨dir, a⟩, { ran.working hs (hph _ (ran.phase h0)) hr with }, hu⟩

/-- Free values in the written regions stay inside the address space (R72). -/
theorem Working.scramble (h : Working s u) (hr : p.inRange (spaceSize s) = true) : Working s (scramble p.writes u) := by
  obtain ⟨m', n, e, hw, -, hb⟩ := scramble_spec p.writes u h.memWf
  rw [e]
  exact { h with memWf := hw, memBelow := hb _ h.memBelow (inRange_writes hr) }

/-- A completion after work keeps the invariant if its cause fits the composer state it ends in. -/
theorem Working.complete (h : Working s u) (hs : Inv s) (hreq : s.memReq = none) (hrej : c.errCode = 4 ↔ q = .rejected)
    (hun : c.errCode = 1 ∨ c.errCode = 2 ∨ c.errCode = 3 → q = .init) (htag : q = .tagged → c.errCode = 0) :
    Inv (completeCommand c { u with status.phase := q }) := by
  refine Inv.complete h.memWf (h.spaceSize_eq ▸ h.memBelow) ?_ ?_ (h.memReq.trans hreq) hrej hun htag
  · exact h.spaceSize_eq ▸ h.host ▸ hs.postedBelow
  · exact h.regs ▸ hs.nonceUnset

/-- A command that waits for good keeps the invariant. -/
theorem Working.stuck (h : Working s u) (hs : Inv s) (hb : s.status.busy = true) (a : MemAccess) :
    Inv { u with memReq := some a } := by
  obtain ⟨hdone, herr, hsub⟩ := hs.running hb
  have hbusy : u.status.busy = true := by rw [h.flags]; exact hb
  have herr' : u.status.err = 0 := by rw [h.flags]; exact herr
  have hsub' : u.status.sub = 0 := by rw [h.flags]; exact hsub
  have hdone' : u.status.done = false := by rw [h.flags]; exact hdone
  exact {
    memWf := h.memWf
    memBelow := h.spaceSize_eq ▸ h.memBelow
    postedBelow := h.spaceSize_eq ▸ h.host ▸ hs.postedBelow
    record := ⟨.success, herr', hsub'⟩
    residue := h.residue
    clamped := h.clamped
    rounds := h.rounds
    keyUnset := h.regs ▸ hs.keyUnset
    nonceUnset := h.regs ▸ hs.nonceUnset
    ordinary := fun _ => by
      show reachesDevice u.curOp u = false
      rw [reachesDevice_congr _ h.regs h.platform, h.curOp]
      exact hs.ordinary hb
    idle := fun hi => absurd (hbusy.symm.trans hi) (by decide)
    running := fun _ => ⟨hdone', herr', hsub'⟩
    accepted := fun _ hn => by cases hn
    rejected := by simp [herr', h.phase.1]
    unstarted := by simp [herr']
    tagged := fun _ => herr' }

/-- From INIT no command's work comes to REJECTED or TAGGED. -/
theorem phaseRule_running (h0 : s.status.phase = .init) (h : phaseRule i s q) : running q := by
  cases i with
  | aeadEncrypt | aeadDecrypt => exact h
  | chachaBlock | chachaApply | poly1305Tag | zeroize | hostWr | hostRd =>
    have hq : q = .init := h.trans h0
    simp [running, hq]

theorem phaseRule_init (h0 : s.status.phase = .init) : phaseRule i s s.status.phase := by
  cases i with
  | aeadEncrypt | aeadDecrypt => simp [phaseRule, running, h0]
  | chachaBlock | chachaApply | poly1305Tag | zeroize | hostWr | hostRd => rfl

theorem successPhase_ne_rejected (h0 : s.status.phase = .init) : successPhase i s ≠ .rejected := by
  cases i <;> simp [successPhase, h0]

/-- However a keyed command ends, the invariant is kept. -/
theorem Ending.inv (h : Ending i s (.next t)) (hs : Inv s) (hb : s.status.busy = true) (hreq : s.memReq = none) : Inv t := by
  obtain ⟨h0, -⟩ := hs.accepted hb hreq
  have hinit := phaseRule_init (i := i) h0
  cases h with
  | preCheck c hc =>
    refine Inv.complete hs.memWf hs.memBelow hs.postedBelow hs.nonceUnset hreq ?_ (fun _ => h0) ?_
    · rcases preCheck_some hc with h | h <;> simp [h, h0]
    · simp [h0]
  | success acc v hc ran =>
    obtain ⟨-, -, -, hr, -, -⟩ := preCheck_none hc
    exact (ran.working hs (phaseRule_running h0 (ran.phase hinit)) hr).complete hs hreq
      (by simp [Cause.errCode, successPhase_ne_rejected h0]) (by simp [Cause.errCode]) fun _ => rfl
  | busError dir v hc stops =>
    obtain ⟨-, -, -, hr, -, -⟩ := preCheck_none hc
    obtain ⟨w, a, hw, rfl : v = w⟩ := stops.working hs (fun q => phaseRule_running h0) hinit hr
    have herr : (busCause dir).errCode = 5 := by cases dir <;> rfl
    have hw := hw.scramble hr
    generalize scramble (profileOf i s).writes v = x at hw ⊢
    exact hw.complete hs hreq (by simp [herr, hw.phase.1]) (by simp [herr]) fun h => absurd h hw.phase.2
  | authFail acc v hc hi hv ran =>
    obtain ⟨-, -, -, hr, -, -⟩ := preCheck_none hc
    subst hi
    have ran := ran.weaken (p := aeadDecryptProfile s) rfl (verifyProfile_reads s)
    exact (ran.working hs (ran.phase hinit) hr).complete hs hreq (by simp [Cause.errCode]) (by simp [Cause.errCode]) (by simp)
  | stuck dir v hc stops =>
    obtain ⟨-, -, -, hr, -, -⟩ := preCheck_none hc
    obtain ⟨w, a, hw, rfl⟩ := stops.working hs (fun q => phaseRule_running h0) hinit hr
    exact hw.stuck hs hb a

/-- The engine's step keeps the invariant. -/
theorem EngineEnds.inv (h : EngineEnds s t) (hs : Inv s) (hb : s.status.busy = true) (hreq : s.memReq = none) : Inv t := by
  obtain ⟨h0, -⟩ := hs.accepted hb hreq
  cases h with
  | illegal e _ ht =>
    have herr : (illegalCause e).errCode = 1 := by cases e <;> rfl
    rw [ht]
    exact Inv.complete hs.memWf hs.memBelow hs.postedBelow hs.nonceUnset hreq (by simp [herr, h0]) (fun _ => h0) (by simp [h0])
  | zeroize _ ht =>
    rw [ht]
    exact Inv.complete hs.memWf hs.memBelow hs.postedBelow (fun j _ => by simp) hreq (by simp [Cause.errCode, h0])
      (fun _ => h0) (by simp [h0])
  | keyed i _ _ he => exact he.inv hs hb hreq

/-! ### The invariant over a step -/

/-- Every move keeps the invariant. -/
theorem Moved.inv (h : Moved m s t) (hs : Inv s) : Inv t := by
  cases h with
  | write x r d _ _ hr ht =>
    exact (ht ▸ writeReg_wrote r d s : Wrote r d s t).inv hs (ht ▸ hs.unmarkedZero.writeReg r d) fun h hb => (hr h hb).2
  | read x r _ _ ht => rw [ht]; exact hs.readReg r _
  | rest _ _ ht => rw [ht]; exact hs
  | engine _ hb hreq he => exact he.inv hs hb hreq
  | reset _ ht => rw [ht]; exact hs.resetMachine
  | store a b _ ha ht => rw [ht]; exact hs.store ha.1 b
  | post a b _ ha ht =>
    rw [ht]
    exact hs.setHost (by simpa [Memory.below, ha.1] using hs.postedBelow)
  | drain a b rest _ hp ht =>
    have hpb := hs.postedBelow
    rw [hp] at hpb
    simp only [Memory.below, List.all_cons, Bool.and_eq_true, decide_eq_true_eq] at hpb
    rw [ht]
    exact (hs.store hpb.1 b).setHost hpb.2
  | drained _ ht => rw [ht]; exact hs
  | load a _ _ ht => rw [ht]; exact hs.setHost hs.postedBelow
  | poll n u _ hu ht =>
    have hi : Inv u := hu ▸ hs.readReg .status _
    rw [ht]
    split
    · exact hi.keepWaiting n
    · exact hi
  | await u _ hu ht =>
    rw [ht]
    rcases hu with ⟨-, rfl⟩ | ⟨hb, hreq, he⟩
    · exact hs.keepWaiting 1
    · exact (he.inv hs hb hreq).keepWaiting 1

/-! ### The statements, cheapest tier first -/

/-- Settles O18: a busy engine's regions are those the race test reads. -/
theorem hostRaceWhileBusy : Obligations.HostRaceWhileBusy := by
  intro s a b hb ha
  refine ⟨fun hin => ?_, fun hin => ?_⟩
  · have hr : storeRaces a s = true := by rw [storeRaces_eq, hb, hin]; rfl
    simp only [doMove, hostStore, hostStorePosted, hr, checkAccess_race ha, and_self]
  · have hr : loadRaces a s = true := by rw [loadRaces_eq, hb, hin]; rfl
    simp only [doMove, hostLoad, hr, checkAccess_race ha]

/-- Settles O19, by the three ways an access check ends and the rule of a read after a write. -/
theorem hostStoreAndLoad : Obligations.HostStoreAndLoad := by
  intro s a b hw ha
  have hwrite : (s.mem.write a b).wf = true ∧ ∀ x, (s.mem.write a b).read x = if x = a then b else s.mem.read x :=
    ⟨Memory.wf_write hw, fun x => Memory.read_write hw⟩
  refine ⟨fun hin hdev => ?_, fun rest hp => ?_, fun hin hdev hp => ?_, fun hb hdev => ?_⟩
  · have hacc : Accessible a (storeRaces a s) s := ⟨ha, by rw [storeRaces_eq]; simpa using hin, hdev⟩
    exact ⟨⟨_, checkAccess_accessible hacc, hwrite⟩, checkAccess_accessible hacc⟩
  · exact ⟨_, by simp only [doMove, hostDrain, hp], hwrite⟩
  · have hacc : Accessible a (loadRaces a s) s := ⟨ha, by rw [loadRaces_eq]; simpa using hin, hdev⟩
    rw [doMove, hostLoad, checkAccess_accessible hacc, hostView_none_posted hp]
  · have hstore : storeRaces a s = false := by rw [storeRaces_eq, hb]; rfl
    have hload : loadRaces a s = false := by rw [loadRaces_eq, hb]; rfl
    exact ⟨checkAccess_device ha hstore hdev, checkAccess_device ha hload hdev⟩

/-- Settles O26, by cases on how the engine's step ends. -/
theorem accessesStayInside : Obligations.AccessesStayInside := by
  intro s t hb h
  obtain ⟨acc, hport, hin, hnone, hread⟩ := (engineMove_next h).accessesInside hb
  refine ⟨acc, hport, fun a ha => ?_, hnone, hread⟩
  have hin := hin a ha
  cases hd : a.dir <;> simpa [hd, Profile.allowed] using hin

/-- Settles O37: memory is left with the output stored at DST. -/
theorem resultsInMemory : Obligations.ResultsInMemory := by
  intro i s hk hw hr hv
  obtain ⟨e, q, tr, k, he⟩ := exec_stores_output hk hw hr hv
  have hwrites := writes_eq_output hk s
  refine ⟨_, he, rfl, rfl, hwrites, Memory.bytes_store hw, fun x hx => ?_⟩
  rw [hwrites] at hx
  exact Memory.read_store_outside hw (outside_of_inRegions_singleton hx)

/-- Settles O49: every step is a move. -/
theorem invariantKept : Obligations.InvariantKept := by
  intro s t hs h
  obtain ⟨-, ⟨-, hv⟩ | ⟨m, rest, -, hv⟩⟩ := step_next h
  · exact hv.inv hs
  · exact hv.inv (hs.setHost hs.postedBelow)

end Sys2Proof.Machine
end

section
/-! The encoding: the decoder said once per kind of word, what the refusals by name come from, the completion of an illegal word, the
host's WAIT, and the statements that follow (30_encoding.md). -/

namespace Sys2Proof

variable {w : BitVec 32} {x : BitVec 40} {i : Instr} {e : DecodeError}

/-! ### Transaction words (R95, R96) -/

theorem decodeHost_write (hy : x.extractLsb' 38 2 = 0b10#2) :
    decodeHost x = .ok (.hostWr (regOfIndex (x.extractLsb' 32 6).toNat) (x.extractLsb' 0 32)) :=
  if_pos hy

/-- What a word of TYPE 01 decodes to hangs on its data alone. -/
theorem decodeHost_typeRead (hy : x.extractLsb' 38 2 = 0b01#2) :
    decodeHost x =
      if x.extractLsb' 0 32 = 0 then .ok (.hostRd (regOfIndex (x.extractLsb' 32 6).toNat)) else .error .readWithData := by
  have hw : x.extractLsb' 38 2 ≠ 0b10#2 := by rw [hy]; decide
  exact (if_neg hw).trans (if_pos hy)

theorem decodeHost_read (hy : x.extractLsb' 38 2 = 0b01#2) (hd : x.extractLsb' 0 32 = 0) :
    decodeHost x = .ok (.hostRd (regOfIndex (x.extractLsb' 32 6).toNat)) :=
  (decodeHost_typeRead hy).trans (if_pos hd)

theorem decodeHost_readWithData (hy : x.extractLsb' 38 2 = 0b01#2) (hd : x.extractLsb' 0 32 ≠ 0) :
    decodeHost x = .error .readWithData :=
  (decodeHost_typeRead hy).trans (if_neg hd)

theorem decodeHost_noTransaction (hw : x.extractLsb' 38 2 ≠ 0b10#2) (hr : x.extractLsb' 38 2 ≠ 0b01#2) :
    decodeHost x = .error .noTransaction :=
  (if_neg hw).trans (if_neg hr)

/-- A transaction word that decodes is a write, or a read with no data. -/
theorem decodeHost_ok (h : decodeHost x = .ok i) :
    (x.extractLsb' 38 2 = 0b10#2 ∧ i = .hostWr (regOfIndex (x.extractLsb' 32 6).toNat) (x.extractLsb' 0 32)) ∨
      (x.extractLsb' 38 2 = 0b01#2 ∧ x.extractLsb' 0 32 = 0 ∧ i = .hostRd (regOfIndex (x.extractLsb' 32 6).toNat)) := by
  by_cases hw : x.extractLsb' 38 2 = 0b10#2
  · exact .inl ⟨hw, Except.ok.inj (h.symm.trans (decodeHost_write hw))⟩
  by_cases hr : x.extractLsb' 38 2 = 0b01#2
  · by_cases hd : x.extractLsb' 0 32 = 0
    · exact .inr ⟨hr, hd, Except.ok.inj (h.symm.trans (decodeHost_read hr hd))⟩
    · cases h.symm.trans (decodeHost_readWithData hr hd)
  · cases h.symm.trans (decodeHost_noTransaction hw hr)

/-- The register of a transaction word is well-formed, and with TYPE and DATA it makes up the word. -/
theorem hostWord_regOfIndex (x : BitVec 40) :
    (regOfIndex (x.extractLsb' 32 6).toNat).wellFormed = true ∧
      hostWord (x.extractLsb' 38 2) (regOfIndex (x.extractLsb' 32 6).toNat).index (x.extractLsb' 0 32) = x := by
  obtain ⟨hwf, hidx⟩ := index_regOfIndex (x.extractLsb' 32 6).isLt
  exact ⟨hwf, by rw [hidx, hostWord_fields]⟩

/-- The index field of a transaction word made for a well-formed register names that register. -/
theorem regOfIndex_hostWord {r : Reg} (h : r.wellFormed = true) (y : BitVec 2) (d : Word) :
    regOfIndex ((hostWord y r.index d).extractLsb' 32 6).toNat = r := by
  obtain ⟨hreg, hlt⟩ := regOfIndex_index h
  rw [hostWord_index y d hlt, hreg]

/-! ### Command words (R87, R88, R90) -/

theorem decodeCommand_reservedOpcode (h : w.toNat % 16 = 0 ∨ 7 ≤ w.toNat % 16) :
    decodeCommand w = .error .reservedOpcode := by
  rw [decodeCommand_eq, if_pos h]

theorem decodeCommand_reservedBits (h : ¬(w.toNat % 16 = 0 ∨ 7 ≤ w.toNat % 16)) (hb : w.toNat / 16 ≠ 0) :
    decodeCommand w = .error .reservedBits := by
  rw [decodeCommand_eq, if_neg h, if_pos hb]

theorem decodeCommand_legal (h : 1 ≤ w.toNat ∧ w.toNat ≤ 6) : ∃ i, decodeCommand w = .ok i := by
  obtain ⟨h1, h6⟩ := h
  have hw : w = BitVec.ofNat 32 w.toNat := by simp
  generalize w.toNat = n at h1 h6 hw
  subst hw
  interval_cases n <;> exact ⟨_, rfl⟩

/-- Every command word falls under one of R87, R88 and R90. -/
theorem decodeCommand_cases (w : BitVec 32) :
    ((w.toNat % 16 = 0 ∨ 7 ≤ w.toNat % 16) ∧ decodeCommand w = .error .reservedOpcode) ∨
      (¬(w.toNat % 16 = 0 ∨ 7 ≤ w.toNat % 16) ∧ w.toNat / 16 ≠ 0 ∧ decodeCommand w = .error .reservedBits) ∨
      (1 ≤ w.toNat ∧ w.toNat ≤ 6) ∧ ∃ i, decodeCommand w = .ok i := by
  by_cases h : w.toNat % 16 = 0 ∨ 7 ≤ w.toNat % 16
  · exact .inl ⟨h, decodeCommand_reservedOpcode h⟩
  by_cases hb : w.toNat / 16 = 0
  · have hl : 1 ≤ w.toNat ∧ w.toNat ≤ 6 := by omega
    exact .inr (.inr ⟨hl, decodeCommand_legal hl⟩)
  · exact .inr (.inl ⟨h, hb, decodeCommand_reservedBits h hb⟩)

end Sys2Proof

namespace Sys2Proof.Machine

variable {s t : State} {i : Instr} {p : Profile} {w : Word} {e : DecodeError} {rest : List Move} {n : Nat}

/-- The record of an illegal word: ILLEGAL_CMD, with SUB by the opcode first and then the reserved bits. -/
theorem illegalCause_codes (h : decodeCommand w = .error e) :
    (illegalCause e).errCode = 1 ∧
      (illegalCause e).subCode = if w.toNat % 16 = 0 ∨ 7 ≤ w.toNat % 16 then 1 else 2 := by
  rcases decodeCommand_cases w with ⟨hop, hd⟩ | ⟨hop, -, hd⟩ | ⟨-, i, hd⟩
  · obtain rfl := Except.error.inj (h.symm.trans hd)
    exact ⟨rfl, (if_pos hop).symm⟩
  · obtain rfl := Except.error.inj (h.symm.trans hd)
    exact ⟨rfl, (if_neg hop).symm⟩
  · cases h.symm.trans hd

/-! ### Refusals (R70, R96, R245, R248) -/

theorem hostTransaction_malformed {x : BitVec 40} (h : decodeHost x = .error e) (s : State) :
    hostTransaction x s = .refused (.malformedTransaction x) := by
  rw [hostTransaction, h]

theorem runCommand_refused (work : State → Res Unit) (hp : preCheck p s = none) (ht : p.touches s.platform.sideEffects = true) :
    runCommand p work s = .refused .sideEffectMemory := by
  rw [runCommand, hp]
  exact if_pos ht

/-- A keyed command is its work behind the pre-checks of its profile. -/
theorem exec_runCommand (hk : isKeyed i = true) (s : State) : ∃ work, exec i s = runCommand (profileOf i s) work s := by
  cases i with
  | chachaBlock | chachaApply | poly1305Tag | aeadEncrypt | aeadDecrypt => exact ⟨_, rfl⟩
  | zeroize | hostWr r d | hostRd r => cases hk

theorem postedRace_none
    (h : ∀ c ∈ s.host.posted, inRegions ((wordProfile w s).reads ++ (wordProfile w s).writes) c.1 = false) :
    postedRace w s = none := by
  simpa [postedRace] using h

theorem step_refused {r : Refusal} (h : platformRefusal s.platform = some r) : step s = .refused r := by
  rw [step, h]

/-! ### The host's WAIT (R98, R249) -/

/-- A read of STATUS, idle or busy, shows BUSY in bit 0, and leaves the flags, an outstanding access and the host as they are. -/
theorem exec_hostRd_status (s : State) :
    ∃ t, exec (.hostRd .status) s = .next t ∧ t.rdata.getLsbD 0 = s.status.busy ∧ t.host = s.host ∧ t.status = s.status ∧
      t.memReq = s.memReq := by
  cases hb : s.status.busy with
  | true => exact ⟨_, exec_hostRd_status_busy hb, (statusWord_flags s _).1.trans hb, rfl, rfl, rfl⟩
  | false => exact ⟨_, exec_hostRd_plain (.inr hb), (statusWord_flags s _).1.trans hb, rfl, rfl, rfl⟩

/-- A poll: the host waits on if the read shows BUSY, and has done with waiting if it does not. -/
theorem step_poll (hp : platformRefusal s.platform = none) (hm : s.host.moves = .wait (n + 1) :: rest)
    (ht : exec (.hostRd .status) { s with host.moves := rest } = .next t) :
    step s = .next (if t.rdata.getLsbD 0 then keepWaiting n t else t) := by
  rw [stepRunsTransaction.1 _ s rest hp hm, doMove, hostWait, ht]
  rfl

/-- The engine's turn between polls. -/
theorem step_await (hp : platformRefusal s.platform = none) (hm : s.host.moves = .wait 0 :: rest)
    (ht : engineTurn { s with host.moves := rest } = .next t) : step s = .next (keepWaiting 1 t) := by
  rw [stepRunsTransaction.1 _ s rest hp hm, doMove, hostWait, ht]
  rfl

/-- A stuck engine does nothing in its turn. -/
theorem engineTurn_stuck (h : s.memReq ≠ none) : engineTurn s = .next s := by
  have he : engineEnabled s ≠ true := by simp [engineEnabled, h]
  exact if_neg he

/-- The engine's step leaves the host as it is. -/
theorem EngineEnds.host (h : EngineEnds s t) : t.host = s.host := by
  cases h with
  | illegal e _ ht => rw [ht]; rfl
  | zeroize _ ht => rw [ht]; rfl
  | keyed i _ _ he =>
    obtain ⟨u, hu, rfl | ⟨c, rfl⟩⟩ := he.keepsFrame
    · exact hu.host
    · exact hu.host

theorem engineTurn_host (h : engineTurn s = .next t) : t.host = s.host := by
  rcases engineTurn_next h with ⟨-, rfl⟩ | ⟨-, -, he⟩
  · rfl
  · exact he.host

/-! ### The statements, cheapest tier first -/

/-- Settles O8: a malformed word, a launch at side-effect memory (by the command and by its acceptance), the two parameters. -/
theorem refusalsByName : Obligations.RefusalsByName := by
  refine ⟨fun s x rest e hp hm hx => ?_, fun i s hk hp ht => ?_, fun s w hb hposted hp ht => ?_, fun s hw => ?_,
    fun s h1 h64 hc => ?_⟩
  · rw [stepRunsTransaction.1 _ s rest hp hm, doMove, hostTransaction_malformed hx]
  · obtain ⟨work, hwork⟩ := exec_runCommand hk s
    rw [hwork, runCommand_refused work hp ht]
  · have hreach : reachesDevice w s = true := by simp [reachesDevice, hp, ht]
    rw [exec, execHostWr, if_pos ⟨rfl, hb⟩, postedRace_none hposted]
    exact if_pos hreach
  · exact step_refused (if_pos (hw.imp_left (by omega)))
  · exact step_refused ((if_neg (by omega)).trans (if_pos hc))

/-- Settles O24: the word completes with its record, and an acceptance has left the composer in INIT. -/
theorem illegalCommandWord : Obligations.IllegalCommandWord := by
  intro s e he
  obtain ⟨herr, hsub⟩ := illegalCause_codes he
  refine ⟨completeIllegal e s, by rw [engineMove, he], ?_, fun hinv hb hreq => (hinv.accepted hb hreq).1⟩
  rw [completeIllegal, completeCommand, herr, hsub]
  rfl

/-- Settles O60: a poll is a read of STATUS, whose bit 0 is BUSY, and an engine with an access outstanding has no turn. -/
theorem waitPollsUntilIdle : Obligations.WaitPollsUntilIdle := by
  refine ⟨fun s n rest hp hm => ?_, fun s t rest hp hm ht => ?_, fun s n rest hp hm hb hreq => ?_⟩
  · obtain ⟨t, ht, hbit, hhost, -, -⟩ := exec_hostRd_status { s with host.moves := rest }
    refine ⟨t, ht, hbit, by rw [hhost], ?_⟩
    rw [step_poll hp hm ht, hbit, keepWaiting, hhost]
  · rw [step_await hp hm ht, keepWaiting, engineTurn_host ht]
  · cases n with
    | zero => exact ⟨_, 1, step_await hp hm (engineTurn_stuck hreq), rfl, rfl, rfl⟩
    | succ n =>
      obtain ⟨t, ht, hbit, hhost, hstatus, hmem⟩ := exec_hostRd_status { s with host.moves := rest }
      refine ⟨keepWaiting n t, n, ?_, by simp [hhost], hstatus, hmem⟩
      rw [step_poll hp hm ht, hbit, if_pos hb]

/-- Settles O2: the words of both formats are made of the fields the decoder reads. -/
theorem decodedWordEncodes : Obligations.DecodedWordEncodes := by
  intro e i h
  cases e with
  | cmd32 w =>
    obtain ⟨henc, hwf, -⟩ := decodeCommand_ok h
    exact ⟨hwf, henc⟩
  | host40 x =>
    obtain ⟨hwf, hword⟩ := hostWord_regOfIndex x
    rcases decodeHost_ok h with ⟨hy, rfl⟩ | ⟨hy, hd, rfl⟩
    · rw [hy] at hword
      exact ⟨hwf, congrArg Encoded.host40 hword⟩
    · rw [hy, hd] at hword
      exact ⟨hwf, congrArg Encoded.host40 hword⟩

/-- Settles O3: the three kinds of command word exclude each other, and the six legal ones are evaluated. -/
theorem commandWordDecoding : Obligations.CommandWordDecoding := by
  refine ⟨fun w => ?_, rfl, rfl, rfl, rfl, rfl, rfl⟩
  rcases decodeCommand_cases w with ⟨hop, hd⟩ | ⟨hop, hb, hd⟩ | ⟨hl, i, hd⟩
  · exact ⟨iff_of_true hd hop, iff_of_false (by simp [hd]) (by omega), iff_of_false (by simp [hd]) (by omega)⟩
  · exact ⟨iff_of_false (by simp [hd]) hop, iff_of_true hd (by omega), iff_of_false (by simp [hd]) (by omega)⟩
  · exact ⟨iff_of_false (by simp [hd]) (by omega), iff_of_false (by simp [hd]) (by omega), iff_of_true ⟨i, hd⟩ hl⟩

/-- Settles O5, by TYPE and, for a read, DATA. -/
theorem listingWordValidity : Obligations.ListingWordValidity := by
  refine fun x => ⟨decodeHost_write, decodeHost_read, ?_⟩
  rintro (hy | hy | ⟨hy, hd⟩) s
  · exact hostTransaction_malformed (decodeHost_noTransaction (by simp [hy]) (by simp [hy])) s
  · exact hostTransaction_malformed (decodeHost_noTransaction (by simp [hy]) (by simp [hy])) s
  · exact hostTransaction_malformed (decodeHost_readWithData hy hd) s

/-- Settles O1: the six command words are evaluated; the decoder reads from a transaction word the fields it was made of. -/
theorem encodedInstructionDecodes : Obligations.EncodedInstructionDecodes := by
  intro i hwf
  cases i with
  | chachaBlock | chachaApply | poly1305Tag | aeadEncrypt | aeadDecrypt | zeroize => rfl
  | hostWr r d =>
    have h := decodeHost_write (hostWord_type 0b10#2 r.index d)
    rwa [regOfIndex_hostWord hwf, hostWord_data] at h
  | hostRd r =>
    have h := decodeHost_read (hostWord_type 0b01#2 r.index 0) (hostWord_data _ _ _)
    rwa [regOfIndex_hostWord hwf] at h

end Sys2Proof.Machine
end

section
/-! The lifecycle of a command: the pre-checks in their order, acceptance, what every completion leaves, the stuck command, and the
function a command computes of its inputs (40_command_lifecycle.md). -/

namespace Sys2Proof.Machine

variable {s t u : State} {i : Instr} {p : Profile} {ph : Phase → Prop} {acc : List MemAccess} {m : Move} {c : Cause} {w : Word}
  {o : Host.Outcome State Fault Refusal}

/-! ### The pre-checks (R108 to R113) -/

open scoped Classical in
/-- The pre-checks of a keyed command in their order, over its registers alone. -/
theorem preCheck_profileOf (hk : isKeyed i = true) :
    preCheck (profileOf i s) s =
      if s.regs.kmask ≠ 0xFF#8 then some .keyIncomplete
      else if usesNonce i = true ∧ s.regs.nmask ≠ 0x7#3 then some .nonceIncomplete
      else if i = .aeadDecrypt ∧ s.regs.len.value < 16 then some .shortInput
      else if ¬regionsInRange i s then some .addrRange
      else if regionsClash i s then some .overlap
      else if overCapacity i s then some .counterOverflow
      else none := by
  have hrange : (profileOf i s).inRange (spaceSize s) = false ↔ ¬regionsInRange i s := by
    rw [← inRange_iff hk, Bool.not_eq_true]
  have hnonce : (profileOf i s).usesNonce = true ∧ s.regs.nmask ≠ 0x7#3 ↔ usesNonce i = true ∧ s.regs.nmask ≠ 0x7#3 := by
    rw [usesNonce_eq hk]
  exact if_congr Iff.rfl rfl (if_congr hnonce rfl (if_congr (minLen_iff hk) rfl (if_congr hrange rfl
    (if_congr (overlapForbidden_iff hk) rfl (if_congr (capacityExceeded_iff hk) rfl rfl)))))

/-- Settles O20: each check that holds takes its branch off the chain of the pre-checks. -/
theorem preCheckOrder : Obligations.PreCheckOrder := by
  intro i s hk
  have hpre := preCheck_profileOf (s := s) hk
  have hfail {c : Cause} := exec_preCheck (s := s) (c := c) hk
  refine ⟨fun hkey => hfail (by rw [hpre, if_pos hkey]), fun hkey => ?_⟩
  rw [if_neg (not_not.mpr hkey)] at hpre
  refine ⟨fun hnonce => hfail (by rw [hpre, if_pos hnonce]), fun hnonce => ?_⟩
  rw [if_neg fun h => h.2 (hnonce h.1)] at hpre
  refine ⟨fun hlen => hfail (by rw [hpre, if_pos hlen]), fun hlen => ?_⟩
  rw [if_neg fun h => Nat.not_lt.mpr (hlen h.1) h.2] at hpre
  refine ⟨fun hrange => hfail (by rw [hpre, if_pos hrange]), fun hrange => ?_⟩
  rw [if_neg (not_not.mpr hrange)] at hpre
  refine ⟨fun hclash => hfail (by rw [hpre, if_pos hclash]), fun hclash => ?_⟩
  rw [if_neg hclash] at hpre
  refine ⟨fun hcap => hfail (by rw [hpre, if_pos hcap]), fun hcap => ?_⟩
  rw [hpre, if_neg hcap]

/-! ### Acceptance and the engine's turn (R105 to R107) -/

/-- Acceptance of a command word: no store posted into its regions, no launch at side-effect memory (R106, R234, R248). -/
theorem exec_accept (hb : s.status.busy = false) (hposted : postedRace w s = none) (hdev : reachesDevice w s = false) :
    exec (.hostWr .cmd w) s = .next (accept w s) := by
  have hwrite : writeReg .cmd w s = accept w s := unlessBusy_idle hb _
  simp only [exec, execHostWr, hb, hposted, hdev, hwrite, and_self, if_true, Bool.false_eq_true, if_false]

/-- The turn of an engine whose accepted command has not begun. -/
theorem engineTurn_accepted (hb : s.status.busy = true) (hreq : s.memReq = none) (hd : decodeCommand s.curOp = .ok i) :
    engineTurn s = exec i s := by
  simp [engineTurn, engineEnabled, engineMove, hb, hreq, hd]

/-- With no move left a step is the engine's turn. -/
theorem step_idleHost (hp : platformRefusal s.platform = none) (hm : s.host.moves = []) : step s = engineTurn s := by
  simp only [step, hp, nextMove, hm]

/-- Settles O7: the turn is the engine's with a move of its own and with no move left. -/
theorem stepRunsAcceptedCommand : Obligations.StepRunsAcceptedCommand := by
  intro i s hp hb hreq hd
  refine ⟨fun hm => ?_, fun rest hm => ?_⟩
  · rw [step_idleHost hp hm, engineTurn_accepted hb hreq hd]
  · rw [stepRunsTransaction.1 .engine s rest hp hm]
    exact engineTurn_accepted (s := { s with host.moves := rest }) hb hreq hd

/-- Settles O16: the write is the acceptance, and an illegal word then completes in the engine's step. -/
theorem commandAcceptance : Obligations.CommandAcceptance := by
  intro s w hb hposted hdev
  have hreach : reachesDevice w s = false := by
    rw [← Bool.not_eq_true]
    simpa [reachesDevice] using hdev
  refine ⟨_, exec_accept hb (postedRace_none hposted) hreach, rfl, Bool.and_false _, fun e he => ?_⟩
  have hmove : engineMove (accept w s) = .next (completeIllegal e (accept w s)) := by
    simp only [engineMove, accept_fields, he]
  exact ⟨_, hmove, (illegalCause_codes he).1⟩

/-! ### Completion (R116, R117, R122, R212) -/

theorem keysetWord_unmarked (hk : s.regs.kmask = 0) (hn : s.regs.nmask = 0) : keysetWord s = 0 := by
  rw [keysetWord, hk, hn]
  rfl

/-- Settles O21. -/
theorem completionRecord : Obligations.CompletionRecord :=
  ⟨fun _ _ => ⟨rfl, Bool.and_true _⟩, rfl⟩

/-- Settles O23. -/
theorem zeroizeCommand : Obligations.ZeroizeCommand := fun _ =>
  ⟨_, rfl, rfl, keysetWord_unmarked rfl rfl, fun hinv hb hreq => (hinv.accepted hb hreq).1⟩

/-- What a command with profile `p`, begun in `s`, has left in `u` when it completes with cause `c`: its frame, and memory as it was
if the cause is an error but a bus error. -/
structure Completes (p : Profile) (c : Cause) (s u : State) : Prop where
  frame : KeepsFrame p s u
  memKept : c ≠ .success → c.isBus = false → u.mem = s.mem

theorem Completes.refl (p : Profile) (c : Cause) (s : State) : Completes p c s s :=
  ⟨.refl p s, fun _ _ => rfl⟩

/-- A keyed command that leaves BUSY clear has completed. -/
theorem Ending.completes (h : Ending i s (.next t)) (hb : s.status.busy = true) (hd : t.status.busy = false) :
    ∃ c u, Completes (profileOf i s) c s u ∧ t = completeCommand c u := by
  cases h with
  | preCheck c => exact ⟨c, s, .refl _ c s, rfl⟩
  | success acc v _ ran => exact ⟨_, _, ⟨ran.keepsFrame.setPhase _, fun h => absurd rfl h⟩, rfl⟩
  | busError dir v _ stops =>
    exact ⟨_, _, ⟨stops.keepsFrame.scramble, fun _ h => absurd ((busCause_isBus dir).symm.trans h) (by decide)⟩, rfl⟩
  | authFail acc v _ hi _ ran =>
    subst hi
    have hmem : v.mem = s.mem := ran.memKept (ran.reads_only rfl)
    exact ⟨_, _, ⟨(ran.weaken rfl (verifyProfile_reads s)).keepsFrame.setPhase .rejected, fun _ _ => hmem⟩, rfl⟩
  | stuck dir v _ stops => exact absurd ((stops.busy.trans hb).symm.trans hd) (by decide)

/-- An engine's step that leaves BUSY clear has completed its command, and cleared the nonce exactly for ZEROIZE. -/
theorem EngineEnds.completes (h : EngineEnds s t) (hb : s.status.busy = true) (hd : t.status.busy = false) :
    (decodeCommand s.curOp = .ok .zeroize ∧
        t = completeCommand .success { s with regs.nonce := Vector.replicate 3 0, regs.nmask := 0 }) ∨
      decodeCommand s.curOp ≠ .ok .zeroize ∧ ∃ c u, Completes (wordProfile s.curOp s) c s u ∧ t = completeCommand c u := by
  cases h with
  | illegal e he ht => exact .inr ⟨by simp [he], _, s, .refl _ _ s, ht⟩
  | zeroize hz ht => exact .inl ⟨hz, ht⟩
  | keyed i hi hk he =>
    refine .inr ⟨?_, by rw [wordProfile_ok hi]; exact he.completes hb hd⟩
    rintro hz
    obtain rfl := Except.ok.inj (hi.symm.trans hz)
    cases hk

theorem Cause.isBus_iff (c : Cause) : c.isBus = true ↔ c.errCode = 5 := by
  cases c <;> decide

/-- Settles O27: the cause is an error, so the command is no ZEROIZE. -/
theorem preciseErrors : Obligations.PreciseErrors := by
  intro s t hw hb h hd herr
  rcases (engineMove_next h).completes hb hd with ⟨-, rfl⟩ | ⟨-, c, u, hu, rfl⟩
  · exact absurd rfl herr
  · refine ⟨fun hcode => hu.memKept ?_ ?_, hu.frame.memOutside hw, by rw [← hu.frame.regs]; rfl⟩
    · rintro rfl
      exact herr rfl
    · rw [← Bool.not_eq_true, Cause.isBus_iff]
      rintro (h5 : c.errCode = 5)
      simp [h5] at hcode

/-- DONE rises only in a turn of the engine. -/
theorem StatusMoved.done_rises (h : StatusMoved m s t) (h0 : s.status.done = false) (h1 : t.status.done = true) :
    m = .engine ∨ m = .wait 0 := by
  cases h with
  | write x r d _ _ hw =>
    cases hw with
    | accepted => cases h1
    | dropped | setUp | enable | ignored => exact absurd (h0.symm.trans h1) Bool.false_ne_true
    | flags => simp [h0] at h1
  | engine u hm => exact hm
  | reset _ ht => rw [ht] at h1; cases h1
  | kept ht => rw [ht, h0] at h1; cases h1

/-- The step of the engine at which DONE rises. -/
theorem Moved.done_rises (h : Moved m s t) (h0 : s.status.done = false) (h1 : t.status.done = true) :
    ∃ u, s.status.busy = true ∧ EngineEnds s u ∧ (t = u ∨ t = keepWaiting 1 u) := by
  have hturn := h.status.done_rises h0 h1
  cases h with
  | engine _ hb _ he => exact ⟨t, hb, he, .inl rfl⟩
  | await u _ hu ht =>
    rcases hu with ⟨-, rfl⟩ | ⟨hb, -, he⟩
    · simp [ht, h0] at h1
    · exact ⟨u, hb, he, .inr ht⟩
  | rest _ _ ht => rw [ht, h0] at h1; cases h1
  | write _ _ _ hm | read _ _ hm | reset hm | store _ _ hm | post _ _ hm | drain _ _ _ hm | drained hm | load _ hm
  | poll _ _ hm => simp [hm] at hturn

/-- What the completion of a command begun in `s` has cleared in `t`, and which registers it has kept (R117, R122). -/
structure Zeroised (s t : State) : Prop where
  busy : t.status.busy = false
  engine : t.engine = Engine.zero
  curOp : t.curOp = s.curOp
  regs : ∃ n k, t.regs = { s.regs with key := Vector.replicate 8 0, kmask := 0, nonce := n, nmask := k }
  nonce : decodeCommand s.curOp ≠ .ok .zeroize → t.regs.nonce = s.regs.nonce ∧ t.regs.nmask = s.regs.nmask

theorem EngineEnds.zeroised (h : EngineEnds s t) (hb : s.status.busy = true) (hd : t.status.busy = false) : Zeroised s t := by
  rcases h.completes hb hd with ⟨hz, rfl⟩ | ⟨-, c, u, ⟨frame, -⟩, rfl⟩
  · exact ⟨rfl, rfl, rfl, ⟨_, _, rfl⟩, fun hn => absurd hz hn⟩
  · refine ⟨rfl, rfl, frame.curOp, ⟨u.regs.nonce, u.regs.nmask, ?_⟩, fun _ => ?_⟩
    · rw [← frame.regs]; rfl
    · rw [← frame.regs]; exact ⟨rfl, rfl⟩

theorem Moved.zeroised (h : Moved m s t) (h0 : s.status.done = false) (h1 : t.status.done = true) : Zeroised s t := by
  obtain ⟨u, hb, he, ht⟩ := h.done_rises h0 h1
  have hu : Zeroised s u := by
    rcases he.flags hb with ⟨hd, -⟩ | ⟨-, -, hdone, -⟩
    · exact he.zeroised hb hd
    · have hut : t.status.done = u.status.done := by rcases ht with rfl | rfl <;> rfl
      rw [hut, hdone, h0] at h1; cases h1
  rcases ht with rfl | rfl
  · exact hu
  · exact { hu with }

/-- Settles O22: while BUSY the invariant has DONE = 0, so DONE has risen at the engine's step. -/
theorem everyCompletionZeroises : Obligations.EveryCompletionZeroises := by
  intro s t hinv hb h h1
  obtain ⟨h0, -⟩ := hinv.running hb
  have hz : Zeroised s t := by
    obtain ⟨-, ⟨-, hv⟩ | ⟨m, rest, -, hv⟩⟩ := step_next h
    · exact hv.zeroised h0 h1
    · exact { hv.zeroised h0 h1 with }
  obtain ⟨hbusy, hengine, hcur, ⟨n, k, hregs⟩, hnonce⟩ := hz
  simpa only [hbusy, hengine, hcur, hregs, true_and] using hnonce

/-! ### Answered and unanswered commands (R107, R201, R249) -/

/-- A command that stops at a missing answer has one in its queue. -/
theorem Stops.never_mem {dir : Dir} (h : Stops p ph .never dir s u) : BusResp.never ∈ s.bus := by
  obtain ⟨acc, t, a, -, hans, -, -⟩ := h.answer (by simp)
  exact List.mem_of_getElem? hans

theorem Stops.memReq_ne_none {dir : Dir} (h : Stops p ph .never dir s u) : u.memReq ≠ none := by
  obtain ⟨acc, t, a, -, -, -, rfl⟩ := h
  simp

/-- A keyed command in ordinary memory completes if no answer is missing. -/
theorem Ending.answered (h : Ending i s o) (hn : BusResp.never ∉ s.bus)
    (hs : (profileOf i s).touches s.platform.sideEffects = false) : ∃ c u, o = .next (completeCommand c u) := by
  cases h with
  | special _ ht => rw [hs] at ht; cases ht
  | stuck dir v _ stops => exact absurd stops.never_mem hn
  | preCheck | success | busError | authFail => exact ⟨_, _, rfl⟩

/-- Settles O29: an illegal word and ZEROIZE complete at once, a keyed command because it is not refused and not stuck. -/
theorem answeredCommandCompletes : Obligations.AnsweredCommandCompletes := by
  intro s _ hn hs
  suffices hcomp : ∃ c u, engineMove s = .next (completeCommand c u) by
    obtain ⟨c, u, hu⟩ := hcomp
    exact ⟨c, _, hu, rfl, rfl, rfl, rfl⟩
  cases hd : decodeCommand s.curOp with
  | error e => exact ⟨_, _, by rw [engineMove, hd]; rfl⟩
  | ok i =>
    rw [wordProfile_ok hd] at hs
    have hmove : engineMove s = exec i s := by rw [engineMove, hd]
    rw [hmove]
    rcases decodeCommand_isCommand hd with rfl | hk
    · exact ⟨_, _, rfl⟩
    · exact (exec_ending hk s).answered hn hs

/-- A keyed command that leaves BUSY set is stuck at an access whose answer is missing. -/
theorem Ending.busy (h : Ending i s (.next t)) (hb : t.status.busy = true) : BusResp.never ∈ s.bus ∧ t.memReq ≠ none := by
  cases h with
  | stuck dir v _ stops => exact ⟨stops.never_mem, stops.memReq_ne_none⟩
  | preCheck | success | busError | authFail => cases hb

/-- A keyed command is its pre-checks, then work that waits at any access whose answer is missing. -/
theorem exec_waits (hk : isKeyed i = true) (hb : s.bus = []) :
    ∃ work, WaitsSome s work ∧ ∀ b, exec i (s.answeredBy b) = runCommand (profileOf i s) work (s.answeredBy b) := by
  cases i with
  | chachaBlock => exact ⟨_, chachaBlockWork_waits hb, fun _ => rfl⟩
  | chachaApply => exact ⟨_, chachaApplyWork_waits hb, fun _ => rfl⟩
  | poly1305Tag => exact ⟨_, poly1305TagWork_waits hb, fun _ => rfl⟩
  | aeadEncrypt => exact ⟨_, aeadEncryptWork_waits hb, fun _ => rfl⟩
  | aeadDecrypt => exact ⟨_, aeadDecryptWork_waits hb, fun _ => rfl⟩
  | zeroize | hostWr | hostRd => cases hk

/-- Settles O30: the run with every access answered makes its accesses, and the run with one answer missing waits at that one. -/
theorem unansweredCommandIsStuck : Obligations.UnansweredCommandIsStuck := by
  refine ⟨fun i s t hk h hb => ?_, fun i s hk hb _ hs => ?_⟩
  · have hend : Ending i s (.next t) := h ▸ exec_ending hk s
    obtain ⟨hnever, hreq⟩ := hend.busy hb
    have hturn := engineTurn_stuck hreq
    exact ⟨hnever, hreq, hturn, fun hp hm => by rw [step_idleHost hp hm, hturn]⟩
  · have hend := exec_ending hk (s.answeredBy [])
    obtain ⟨c, u, hu⟩ := hend.answered (by simp [State.answeredBy]) hs
    obtain ⟨acc, hport, -⟩ := (hu ▸ hend).accessesInside hb
    refine ⟨_, acc, hu, hport, fun k rest a hbus ha => ?_⟩
    obtain ⟨work, hwaits, hwork⟩ := exec_waits (s := s.answeredBy []) hk rfl
    obtain ⟨t, ht, hbusy, hreq⟩ := runCommand_waits _ hwaits ((hwork []).symm.trans hu) hport ha (rest := rest)
    have hs' : (s.answeredBy []).answeredBy (missingAfter k rest) = s := by
      unfold missingAfter
      rw [← hbus]
      rfl
    rw [← hwork, hs'] at ht
    exact ⟨t, ht, hbusy.trans hb, hreq⟩

/-! ### The result as a function of the inputs (R120) -/

/-- The same set-up registers and platform, and the same contents of the read regions of a command. -/
structure SameInputs (i : Instr) (s t : State) : Prop where
  regs : t.regs = s.regs
  platform : t.platform = s.platform
  reads : ∀ x, inRegions (profileOf i s).reads x = true → t.mem.read x = s.mem.read x

/-- Bytes inside a read region are the same. -/
theorem SameInputs.bytes (h : SameInputs i s t) {r : Region} (hr : r ∈ (profileOf i s).reads) {a n : Nat} (ha : r.base ≤ a)
    (hn : a + n ≤ r.base + r.len) : t.mem.bytes a n = s.mem.bytes a n :=
  Memory.bytes_congr fun x _ _ => h.reads x (inRegions_mem hr (by omega) (by omega))

theorem SameInputs.profileOf_eq (h : SameInputs i s t) : profileOf i t = profileOf i s := by
  cases i <;>
    simp only [profileOf, chachaBlockProfile, chachaApplyProfile, poly1305TagProfile, aeadEncryptProfile, aeadDecryptProfile, h.regs]

theorem SameInputs.preCheck_eq (h : SameInputs i s t) : preCheck (profileOf i t) t = preCheck (profileOf i s) s := by
  rw [h.profileOf_eq]
  unfold preCheck spaceSize
  rw [h.regs, h.platform]

/-- All that makes a command ready but the answers is in its inputs. -/
theorem SameInputs.ready (h : SameInputs i s t) (hr : ready (profileOf i s) s) (hb : busOk t = true) :
    ready (profileOf i t) t := by
  obtain ⟨hc, ht, -⟩ := hr
  exact ⟨h.preCheck_eq.trans hc, by rw [h.profileOf_eq, h.platform, ht], hb⟩

theorem SameInputs.commandOutput_eq (h : SameInputs i s t) : commandOutput i t = commandOutput i s := by
  cases i with
  | chachaBlock => simp only [commandOutput, h.regs]
  | chachaApply | poly1305Tag =>
    have hsrc := h.bytes (r := ⟨s.regs.src.value, s.regs.len.value⟩)
      (by simp [Profile.reads, profileOf, chachaApplyProfile, poly1305TagProfile]) (Nat.le_refl _) (Nat.le_refl _)
    simp only [commandOutput, srcBytes, keyBytes, h.regs, hsrc]
  | aeadEncrypt =>
    have had := h.bytes (r := ⟨s.regs.ad.value, s.regs.adlen.value⟩)
      (by simp [Profile.reads, profileOf, aeadEncryptProfile]) (Nat.le_refl _) (Nat.le_refl _)
    have hsrc := h.bytes (r := ⟨s.regs.src.value, s.regs.len.value⟩)
      (by simp [Profile.reads, profileOf, aeadEncryptProfile]) (Nat.le_refl _) (Nat.le_refl _)
    simp only [commandOutput, adBytes, srcBytes, h.regs, had, hsrc]
  | aeadDecrypt =>
    have hct := h.bytes (r := ⟨s.regs.src.value, s.regs.len.value⟩) (a := s.regs.src.value) (n := s.regs.len.value - 16)
      (by simp [Profile.reads, profileOf, aeadDecryptProfile]) (Nat.le_refl _) (by simp)
    simp only [commandOutput, ctBytes, h.regs, hct]
  | zeroize | hostWr | hostRd => rfl

theorem SameInputs.verifies_iff (h : SameInputs .aeadDecrypt s t) (hl : 16 ≤ s.regs.len.value) : verifies t ↔ verifies s := by
  have hsrc : (⟨s.regs.src.value, s.regs.len.value⟩ : Region) ∈ (profileOf .aeadDecrypt s).reads := by
    simp [Profile.reads, profileOf, aeadDecryptProfile]
  have had := h.bytes (r := ⟨s.regs.ad.value, s.regs.adlen.value⟩)
    (by simp [Profile.reads, profileOf, aeadDecryptProfile]) (Nat.le_refl _) (Nat.le_refl _)
  have hct := h.bytes hsrc (n := s.regs.len.value - 16) (Nat.le_refl _) (by simp)
  have hrtag := h.bytes hsrc (a := s.regs.src.value + (s.regs.len.value - 16)) (n := 16) (by simp) (by simp only; omega)
  simp only [verifies, adBytes, ctBytes, rtagBytes, h.regs, had, hct, hrtag]

theorem preCheck_errCode_ne_zero (h : preCheck p s = some c) : c.errCode ≠ 0 := by
  rcases preCheck_some h with h | h <;> simp [h]

theorem never_notMem_of_busOk (h : busOk s = true) : BusResp.never ∉ s.bus := by
  intro hn
  simpa using List.all_eq_true.mp h _ hn

/-- With no answer missing, ERR = 0 is the record of a success only. -/
theorem Ending.success_phase (h : Ending i s (.next t)) (hn : BusResp.never ∉ s.bus) (h0 : t.status.err = 0) :
    t.status.phase = successPhase i s := by
  cases h with
  | success => rfl
  | stuck dir v _ stops => exact absurd stops.never_mem hn
  | preCheck c hc => exact absurd h0 (preCheck_errCode_ne_zero hc)
  | busError dir v =>
    have herr : (busCause dir).errCode = 0 := h0
    cases dir <;> cases herr
  | authFail => cases h0

/-- The success of a command that is ready, with a right tag if it is a decryption: its record, PHASE and memory. -/
theorem exec_success (hk : isKeyed i = true) (hw : s.mem.wf = true) (hr : ready (profileOf i s) s)
    (hv : i = .aeadDecrypt → verifies s) :
    ∃ t, exec i s = .next t ∧ t.status.err = 0 ∧ t.status.sub = 0 ∧ t.status.phase = successPhase i s ∧
      t.mem = s.mem.store s.regs.dst.value (commandOutput i s) := by
  obtain ⟨e, q, tr, k, he⟩ := exec_stores_output hk hw hr hv
  exact ⟨_, he, rfl, rfl, (he ▸ exec_ending hk s).success_phase (never_notMem_of_busOk hr.2.2) rfl, rfl⟩

/-- The rejection of a decryption that is ready but has a wrong tag (R192). -/
theorem exec_rejected (hr : ready (profileOf .aeadDecrypt s) s) (hv : ¬verifies s) :
    ∃ t, exec .aeadDecrypt s = .next t ∧ t.status.err = 4 ∧ t.status.sub = 0 ∧ t.status.phase = .rejected := by
  obtain ⟨hc, ht, hb⟩ := hr
  obtain ⟨e, he⟩ := aeadDecryptWork_wrong hb hv
  refine ⟨completeCommand .authFail (worked e .rejected s.mem (verifyReads s) (verifySteps s) s), ?_, rfl, rfl, rfl⟩
  simp only [profileOf] at hc ht
  simp only [exec, execAeadDecrypt, runCommand, hc, ht, he, Bool.false_eq_true, if_false]
  rfl

theorem isCommand_cases (h : isCommand i = true) : i = .zeroize ∨ isKeyed i = true := by
  cases i with
  | zeroize => exact .inl rfl
  | hostWr | hostRd => cases h
  | chachaBlock | chachaApply | poly1305Tag | aeadEncrypt | aeadDecrypt => exact .inr rfl

/-- Equal outputs stored at DST give equal bytes in the written region. -/
theorem read_written_eq (hk : isKeyed i = true) {x : Nat} (hx : inRegions (profileOf i s).writes x = true) {m n : Memory}
    (hm : m.wf = true) (hn : n.wf = true) :
    (m.store s.regs.dst.value (commandOutput i s)).read x = (n.store s.regs.dst.value (commandOutput i s)).read x := by
  rw [writes_eq_output hk] at hx
  simp only [inRegions, List.any_cons, List.any_nil, Bool.or_false, Region.has, Bool.and_eq_true, decide_eq_true_eq] at hx
  obtain ⟨k, rfl⟩ := Nat.exists_eq_add_of_le hx.1
  have hlt : k < (commandOutput i s).length := by omega
  rw [Memory.read_store_inside hm hlt, Memory.read_store_inside hn hlt]

/-- Settles O42: the pre-checks, the verification and the output are functions of the inputs. -/
theorem sameInputsSameResult : Obligations.SameInputsSameResult := by
  intro i s1 s2 hi hw1 hw2 hregs hplat hphase hb1 hb2 ht hreads
  have hsame : SameInputs i s1 s2 := ⟨hregs.symm, hplat.symm, fun x hx => (hreads x hx).symm⟩
  rcases isCommand_cases hi with rfl | hk
  · exact ⟨_, _, rfl, rfl, rfl, rfl, hphase, fun _ x hx => by cases hx⟩
  cases hc : preCheck (profileOf i s1) s1 with
  | some c =>
    exact ⟨_, _, exec_preCheck hk hc, exec_preCheck hk (hsame.preCheck_eq.trans hc), rfl, rfl, hphase,
      fun h0 => absurd h0 (preCheck_errCode_ne_zero hc)⟩
  | none =>
    have hr1 : ready (profileOf i s1) s1 := ⟨hc, ht, hb1⟩
    have hr2 := hsame.ready hr1 hb2
    by_cases hv : i = .aeadDecrypt ∧ ¬verifies s1
    · obtain ⟨rfl, hv⟩ := hv
      obtain ⟨-, -, hl, -⟩ := preCheck_none hc
      obtain ⟨t1, he1, herr1, hsub1, hph1⟩ := exec_rejected hr1 hv
      obtain ⟨t2, he2, herr2, hsub2, hph2⟩ := exec_rejected hr2 (mt (hsame.verifies_iff hl).mp hv)
      exact ⟨t1, t2, he1, he2, herr1.trans herr2.symm, hsub1.trans hsub2.symm, hph1.trans hph2.symm,
        fun h0 => by rw [herr1] at h0; cases h0⟩
    · have hv1 : i = .aeadDecrypt → verifies s1 := by simpa using hv
      have hv2 : i = .aeadDecrypt → verifies s2 := by
        rintro rfl
        obtain ⟨-, -, hl, -⟩ := preCheck_none hc
        exact (hsame.verifies_iff hl).mpr (hv1 rfl)
      obtain ⟨t1, he1, herr1, hsub1, hph1, hm1⟩ := exec_success hk hw1 hr1 hv1
      obtain ⟨t2, he2, herr2, hsub2, hph2, hm2⟩ := exec_success hk hw2 hr2 hv2
      have hph : successPhase i s1 = successPhase i s2 := by cases i <;> simp [successPhase, hphase]
      refine ⟨t1, t2, he1, he2, herr1.trans herr2.symm, hsub1.trans hsub2.symm, (hph1.trans hph).trans hph2.symm, fun _ x hx => ?_⟩
      rw [hm1, hm2, hsame.commandOutput_eq, hsame.regs]
      exact read_written_eq hk hx hw1 hw2

end Sys2Proof.Machine
end

section
/-! ChaCha20: the datapath's rounds, the bytes of an applied stream, what CHACHA_BLOCK and CHACHA_APPLY complete with, and the
statements that follow (41_chacha20.md). -/

namespace Sys2Proof.Machine

variable {s t : State} {i : Instr} {m : Memory}

/-! ### The column quarter-rounds in any order (R130) -/

/-- The index tuples of the column round (R130). -/
def columnTuples : List (Fin 16 × Fin 16 × Fin 16 × Fin 16) :=
  [(0, 4, 8, 12), (1, 5, 9, 13), (2, 6, 10, 14), (3, 7, 11, 15)]

/-- The quarter-round on an index tuple (R129). -/
def quarterRoundOn (x : Block) (q : Fin 16 × Fin 16 × Fin 16 × Fin 16) : Block :=
  quarterRoundAt x q.1 q.2.1 q.2.2.1 q.2.2.2

theorem foldl_columnTuples (x : Block) : columnTuples.foldl quarterRoundOn x = columnWords x :=
  (columnWords_eq x).symm

theorem columnTuples_fourApart : ∀ p ∈ columnTuples, fourApart p.1 p.2.1 p.2.2.1 p.2.2.2 := by
  simp [columnTuples, fourApart]

/-- Different columns have no index in common. -/
theorem columnTuples_disjoint : ∀ p ∈ columnTuples, ∀ q ∈ columnTuples, p ≠ q →
    ∀ a ∈ [p.1, p.2.1, p.2.2.1, p.2.2.2], ∀ b ∈ [q.1, q.2.1, q.2.2.1, q.2.2.2], a ≠ b := by
  decide

/-- The quarter-rounds on two columns commute. -/
theorem quarterRoundOn_comm {p q : Fin 16 × Fin 16 × Fin 16 × Fin 16} (hp : p ∈ columnTuples) (hq : q ∈ columnTuples)
    (x : Block) : quarterRoundOn (quarterRoundOn x p) q = quarterRoundOn (quarterRoundOn x q) p := by
  by_cases hpq : p = q
  · rw [hpq]
  · exact quarterRoundAt_comm x (columnTuples_fourApart p hp) (columnTuples_fourApart q hq) (columnTuples_disjoint p hp q hq hpq)

/-! ### The bytes of an applied stream (R141, R142) -/

/-- The keystream from the next counter on is the keystream 64 bytes further on. -/
theorem keystreamByte_next (key : Vector Word 8) (nonce : Vector Word 3) (c : Word) (i : Nat) :
    keystreamByte key nonce (c + 1).toNat i = keystreamByte key nonce c.toNat (i + 64) := by
  have hdiv : (i + 64) / 64 = i / 64 + 1 := by omega
  have hctr : BitVec.ofNat 32 ((c + 1).toNat + i / 64) = BitVec.ofNat 32 (c.toNat + (i / 64 + 1)) := by
    apply BitVec.eq_of_toNat_eq
    rw [BitVec.toNat_ofNat, BitVec.toNat_ofNat, BitVec.toNat_add, show (1 : Word).toNat = 1 from rfl]
    omega
  rw [keystreamByte, keystreamByte, hdiv, hctr, Nat.add_mod_right]

/-- Within the first block the keystream is the block of the counter. -/
theorem keystreamByte_first (key : Vector Word 8) (nonce : Vector Word 3) (c : Word) {i : Nat} (hi : i < 64) :
    (chachaBlock key nonce c)[i]? = some (keystreamByte key nonce c.toNat i) := by
  rw [keystreamByte, Nat.div_eq_of_lt hi, Nat.mod_eq_of_lt hi, Nat.add_zero, BitVec.ofNat_toNat, BitVec.setWidth_eq,
    List.getD_eq_getElem _ _ (by simpa using hi), List.getElem?_eq_getElem (by simpa using hi)]

/-- Byte `i` of an applied stream, block by block. The model's counter is a word, so this holds where it wraps too. -/
theorem getElem?_applyStream (key : Vector Word 8) (nonce : Vector Word 3) (c : Word) {b : Bytes} {i : Nat} (hi : i < b.length) :
    (applyStream key nonce c b)[i]? = b[i]?.map (· ^^^ keystreamByte key nonce c.toNat i) := by
  induction i using Nat.strongRecOn generalizing c b with
  | ind i ih =>
    have hlen : (xorBytes (b.take 64) (chachaBlock key nonce c)).length = min 64 b.length := by simp
    rw [applyStream_step key nonce c (by omega)]
    by_cases hfirst : i < 64
    · rw [List.getElem?_append_left (by omega), xorBytes, List.getElem?_zipWith, keystreamByte_first key nonce c hfirst,
        List.getElem?_take_of_lt hfirst, List.getElem?_eq_getElem hi]
      rfl
    · obtain ⟨j, rfl⟩ := Nat.exists_eq_add_of_le' (Nat.le_of_not_lt hfirst)
      have hj : j + 64 - min 64 b.length = j := by omega
      rw [List.getElem?_append_right (by omega), hlen, hj, ih j (by omega) (c + 1) (by rw [List.length_drop]; omega),
        keystreamByte_next, List.getElem?_drop, Nat.add_comm 64 j]

/-! ### Two runs in one place (R142, R146) -/

/-- Storing the old bytes over a store undoes it. -/
theorem Memory.store_store_bytes (h : m.wf = true) (a : Nat) {bs : Bytes} {n : Nat} (hn : bs.length = n) :
    (m.store a bs).store a (m.bytes a n) = m := by
  subst hn
  have hs : (m.store a bs).wf = true := Memory.wf_store h
  refine Memory.ext (Memory.wf_store hs) h fun x => ?_
  by_cases hx : x < a ∨ a + bs.length ≤ x
  · rw [Memory.read_store_outside hs (by simpa using hx), Memory.read_store_outside h hx]
  · obtain ⟨k, rfl⟩ := Nat.exists_eq_add_of_le (show a ≤ x by omega)
    rw [Memory.read_store_inside hs (by rw [Memory.length_bytes]; omega), Memory.getElem_bytes]

/-- What makes a command ready is in its registers, its platform and the answers, not in memory. -/
theorem ready_of_regs (h : ready (profileOf i s) s) (hregs : t.regs = s.regs) (hplat : t.platform = s.platform)
    (hb : busOk t = true) : ready (profileOf i t) t :=
  have hsame : SameInputs i s { t with mem := s.mem } := ⟨hregs, hplat, fun _ _ => rfl⟩
  have hprof : profileOf i { t with mem := s.mem } = profileOf i t := by cases i <;> rfl
  hprof ▸ hsame.ready h hb

/-! ### The completion of the two commands (R143, R146) -/

/-- A completion shows of the work before it the accesses and memory alone, where the composer has stayed. -/
theorem completeCommand_worked (c : Cause) (e : Engine) (m : Memory) (tr : List MemAccess) (k : Nat) (s : State) :
    completeCommand c (worked e s.status.phase m tr k s) = completeCommand c { afterAccesses tr k s with mem := m } := rfl

/-- CHACHA_APPLY that passes its pre-checks has its source and destination at one start or apart (R65). -/
theorem apart_of_ready_chachaApply (h : ready (chachaApplyProfile s) s) :
    apart s.regs.src.value s.regs.dst.value s.regs.len.value := by
  obtain ⟨-, -, -, -, hover, -⟩ := preCheck_none h.1
  exact apart_of_regions rfl rfl hover (Nat.le_refl _) (Nat.le_refl _) rfl

/-! ### The statements, the commands first -/

/-- Settles O31: the work is the block and its 64 writes. -/
theorem chachaBlockResult : Obligations.ChachaBlockResult := by
  intro s hr
  obtain ⟨e, he⟩ := chachaBlockWork_ok hr.2.2
  exact (runCommand_ready hr he).trans (congrArg _ (completeCommand_worked ..))

/-- Settles O32: the work is the payload loop, over regions that are equal or apart. -/
theorem chachaApplyResult : Obligations.ChachaApplyResult := by
  intro s hw hr
  obtain ⟨e, he⟩ := chachaApplyWork_ok hr.2.2 hw (apart_of_ready_chachaApply hr)
  exact (runCommand_ready hr he).trans (congrArg _ (completeCommand_worked ..))

/-- Settles O40: the second run reads what the first has stored, so it stores what the first has read. -/
theorem applyTwiceRestores : Obligations.ApplyTwiceRestores := by
  intro s t u hw hin hr ht hu
  have hfirst := ht.symm.trans (chachaApplyResult s hw hr)
  injection hfirst with hfirst
  have hmem : u.mem = s.mem.store s.regs.dst.value (applyStream s.regs.key s.regs.nonce s.regs.ctr (srcBytes s)) := by
    rw [hu, hfirst]; rfl
  have hregs : u.regs = s.regs := by rw [hu]
  have hplat : u.platform = s.platform := by rw [hu, hfirst]; rfl
  have hbus : busOk u = true := by rw [hu, hfirst]; exact busOk_drop hr.2.2 _
  have hwu : u.mem.wf = true := hmem ▸ Memory.wf_store hw
  have hru : ready (chachaApplyProfile u) u := ready_of_regs (i := .chachaApply) hr hregs hplat hbus
  have hlen : (applyStream s.regs.key s.regs.nonce s.regs.ctr (srcBytes s)).length = s.regs.len.value := by
    rw [length_applyStream, length_srcBytes]
  have hsrc : srcBytes u = applyStream s.regs.key s.regs.nonce s.regs.ctr (srcBytes s) := by
    rw [srcBytes, hregs, hin, hmem, ← hlen, Memory.bytes_store hw]
  have hread : srcBytes s = s.mem.bytes s.regs.dst.value s.regs.len.value := by rw [srcBytes, hin]
  have hback := Memory.store_store_bytes hw s.regs.dst.value hlen
  rw [← hmem, ← hread] at hback
  refine ⟨_, chachaApplyResult u hwu hru, rfl, ?_⟩
  calc u.mem.store u.regs.dst.value (applyStream u.regs.key u.regs.nonce u.regs.ctr (srcBytes u))
      = u.mem.store s.regs.dst.value (srcBytes s) := by rw [hregs, hsrc, applyStream_applyStream]
    _ = s.mem := hback

/-- Settles O50: the rotation back moves the four column quarter-rounds to the diagonals. -/
theorem rowRotationIsDiagonal : Obligations.RowRotationIsDiagonal := by
  intro x
  rw [columnWords_eq, unrotRows_quarterRoundAt _ (columnTuples_fourApart (3, 7, 11, 15) (by decide)),
    unrotRows_quarterRoundAt _ (columnTuples_fourApart (2, 6, 10, 14) (by decide)),
    unrotRows_quarterRoundAt _ (columnTuples_fourApart (1, 5, 9, 13) (by decide)),
    unrotRows_quarterRoundAt _ (columnTuples_fourApart (0, 4, 8, 12) (by decide)), unrotRows_rotRows, diagonalWords_eq]
  rfl

/-- Settles O51: quarter-rounds on columns commute, so the order of a fold over them does not matter. -/
theorem columnQuarterRoundsCommute : Obligations.ColumnQuarterRoundsCommute := by
  intro l x hl
  have hcomm : ∀ p ∈ l, ∀ q ∈ l, ∀ y, quarterRoundOn (quarterRoundOn y p) q = quarterRoundOn (quarterRoundOn y q) p :=
    fun p hp q hq => quarterRoundOn_comm (hl.subset hp) (hl.subset hq)
  exact (hl.foldl_eq' hcomm x).trans (foldl_columnTuples x)

/-- Settles O53. -/
theorem keystreamBytes : Obligations.KeystreamBytes := fun key nonce c b _ =>
  ⟨length_applyStream key nonce c b, fun _ hi => getElem?_applyStream key nonce c hi⟩

/-- Settles O59: both vectors, each evaluated. -/
theorem publishedVectors : Obligations.PublishedVectors := by
  exact ⟨by decide +kernel, by decide +kernel⟩

end Sys2Proof.Machine
end

section
/-! Poly1305: the bytes of the clamp, the ranges of an absorption, the tag of an accumulator that stays 0, and what POLY1305_TAG
completes with (42_poly1305.md). -/

namespace Sys2Proof.Machine

/-! ### The clamp and the ranges it gives (R156, R159, R163) -/

/-- Byte `i` of the clamping mask (R156). -/
theorem extractLsb'_clampMask : ∀ i < 16, clampMask.extractLsb' (8 * i) 8 =
    if i % 4 = 3 then 0x0f else if i % 4 = 0 ∧ i ≠ 0 then 0xfc else 0xff := by
  decide

theorem clampedR_lt (otk : Bytes) : (clampedR otk).toNat < 2 ^ 124 := by
  have hmask : (clampedR otk).toNat ≤ clampMask.toNat := by
    rw [clampedR, BitVec.toNat_and]
    exact Nat.and_le_right
  exact hmask.trans_lt (by decide)

theorem blockValue_ge (b : Bytes) : 2 ^ (8 * b.length) ≤ blockValue b :=
  Nat.le_add_left _ _

/-- The high bit is directly above the bytes (R159). -/
theorem blockValue_lt (b : Bytes) : blockValue b < 2 ^ (8 * b.length + 1) := by
  have hbytes := leInt_lt b
  rw [blockValue, Nat.pow_succ]
  omega

/-! ### An accumulator that stays 0 (R161, R167, R168) -/

theorem polyHash_nil (r : Nat) : polyHash r [] = 0 := rfl

theorem absorbValue_zero (h : Nat) (b : Bytes) : absorbValue 0 h b = 0 := by
  rw [absorbValue, Nat.mul_zero, Nat.zero_mod]

/-- Under a zero multiplier the accumulator stays 0, block after block. -/
theorem polyHash_zero (m : Bytes) : polyHash 0 m = 0 := by
  unfold polyHash
  induction polyBlocks m with
  | nil => rfl
  | cons b l ih => rwa [List.foldl_cons, absorbValue_zero]

/-- Reading the second half of a one-time key as `s` and writing it out again gives the half back. -/
theorem leBytes_additiveS {otk : Bytes} (hlen : otk.length = 32) : leBytes 16 (additiveS otk).toNat = otk.drop 16 := by
  have hhalf : (otk.drop 16).length = 16 := by rw [List.length_drop, hlen]
  have hlt : leInt (otk.drop 16) < 2 ^ 128 := by simpa [hhalf] using leInt_lt (otk.drop 16)
  rw [additiveS, List.take_of_length_le hhalf.le, BitVec.toNat_ofNat, Nat.mod_eq_of_lt hlt]
  simpa [hhalf] using leBytes_leInt (otk.drop 16)

/-- The tag of a zero accumulator is the second half of the one-time key (R161). -/
theorem poly1305_of_polyHash_zero {otk m : Bytes} (hlen : otk.length = 32) (h0 : polyHash (clampedR otk).toNat m = 0) :
    poly1305 otk m = otk.drop 16 := by
  rw [poly1305, h0, polyFinal, Nat.zero_mod, Nat.zero_add, Nat.mod_eq_of_lt (additiveS otk).isLt, leBytes_additiveS hlen]

/-! ### The statements, the command first -/

/-- Settles O33: the work is the reads, the absorption of what they read, and the 16 writes of the tag. -/
theorem poly1305TagResult : Obligations.Poly1305TagResult := by
  intro s hr
  obtain ⟨e, he⟩ := poly1305TagWork_ok hr.2.2
  exact (runCommand_ready hr he).trans (congrArg _ (completeCommand_worked ..))

/-- Settles O54: a byte of `r` is the same byte of the key under the same byte of the mask. -/
theorem clampBytes : Obligations.ClampBytes := by
  intro otk i hlen hi
  have hhalf : (otk.take 16).length = 16 := by rw [List.length_take, hlen]; rfl
  have hkey : (otk.take 16).getD i 0 = otk.getD i 0 := by
    rw [List.getD_eq_getElem?_getD, List.getElem?_take_of_lt hi, List.getD_eq_getElem?_getD]
  rw [clampedR, BitVec.extractLsb'_and, extractLsb'_leInt _ (by omega) (by omega), hkey, extractLsb'_clampMask i hi]

/-- Settles O55: the sum is below 2^131 and the multiplier below 2^124, so the product is below 2^255. -/
theorem absorptionRanges : Obligations.AbsorptionRanges := by
  intro otk b h _ hlen hh
  have hblock : blockValue b < 2 ^ 129 := (blockValue_lt b).trans_le (Nat.pow_le_pow_right (by decide) (by omega))
  have hr := clampedR_lt otk
  have hsum : h + blockValue b < 2 ^ 131 := by
    unfold polyPrime at hh
    omega
  have hprod : (h + blockValue b) * (clampedR otk).toNat < 2 ^ 255 :=
    calc (h + blockValue b) * (clampedR otk).toNat < 2 ^ 131 * 2 ^ 124 := Nat.mul_lt_mul'' hsum hr
      _ = 2 ^ 255 := (Nat.pow_add 2 131 124).symm
  exact ⟨blockValue_ge b, blockValue_lt b, hblock, hr, hsum, hprod, absorbValue_lt _ _ _⟩

/-- Settles O56: in both cases the accumulator stays 0. -/
theorem emptyAndZeroTags : Obligations.EmptyAndZeroTags := by
  intro otk hlen
  refine ⟨⟨rfl, polyHash_nil _, poly1305_of_polyHash_zero hlen (polyHash_nil _)⟩, fun hr m => ?_⟩
  have h0 : polyHash (clampedR otk).toNat m = 0 := by rw [hr]; exact polyHash_zero m
  exact ⟨h0, poly1305_of_polyHash_zero hlen h0⟩

end Sys2Proof.Machine
end

section
/-! The AEAD composer: the layout of the MAC input, the tag comparison, what AEAD_ENCRYPT and AEAD_DECRYPT complete with, and that
the second undoes the first (43_aead.md). -/

namespace Sys2Proof.Machine

variable {s t u : State} {p : Profile} {c : Cause}

/-! ### Completions and regions of the two commands (R65, R116) -/

/-- A completion shows of the work before it the accesses, memory and the composer state alone. -/
theorem completeCommand_worked_toPhase (c : Cause) (e : Engine) (q : Phase) (m : Memory) (tr : List MemAccess) (k : Nat) (s : State) :
    completeCommand c (worked e q m tr k s) =
      completeCommand c { afterAccesses tr k s with mem := m, status.phase := q } := rfl

/-- Work of a ready command that raises an error other than a bus error is followed by the completion with that error. -/
theorem runCommand_raised {work : State → Res Unit} (h : ready p s) (hw : work s = .raised c t) (hc : c.isBus = false) :
    runCommand p work s = .next (completeCommand c t) := by
  obtain ⟨hpre, htouch, -⟩ := h
  simp only [runCommand, hpre, htouch, hw, settle, hc, Bool.false_eq_true, if_false]

theorem apart_of_ready_aeadEncrypt (h : ready (aeadEncryptProfile s) s) :
    apart s.regs.src.value s.regs.dst.value s.regs.len.value := by
  obtain ⟨-, -, -, -, hover, -⟩ := preCheck_none h.1
  exact apart_of_regions rfl rfl hover (Nat.le_refl _) (Nat.le_add_right _ 16) rfl

theorem apart_of_ready_aeadDecrypt (h : ready (aeadDecryptProfile s) s) :
    apart s.regs.src.value s.regs.dst.value (s.regs.len.value - 16) := by
  obtain ⟨-, -, -, -, hover, -⟩ := preCheck_none h.1
  exact apart_of_regions rfl rfl hover (Nat.sub_le _ 16) (Nat.le_refl _) rfl

/-- A decryption that passes its pre-checks has a whole tag in its source (R110). -/
theorem le_len_of_ready_aeadDecrypt (h : ready (aeadDecryptProfile s) s) : 16 ≤ s.regs.len.value := by
  obtain ⟨-, -, hlen, -⟩ := preCheck_none h.1
  exact hlen

/-! ### No write before the tag is right (R194) -/

/-- An access that a profile without a written region allows is a read. -/
theorem read_of_allowed {a : MemAccess} (hw : p.writes = []) (h : inRegions (p.allowed a.dir) a.addr = true) : a.dir = .read := by
  cases hd : a.dir with
  | read => rfl
  | write => simp [hd, Profile.allowed, hw, inRegions] at h

/-- However a decryption with a wrong tag ends, it has only read. -/
theorem Ending.reads_only_of_not_verifies (h : Ending .aeadDecrypt s (.next t)) (hv : ¬verifies s) :
    ∃ acc, t.trace.portLog = acc ++ s.trace.portLog ∧ ∀ a ∈ acc, a.dir = .read := by
  cases h with
  | preCheck c _ => exact ⟨[], rfl, by simp⟩
  | success _ _ _ _ v => exact absurd (v rfl) hv
  | busError d w _ _ v =>
    obtain ⟨acc, hport, hin⟩ := (v rfl hv).port
    exact ⟨acc, (congrArg Trace.portLog (scramble_trace _ w)).trans hport, fun a ha => read_of_allowed rfl (hin a ha)⟩
  | authFail acc _ _ _ _ ran => exact ⟨acc, ran.port, ran.reads_only rfl⟩
  | stuck d _ _ _ v =>
    obtain ⟨acc, hport, hin⟩ := (v rfl hv).port
    exact ⟨acc, hport, fun a ha => read_of_allowed rfl (hin a ha)⟩

/-! ### A decryption of an encryption's output (R195) -/

/-- The output of an encryption does not touch its associated data (R65). -/
theorem adBytes_store (hw : s.mem.wf = true) (hr : ready (aeadEncryptProfile s) s) {b : Bytes}
    (hb : b.length = s.regs.len.value + 16) :
    (s.mem.store s.regs.dst.value b).bytes s.regs.ad.value s.regs.adlen.value = adBytes s := by
  obtain ⟨-, -, -, -, hover, -⟩ := preCheck_none hr.1
  have hclash : ¬regionsClash .aeadEncrypt s := by
    rw [← overlapForbidden_iff rfl, Bool.not_eq_true]
    exact hover
  simp only [regionsClash, meet, not_or] at hclash
  exact Memory.bytes_store_outside hw (by omega)

theorem length_aeadSeal (key : Vector Word 8) (nonce : Vector Word 3) (ad pt : Bytes) :
    (aeadSeal key nonce ad pt).length = pt.length + 16 := by
  simp [aeadSeal]

/-- Bytes of memory that are a sealed text are its ciphertext, then its tag. -/
theorem bytes_eq_aeadSeal {m : Memory} {a : Nat} {key : Vector Word 8} {nonce : Vector Word 3} {ad pt : Bytes}
    (h : m.bytes a (pt.length + 16) = aeadSeal key nonce ad pt) :
    m.bytes a pt.length = applyStream key nonce 1 pt ∧
      m.bytes (a + pt.length) 16 = aeadTag key nonce ad (applyStream key nonce 1 pt) := by
  rw [Memory.bytes_add, aeadSeal] at h
  exact List.append_inj h (by simp)

/-! ### The statements -/

/-- Settles O34: the work is the reads, the payload loop, the two absorptions and the 16 writes of the tag. -/
theorem aeadEncryptResult : Obligations.AeadEncryptResult := by
  intro s hw hr
  obtain ⟨e, he⟩ := aeadEncryptWork_ok hr.2.2 hw (apart_of_ready_aeadEncrypt hr)
  exact (runCommand_ready hr he).trans (congrArg _ (completeCommand_worked_toPhase ..))

/-- Settles O35: the first pass leaves DIFF = 0, and the second is the payload loop over the ciphertext. -/
theorem aeadDecryptAccepts : Obligations.AeadDecryptAccepts := by
  intro s hw hr hv
  obtain ⟨e, he⟩ := aeadDecryptWork_ok hr.2.2 hw (apart_of_ready_aeadDecrypt hr) hv
  rw [← verifyReads_eq s (le_len_of_ready_aeadDecrypt hr)]
  exact (runCommand_ready hr he).trans (congrArg _ (completeCommand_worked_toPhase ..))

/-- Settles O36: the first pass leaves another DIFF than 0, and its end is the error. -/
theorem aeadDecryptRejects : Obligations.AeadDecryptRejects := by
  intro s hr hv
  obtain ⟨e, he⟩ := aeadDecryptWork_wrong hr.2.2 hv
  refine ⟨?_, rfl, rfl, rfl⟩
  rw [← verifyReads_eq s (le_len_of_ready_aeadDecrypt hr)]
  exact (runCommand_raised hr he rfl).trans (congrArg _ (completeCommand_worked_toPhase ..))

/-- Settles O38: with a wrong tag every access is a read, and the accesses are what the port's trace has grown by. -/
theorem verifyThenDecrypt : Obligations.VerifyThenDecrypt := by
  intro s t acc ht hport ⟨a, ha, hwrite⟩
  by_contra hv
  obtain ⟨acc', hport', hread⟩ := (ht ▸ execAeadDecrypt_ending s : Ending .aeadDecrypt s (.next t)).reads_only_of_not_verifies hv
  have hacc : acc = acc' := List.append_cancel_right (hport.symm.trans hport')
  have hdir := hread a (hacc ▸ ha)
  rw [hwrite] at hdir
  cases hdir

/-- Settles O39: the decryption finds the associated data, the ciphertext and the tag that the encryption left, so it verifies, and
the same stream applied again gives the plaintext. -/
theorem decryptInvertsEncrypt : Obligations.DecryptInvertsEncrypt := by
  intro s t u hw hr ht hmem hkey hnonce had hadlen hsrc hlen hru
  obtain ⟨t', ht', -, -, -, hmt⟩ := exec_success (i := .aeadEncrypt) rfl hw hr (by simp)
  obtain rfl : t = t' := by rw [ht] at ht'; injection ht'
  have hmu : u.mem = s.mem.store s.regs.dst.value (aeadSeal s.regs.key s.regs.nonce (adBytes s) (srcBytes s)) := hmem.trans hmt
  have hwu : u.mem.wf = true := hmu ▸ Memory.wf_store hw
  have hseal : u.mem.bytes s.regs.dst.value ((srcBytes s).length + 16) =
      aeadSeal s.regs.key s.regs.nonce (adBytes s) (srcBytes s) := by
    rw [hmu, ← length_aeadSeal s.regs.key s.regs.nonce (adBytes s), Memory.bytes_store hw]
  obtain ⟨hct, htag⟩ := bytes_eq_aeadSeal hseal
  rw [length_srcBytes] at hct htag
  have hadu : adBytes u = adBytes s := by
    rw [adBytes, had, hadlen, hmu]
    exact adBytes_store hw hr (by rw [length_aeadSeal, length_srcBytes])
  have hctu : ctBytes u = applyStream s.regs.key s.regs.nonce 1 (srcBytes s) := by
    rw [ctBytes, hsrc, hlen, Nat.add_sub_cancel, hct]
  have hv : verifies u := by
    rw [verifies, hkey, hnonce, hadu, hctu, rtagBytes, hsrc, hlen, Nat.add_sub_cancel, htag]
  have hout : commandOutput .aeadDecrypt u = srcBytes s := by
    rw [commandOutput, hkey, hnonce, hctu, applyStream_applyStream]
  obtain ⟨v, he, herr, -, hph, hmv⟩ := exec_success (i := .aeadDecrypt) rfl hwu hru fun _ => hv
  refine ⟨v, he, herr, hph, ?_⟩
  rw [hmv, hout, ← length_srcBytes s, Memory.bytes_store hwu]

/-- Settles O57: `p` and `q` are the lengths of the zero padding. -/
theorem macInputLayout : Obligations.MacInputLayout := by
  intro ad ct
  have hlayout : macInput ad ct =
      ad ++ List.replicate ((16 - ad.length % 16) % 16) 0 ++ (ct ++ List.replicate ((16 - ct.length % 16) % 16) 0)
        ++ leBytes 8 ad.length ++ leBytes 8 ct.length := by
    simp only [macInput, macPayload, macLengths, pad16, List.append_assoc]
  have hlen : (macInput ad ct).length = (macPayload ad ct).length + 16 := by
    simp [macInput, macLengths]
  have hpayload := length_macPayload ad ct
  exact ⟨_, _, Nat.mod_lt _ (by decide), Nat.mod_lt _ (by decide), by omega, by omega, hlayout, by omega, by omega⟩

/-- Settles O58: the comparison takes one step a byte and leaves the accumulated difference in DIFF. -/
theorem constantTimeComparison : Obligations.ConstantTimeComparison := by
  intro s rtag hlen
  have hetag : s.engine.etag.toList.length = 16 := Vector.length_toList
  rw [compareTags_eq, hetag, hlen]
  exact ⟨rfl, tagDiff_eq_zero (hetag.trans hlen.symm)⟩

end Sys2Proof.Machine
end

section
/-! Bus errors: which of the platform's answers a completed command has consumed, and what an error among them has recorded (R72, R94,
R206). -/

namespace Sys2Proof.Machine

variable {p : Profile} {ph : Phase → Prop} {i : Instr} {s t u : State}

theorem scramble_bus (rs : List Region) (s : State) : (scramble rs s).bus = s.bus := by
  obtain ⟨m', n, e⟩ := scramble_frame rs s
  rw [e]

/-- The accesses `acc` (newest first) from `s` to `t` are on the trace, and each has taken one answer from the queue (R94). -/
structure Consumes (acc : List MemAccess) (s t : State) : Prop where
  port : t.trace.portLog = acc ++ s.trace.portLog
  bus : t.bus = s.bus.drop acc.length

/-- The first `n` answers of the queue are all ok. -/
def AnsweredOk (n : Nat) (s : State) : Prop :=
  ∀ r ∈ s.bus.take n, r = .ok

theorem AnsweredOk.error_notMem {n : Nat} (h : AnsweredOk n s) : BusResp.error ∉ s.bus.take n :=
  fun he => BusResp.noConfusion (h .error he)

/-- A command that a bus error stops has consumed the error with its last access, after answers that were all ok. -/
theorem Stops.consumes_error {dir : Dir} (h : Stops p ph .error dir s u) :
    ∃ a older, a.dir = dir ∧ Consumes (a :: older) s u ∧ s.bus[older.length]? = some .error ∧ AnsweredOk older.length s := by
  obtain ⟨older, t, a, ran, hans, -, rfl⟩ := h.answer (by simp)
  refine ⟨⟨dir, a⟩, older, rfl, ⟨?_, ?_⟩, hans, ran.answered⟩
  · exact congrArg (List.cons _) ran.port
  · exact (congrArg List.tail ran.bus).trans List.tail_drop

/-- The last access of a command, made after `older`, ended it with a bus error, recorded in `t`. -/
structure BusErrorAt (a : MemAccess) (older : List MemAccess) (s t : State) : Prop where
  answer : s.bus[older.length]? = some .error
  earlier : AnsweredOk older.length s
  err : t.status.err = 5
  sub : t.status.sub = (busCause a.dir).subCode

theorem BusErrorAt.error_mem {a : MemAccess} {older : List MemAccess} (h : BusErrorAt a older s t) :
    BusResp.error ∈ s.bus.take (a :: older).length :=
  List.mem_of_getElem? (i := older.length) (by simp [h.answer])

theorem busCause_errCode (d : Dir) : (busCause d).errCode = 5 :=
  (Cause.isBus_iff _).mp (busCause_isBus d)

/-- A keyed command that leaves BUSY clear has had no answer but ok and records no bus error, or was ended by a bus error at its last
access. -/
theorem Ending.consumes (h : Ending i s (.next t)) (hb : s.status.busy = true) (hd : t.status.busy = false) :
    ∃ acc, Consumes acc s t ∧
      (t.status.err ≠ 5 ∧ AnsweredOk acc.length s ∨ ∃ a older, acc = a :: older ∧ BusErrorAt a older s t) := by
  cases h with
  | preCheck c hc =>
    have herr : c.errCode ≠ 5 := by rcases preCheck_some hc with h | h <;> simp [h]
    exact ⟨[], ⟨rfl, rfl⟩, .inl ⟨herr, by simp [AnsweredOk]⟩⟩
  | success acc v _ ran => exact ⟨acc, ⟨ran.port, ran.bus⟩, .inl ⟨(by decide : Cause.success.errCode ≠ 5), ran.answered⟩⟩
  | authFail acc v _ _ _ ran => exact ⟨acc, ⟨ran.port, ran.bus⟩, .inl ⟨(by decide : Cause.authFail.errCode ≠ 5), ran.answered⟩⟩
  | busError dir v _ stops =>
    obtain ⟨a, older, rfl, ⟨hport, hbus⟩, hans, hok⟩ := stops.consumes_error
    exact ⟨a :: older, ⟨(congrArg Trace.portLog (scramble_trace _ v)).trans hport, (scramble_bus _ v).trans hbus⟩,
      .inr ⟨a, older, rfl, hans, hok, busCause_errCode a.dir, rfl⟩⟩
  | stuck dir v _ stops => exact absurd ((stops.busy.trans hb).symm.trans hd) (by decide)

/-- Settles O28, by whether a bus error ended the command. -/
theorem busErrorEndsCommand : Obligations.BusErrorEndsCommand := by
  intro i s t hk hb h hd
  obtain ⟨acc, ⟨hport, hbus⟩, hend⟩ := (h ▸ exec_ending hk s : Ending i s (.next t)).consumes hb hd
  refine ⟨acc, hport, hbus, ?_⟩
  rcases hend with ⟨hne, hok⟩ | ⟨a, older, rfl, hat⟩
  · exact ⟨iff_of_false hne hok.error_notMem, fun h5 => absurd h5 hne⟩
  · refine ⟨iff_of_true hat.err hat.error_mem, fun _ => ⟨a, older, rfl, hat.answer, hat.earlier, hat.sub.trans ?_⟩⟩
    cases a.dir <;> rfl

end Sys2Proof.Machine
end

section
/-! Reset, and the hazards of 70_reset_and_hazards.md: a posted store at acceptance, the reset move, and the trace of a command
whatever its secrets. -/

namespace Sys2Proof.Machine

variable {i : Instr} {s t u : State} {w : Word} {c : Host.Cell}

/-! ### A posted store at acceptance (R234) -/

/-- A posted store into a region of the command makes `postedRace` answer the address of some such store. -/
theorem postedRace_some (hc : c ∈ s.host.posted)
    (hr : inRegions ((wordProfile w s).reads ++ (wordProfile w s).writes) c.1 = true) :
    ∃ b ∈ s.host.posted, postedRace w s = some b.1 ∧
      inRegions ((wordProfile w s).reads ++ (wordProfile w s).writes) b.1 = true := by
  have hsome : (postedRace w s).isSome := List.find?_isSome.mpr ⟨c.1, List.mem_map_of_mem hc, hr⟩
  obtain ⟨a, ha⟩ := Option.isSome_iff_exists.mp hsome
  obtain ⟨b, hb, rfl⟩ := List.mem_map.mp (List.mem_of_find?_eq_some ha)
  exact ⟨b, hb, ha, List.find?_some ha⟩

/-- A write of CMD while idle, with a posted store in the way, stops as the race with that store. -/
theorem exec_postedRace {a : Nat} (hb : s.status.busy = false) (hrace : postedRace w s = some a) :
    exec (.hostWr .cmd w) s = .fault (.hostRace .store a) := by
  rw [exec, execHostWr, if_pos ⟨rfl, hb⟩, hrace]

/-! ### A whole command in lockstep (R240) -/

theorem publicEq.trace_eq (h : publicEq s t) : s.trace = t.trace := by
  obtain ⟨-, -, -, -, -, -, -, -, -, -, htrace⟩ := h
  exact htrace

/-- Runs of a keyed command leave the same trace where its work goes in lockstep. -/
theorem exec_lock {work : State → Res Unit} (h : publicEq s t) (hi : ∀ v, exec i v = runCommand (profileOf i v) work v)
    (hw : Lock anyTwo (work s) (work t)) (hu : exec i s = .next u) : ∃ v, exec i t = .next v ∧ v.trace = u.trace := by
  rw [hi] at hu
  rw [hi, ← h.profileOf i]
  exact runCommand_lock h _ hw hu

/-- ZEROIZE accesses nothing and takes no engine step. -/
theorem exec_zeroize_trace (s : State) : ∃ t, exec .zeroize s = .next t ∧ t.trace = s.trace :=
  ⟨_, rfl, rfl⟩

/-! ### The statements -/

/-- Settles O17: the race is with the first posted store found in a region of the command. -/
theorem postedStoreRace : Obligations.PostedStoreRace := by
  intro s w c hb hc hr
  obtain ⟨b, hmem, hrace, hin⟩ := postedRace_some hc hr
  exact ⟨b, hmem, exec_postedRace hb hrace, hin⟩

/-- Settles O41: the work of each command goes in lockstep, AEAD_DECRYPT's because the verification agrees. -/
theorem constantTimeTrace : Obligations.ConstantTimeTrace := by
  intro i s1 s2 t1 hi h hv hex
  cases i with
  | chachaBlock => exact exec_lock h (fun _ => rfl) (chachaBlockWork_lock h) hex
  | chachaApply => exact exec_lock h (fun _ => rfl) (chachaApplyWork_lock h) hex
  | poly1305Tag => exact exec_lock h (fun _ => rfl) (poly1305TagWork_lock h) hex
  | aeadEncrypt => exact exec_lock h (fun _ => rfl) (aeadEncryptWork_lock h) hex
  | aeadDecrypt => exact exec_lock h (fun _ => rfl) (aeadDecryptWork_lock h (hv rfl)) hex
  | zeroize =>
    obtain ⟨u1, hu1, htrace1⟩ := exec_zeroize_trace s1
    obtain ⟨u2, hu2, htrace2⟩ := exec_zeroize_trace s2
    obtain rfl := Host.Outcome.next.inj (hex.symm.trans hu1)
    exact ⟨u2, hu2, htrace2.trans (h.trace_eq.symm.trans htrace1.symm)⟩
  | hostWr | hostRd => cases hi

/-- Settles O47, from what the reset of the machine does to memory. -/
theorem resetMove : Obligations.ResetMove := by
  intro s rest hp hm hwf
  obtain ⟨mem, n, hreset, -, hidle, hout, -⟩ := resetMachine_spec { s with host.moves := rest } hwf
  exact ⟨mem, n, by rw [stepRunsTransaction.1 .reset s rest hp hm, doMove, hreset], hidle, hout⟩

end Sys2Proof.Machine
end
